-- ==== Sys2Proof/Word.lean ====
section
/-! DEFINITION. The word types of the machine (00_scope.md R6, R8: 32-bit registers and addresses, 8-bit
addressable unit) and the type of assembler text. -/

namespace Sys2Proof

/-- A register value or a bus address: 32 bits, arithmetic modulo 2^32 (00_scope.md R8). -/
abbrev Word := BitVec 32

/-- The addressable unit of the bus (00_scope.md R6). -/
abbrev Byte := BitVec 8

/-- A 16-bit immediate (30_encoding.md R81). -/
abbrev Half := BitVec 16

/-- Assembler text: one line, character by character (30_encoding.md R89). -/
abbrev Text := List Char

end Sys2Proof
end

