-- ==== Sys2Proof/Syntax.lean ====
section
/-! DEFINITION. The syntax: registers, operand kinds, mnemonics, rows of the opcode map, operands, and the
instructions themselves, one constructor of `Instr` per row of spec/opcode_table.json (30_encoding.md R86). -/

namespace Sys2Proof

/-- The 16 registers, in index order 0 to 15 (10_state.md R20). -/
inductive Reg where
  | A | B | C | D | E | F | G | H | I | J | K | L | FP | SP | PC | FL
deriving DecidableEq, Repr

/-- The operand kinds of 30_encoding.md R81: `ind` is `[reg]`, `abs` is `[imm32]`. -/
inductive OperandKind where
  | reg | imm8 | imm16 | imm32 | ind | abs
deriving DecidableEq, Repr

/-- The 36 mnemonics of 30_encoding.md R86. -/
inductive Mnemonic where
  | mov | movb | movw | movd | or | xor | and | shl | shr | not | add | sub
  | cmp | mul | idiv | mod | inc | dec | bz | bnz | bneg | bpos | bgt | bgte
  | blt | blte | bv | bnv | jmp | call | ret | iret | sret | push | pop | nop
deriving DecidableEq, Repr

/-- A row of the opcode map: a mnemonic and its operand kinds (00_scope.md R7, `OPCODE_MAP`). -/
structure Row where
  mnemonic : Mnemonic
  kinds    : List OperandKind
deriving DecidableEq, Repr

/-- The parameter `OPCODE_MAP` (00_scope.md R7): which opcode byte selects which row. -/
abbrev OpcodeMap := List (Byte × Row)

/-- An operand with its value (30_encoding.md R81, R84). -/
inductive Operand where
  | reg   (r : Reg)
  | imm8  (v : Byte)
  | imm16 (v : Half)
  | imm32 (v : Word)
  | ind   (r : Reg)
  | abs   (p : Word)
deriving DecidableEq, Repr

/-- The operand shapes each mnemonic has: the rows of 30_encoding.md R86, mnemonic by mnemonic. -/
def Mnemonic.shapes : Mnemonic → List (List OperandKind)
  | .mov => [[.reg, .reg], [.reg, .imm8], [.reg, .imm16], [.reg, .imm32]]
  | .movb => [[.reg, .ind], [.reg, .abs], [.ind, .reg], [.ind, .imm8], [.ind, .ind], [.ind, .abs],
      [.abs, .reg], [.abs, .imm8], [.abs, .ind], [.abs, .abs]]
  | .movw => [[.reg, .ind], [.reg, .abs], [.ind, .reg], [.ind, .imm16], [.ind, .ind], [.ind, .abs],
      [.abs, .reg], [.abs, .imm16], [.abs, .ind], [.abs, .abs]]
  | .movd => [[.reg, .ind], [.reg, .abs], [.ind, .reg], [.ind, .imm32], [.ind, .ind], [.ind, .abs],
      [.abs, .reg], [.abs, .imm32], [.abs, .ind], [.abs, .abs]]
  | .or => [[.reg, .reg], [.reg, .imm8], [.reg, .imm16], [.reg, .imm32]]
  | .xor => [[.reg, .reg], [.reg, .imm8], [.reg, .imm16], [.reg, .imm32]]
  | .and => [[.reg, .reg], [.reg, .imm8], [.reg, .imm16], [.reg, .imm32]]
  | .shl => [[.reg, .reg], [.reg, .imm8]]
  | .shr => [[.reg, .reg], [.reg, .imm8]]
  | .not => [[.reg]]
  | .add => [[.reg, .reg], [.reg, .imm8], [.reg, .imm16], [.reg, .imm32]]
  | .sub => [[.reg, .reg], [.reg, .imm8], [.reg, .imm16], [.reg, .imm32]]
  | .cmp => [[.reg, .reg], [.reg, .imm8], [.reg, .imm16], [.reg, .imm32]]
  | .mul => [[.reg, .reg], [.reg, .imm8], [.reg, .imm16], [.reg, .imm32]]
  | .idiv => [[.reg, .reg], [.reg, .imm8], [.reg, .imm16], [.reg, .imm32]]
  | .mod => [[.reg, .reg], [.reg, .imm8], [.reg, .imm16], [.reg, .imm32]]
  | .inc => [[.reg]]
  | .dec => [[.reg]]
  | .bz => [[.reg], [.imm32]]
  | .bnz => [[.reg], [.imm32]]
  | .bneg => [[.reg], [.imm32]]
  | .bpos => [[.reg], [.imm32]]
  | .bgt => [[.reg], [.imm32]]
  | .bgte => [[.reg], [.imm32]]
  | .blt => [[.reg], [.imm32]]
  | .blte => [[.reg], [.imm32]]
  | .bv => [[.reg], [.imm32]]
  | .bnv => [[.reg], [.imm32]]
  | .jmp => [[.reg], [.imm32]]
  | .call => [[.reg], [.imm32]]
  | .ret => [[]]
  | .iret => [[]]
  | .sret => [[]]
  | .push => [[.reg], [.imm32]]
  | .pop => [[.reg]]
  | .nop => [[]]

/-- The instructions: one constructor per row of 30_encoding.md R86. The suffix lists the operands in order:
`R` a register, `I8`, `I16`, `I32` an immediate, `Mr` `[reg]`, `Ma` `[imm32]`. Variables: `d` the first register
operand and `r` the second, `v` an immediate, `p` the first absolute address and `q` the second. -/
inductive Instr where
  | movRR (d : Reg) (r : Reg)
  | movRI8 (d : Reg) (v : Byte)
  | movRI16 (d : Reg) (v : Half)
  | movRI32 (d : Reg) (v : Word)
  | movbRMr (d : Reg) (r : Reg)
  | movbRMa (d : Reg) (q : Word)
  | movbMrR (d : Reg) (r : Reg)
  | movbMrI8 (d : Reg) (v : Byte)
  | movbMrMr (d : Reg) (r : Reg)
  | movbMrMa (d : Reg) (q : Word)
  | movbMaR (p : Word) (r : Reg)
  | movbMaI8 (p : Word) (v : Byte)
  | movbMaMr (p : Word) (r : Reg)
  | movbMaMa (p : Word) (q : Word)
  | movwRMr (d : Reg) (r : Reg)
  | movwRMa (d : Reg) (q : Word)
  | movwMrR (d : Reg) (r : Reg)
  | movwMrI16 (d : Reg) (v : Half)
  | movwMrMr (d : Reg) (r : Reg)
  | movwMrMa (d : Reg) (q : Word)
  | movwMaR (p : Word) (r : Reg)
  | movwMaI16 (p : Word) (v : Half)
  | movwMaMr (p : Word) (r : Reg)
  | movwMaMa (p : Word) (q : Word)
  | movdRMr (d : Reg) (r : Reg)
  | movdRMa (d : Reg) (q : Word)
  | movdMrR (d : Reg) (r : Reg)
  | movdMrI32 (d : Reg) (v : Word)
  | movdMrMr (d : Reg) (r : Reg)
  | movdMrMa (d : Reg) (q : Word)
  | movdMaR (p : Word) (r : Reg)
  | movdMaI32 (p : Word) (v : Word)
  | movdMaMr (p : Word) (r : Reg)
  | movdMaMa (p : Word) (q : Word)
  | orRR (d : Reg) (r : Reg)
  | orRI8 (d : Reg) (v : Byte)
  | orRI16 (d : Reg) (v : Half)
  | orRI32 (d : Reg) (v : Word)
  | xorRR (d : Reg) (r : Reg)
  | xorRI8 (d : Reg) (v : Byte)
  | xorRI16 (d : Reg) (v : Half)
  | xorRI32 (d : Reg) (v : Word)
  | andRR (d : Reg) (r : Reg)
  | andRI8 (d : Reg) (v : Byte)
  | andRI16 (d : Reg) (v : Half)
  | andRI32 (d : Reg) (v : Word)
  | shlRR (d : Reg) (r : Reg)
  | shlRI8 (d : Reg) (v : Byte)
  | shrRR (d : Reg) (r : Reg)
  | shrRI8 (d : Reg) (v : Byte)
  | notR (d : Reg)
  | addRR (d : Reg) (r : Reg)
  | addRI8 (d : Reg) (v : Byte)
  | addRI16 (d : Reg) (v : Half)
  | addRI32 (d : Reg) (v : Word)
  | subRR (d : Reg) (r : Reg)
  | subRI8 (d : Reg) (v : Byte)
  | subRI16 (d : Reg) (v : Half)
  | subRI32 (d : Reg) (v : Word)
  | cmpRR (d : Reg) (r : Reg)
  | cmpRI8 (d : Reg) (v : Byte)
  | cmpRI16 (d : Reg) (v : Half)
  | cmpRI32 (d : Reg) (v : Word)
  | mulRR (d : Reg) (r : Reg)
  | mulRI8 (d : Reg) (v : Byte)
  | mulRI16 (d : Reg) (v : Half)
  | mulRI32 (d : Reg) (v : Word)
  | idivRR (d : Reg) (r : Reg)
  | idivRI8 (d : Reg) (v : Byte)
  | idivRI16 (d : Reg) (v : Half)
  | idivRI32 (d : Reg) (v : Word)
  | modRR (d : Reg) (r : Reg)
  | modRI8 (d : Reg) (v : Byte)
  | modRI16 (d : Reg) (v : Half)
  | modRI32 (d : Reg) (v : Word)
  | incR (d : Reg)
  | decR (d : Reg)
  | bzR (d : Reg)
  | bzI32 (v : Word)
  | bnzR (d : Reg)
  | bnzI32 (v : Word)
  | bnegR (d : Reg)
  | bnegI32 (v : Word)
  | bposR (d : Reg)
  | bposI32 (v : Word)
  | bgtR (d : Reg)
  | bgtI32 (v : Word)
  | bgteR (d : Reg)
  | bgteI32 (v : Word)
  | bltR (d : Reg)
  | bltI32 (v : Word)
  | blteR (d : Reg)
  | blteI32 (v : Word)
  | bvR (d : Reg)
  | bvI32 (v : Word)
  | bnvR (d : Reg)
  | bnvI32 (v : Word)
  | jmpR (d : Reg)
  | jmpI32 (v : Word)
  | callR (d : Reg)
  | callI32 (v : Word)
  | ret
  | iret
  | sret
  | pushR (d : Reg)
  | pushI32 (v : Word)
  | popR (d : Reg)
  | nop
deriving DecidableEq, Repr

end Sys2Proof
end

