-- ==== Sys2Proof/Config.lean ====
section
/-! DEFINITION. The configuration: the parameters of 00_scope.md R7, as plain data, and the free values of the
opaque devices (20_memory.md R62). A machine's configuration is fixed before its first reset and never changes. -/

namespace Sys2Proof

/-- How a comparison or a division reads its operands: the values of `CMP_MODE` and `DIV_MODE` (00_scope.md R7). -/
inductive Signedness where
  | signed | unsigned
deriving DecidableEq, Repr

/-- An attached device as the bus is offered it (20_memory.md R57), in a configuration one other than the RAM and the
CPU (00_scope.md R7 `DEVICES`): its window, its optional interrupt line, and the constant table that only the disassembler's symbolic mode reads (30_encoding.md
R99). -/
structure Device where
  name      : Text
  base      : Word
  size      : Nat
  line      : Option Nat
  constants : List (Text × Nat)
deriving DecidableEq, Repr

/-- The open parameters of 00_scope.md R7. The RAM and the CPU are attached devices too (20_memory.md R58, R59), so each
has a name and a constant table for the disassembler's symbolic mode, which the spec does not give (DESIGN CHOICE, log
entry 21). `stopAddr = none` means that no `STOP_ADDR` is configured (DESIGN CHOICE,
log entry 14). -/
structure Config where
  ramBase  : Word
  ramSize  : Nat
  cpuBase  : Word
  ivtBase  : Word
  nIrq     : Nat
  devices  : List Device
  cmpMode  : Signedness
  divMode  : Signedness
  opcodes  : OpcodeMap
  stopAddr : Option Word
  ramName  : Text
  ramConstants : List (Text × Nat)
  cpuName  : Text
  cpuConstants : List (Text × Nat)
deriving DecidableEq, Repr

/-- What happened to the opaque devices: a byte read or written at an offset of device number `dev` (its place in
`Config.devices`), or a bus reset (20_memory.md R62, R63). -/
inductive DeviceEvent where
  | read  (dev : Nat) (offset : Nat)
  | write (dev : Nat) (offset : Nat) (b : Byte)
  | reset
deriving DecidableEq, Repr

/-- FREE VALUE (log entry 3; 93_implementation_defined.md I5): the byte an opaque device answers to the newest read
of this list of events (newest first). -/
opaque Config.deviceByte : List DeviceEvent → BitVec 8

/-- FREE VALUE (log entry 4; 93_implementation_defined.md I22): whether a device that has an interrupt line signals
it as the effect of the newest access of this list of events (newest first). -/
opaque Config.deviceSignals : List DeviceEvent → Bool

/-- FREE VALUE (log entry 12; 93_implementation_defined.md I17): which of several constant names of one value the
symbolic rendering mode shows. -/
opaque Config.symbolChoice : List Text → Nat

end Sys2Proof
end

