-- ==== Sys2Proof/WellFormed.lean ====
section
/-! DEFINITION. Well-formedness: of an opcode map, of a configuration (20_memory.md R51, R52, R68;
60_exceptions.md R308; 93_implementation_defined.md I8 to I10) and of an instruction under an opcode map. The
operands of an `Instr` need no check: their types hold exactly the values an encoding admits. -/

namespace Sys2Proof

/-- Why a configuration is refused. -/
inductive ConfigError where
  /-- A window has size 0 (20_memory.md R51). -/
  | emptyWindow
  /-- A window runs past 2^32 (20_memory.md R51). -/
  | windowWraps
  /-- Two windows intersect (20_memory.md R52). -/
  | windowsOverlap
  /-- `N_IRQ` is 0 (00_scope.md R7). -/
  | noLines
  /-- The vector table does not lie inside the RAM window (20_memory.md R68). -/
  | tableOutsideRam
  /-- A device declares a line that is not below `N_IRQ` (60_exceptions.md R308). -/
  | lineOutOfRange
  /-- Two devices declare one line (60_exceptions.md R308). -/
  | lineShared
  /-- Opcode 0x01 is not `mov reg, reg` (00_scope.md R7). -/
  | opcodeOneNotMov
  /-- An opcode byte selects two rows (30_encoding.md R80). -/
  | opcodeTwice
  /-- A row has two opcode bytes (DEDUCED, log entry 2). -/
  | rowTwice
  /-- A row that 30_encoding.md R86 does not have, so that no rule gives it a meaning (DEDUCED, log entry 2). -/
  | unknownRow
  /-- An `attach` after the first reset (20_memory.md R51). -/
  | attachAfterReset
deriving DecidableEq, Repr

/-- A window of the bus, base and size (20_memory.md R51). -/
structure Window where
  base : Word
  size : Nat
deriving DecidableEq, Repr

/-- The windows share no address (20_memory.md R52). -/
def Window.disjoint (u w : Window) : Bool :=
  decide (u.base.toNat + u.size ≤ w.base.toNat) || decide (w.base.toNat + w.size ≤ u.base.toNat)

/-- The window does not wrap (20_memory.md R51). -/
def Window.fits (w : Window) : Bool := decide (w.base.toNat + w.size ≤ 2 ^ 32)

/-- The RAM window (20_memory.md R58). -/
def Config.ramWindow (c : Config) : Window := ⟨c.ramBase, c.ramSize⟩

/-- The CPU register window, 64 bytes (20_memory.md R59). -/
def Config.cpuWindow (c : Config) : Window := ⟨c.cpuBase, 64⟩

/-- The window of an attached device. -/
def Device.window (d : Device) : Window := ⟨d.base, d.size⟩

/-- Every window on the bus. -/
def Config.windows (c : Config) : List Window :=
  c.ramWindow :: c.cpuWindow :: c.devices.map Device.window

/-- No two members at different places are related as `f` forbids. -/
def pairwise {α : Type} (f : α → α → Bool) : List α → Bool
  | [] => true
  | x :: xs => xs.all (f x) && pairwise f xs

/-- The lines the devices declare (60_exceptions.md R308). -/
def Config.lines (c : Config) : List Nat := c.devices.filterMap Device.line

/-- A row that 30_encoding.md R86 lists. -/
def Row.known (r : Row) : Bool := r.mnemonic.shapes.contains r.kinds

/-- What is wrong with an opcode map (00_scope.md R7; log entry 2). -/
def OpcodeMap.errors (m : OpcodeMap) : List ConfigError :=
  (if m.lookup 1 == some ⟨.mov, [.reg, .reg]⟩ then [] else [.opcodeOneNotMov]) ++
  (if pairwise (fun x y => x.1 != y.1) m then [] else [.opcodeTwice]) ++
  (if pairwise (fun x y => x.2 != y.2) m then [] else [.rowTwice]) ++
  (if m.all (fun x => x.2.known) then [] else [.unknownRow])

/-- Everything that is wrong with a configuration; a configuration with an error is refused and no machine is built
from it (20_memory.md R52, R68; 60_exceptions.md R308). -/
def Config.errors (c : Config) : List ConfigError :=
  (if c.windows.all (fun w => decide (1 ≤ w.size)) then [] else [.emptyWindow]) ++
  (if c.windows.all Window.fits then [] else [.windowWraps]) ++
  (if pairwise Window.disjoint c.windows then [] else [.windowsOverlap]) ++
  (if decide (1 ≤ c.nIrq) then [] else [.noLines]) ++
  (if decide (c.ramBase.toNat ≤ c.ivtBase.toNat) &&
      decide (c.ivtBase.toNat + 4 * c.nIrq ≤ c.ramBase.toNat + c.ramSize) then [] else [.tableOutsideRam]) ++
  (if c.lines.all (fun l => decide (l < c.nIrq)) then [] else [.lineOutOfRange]) ++
  (if pairwise (fun x y => x != y) c.lines then [] else [.lineShared]) ++
  c.opcodes.errors

/-- The opcode map is one a machine may be built with. -/
abbrev OpcodeMap.wf (m : OpcodeMap) : Prop := m.errors = []

/-- The configuration is one a machine may be built from. -/
abbrev Config.wf (c : Config) : Prop := c.errors = []

/-- `attach(device, base, size)` at configuration time (20_memory.md R51, R52): the bindings keep their order of
attachment, and a binding that makes the configuration ill-formed is refused. -/
def Config.attach (c : Config) (d : Device) : Except ConfigError Config :=
  let c' : Config := { c with devices := c.devices ++ [d] }
  match c'.errors with
  | [] => .ok c'
  | e :: _ => .error e

end Sys2Proof
end

