-- ==== Sys2Proof/Decode.lean ====
section
/-! DEFINITION. The instruction codec on bytes (30_encoding.md R80 to R88): the default opcode map, the decoder, total
on any bytes and rejecting by name, and the encoder. -/

namespace Sys2Proof

/-! ### Registers and operand kinds -/

/-- The index of a register (10_state.md R20). -/
def Reg.number : Reg → Nat
  | .A => 0 | .B => 1 | .C => 2 | .D => 3 | .E => 4 | .F => 5 | .G => 6 | .H => 7
  | .I => 8 | .J => 9 | .K => 10 | .L => 11 | .FP => 12 | .SP => 13 | .PC => 14 | .FL => 15

/-- The register an index names; none above 15 (10_state.md R20, R23). -/
def Reg.ofNumber : Nat → Option Reg
  | 0 => some .A | 1 => some .B | 2 => some .C | 3 => some .D
  | 4 => some .E | 5 => some .F | 6 => some .G | 7 => some .H
  | 8 => some .I | 9 => some .J | 10 => some .K | 11 => some .L
  | 12 => some .FP | 13 => some .SP | 14 => some .PC | 15 => some .FL
  | _ => none

/-- How many bytes an operand kind takes (30_encoding.md R81). -/
def OperandKind.size : OperandKind → Nat
  | .reg => 1 | .imm8 => 1 | .imm16 => 2 | .imm32 => 4 | .ind => 1 | .abs => 4

/-- The length of an instruction of a row: the opcode byte and the operands (30_encoding.md R80). -/
def Row.length (r : Row) : Nat := 1 + (r.kinds.map OperandKind.size).sum

/-- The little-endian bytes of a 16-bit immediate (30_encoding.md R81). -/
def halfBytes (v : Half) : List Byte := [v.extractLsb' 0 8, v.extractLsb' 8 8]

/-- The little-endian bytes of a 32-bit word (30_encoding.md R81). -/
def wordBytes (v : Word) : List Byte :=
  [v.extractLsb' 0 8, v.extractLsb' 8 8, v.extractLsb' 16 8, v.extractLsb' 24 8]

/-- A 16-bit immediate from its bytes, least significant first (30_encoding.md R83). -/
def halfOf (b0 b1 : Byte) : Half := b1 ++ b0

/-- A 32-bit word from its bytes, least significant first (30_encoding.md R83). -/
def wordOf (b0 b1 b2 b3 : Byte) : Word := b3 ++ b2 ++ b1 ++ b0

/-- The kind of an operand. -/
def Operand.kind : Operand → OperandKind
  | .reg _ => .reg | .imm8 _ => .imm8 | .imm16 _ => .imm16 | .imm32 _ => .imm32 | .ind _ => .ind | .abs _ => .abs

/-- An operand's bytes (30_encoding.md R81, R94). -/
def Operand.bytes : Operand → List Byte
  | .reg r => [BitVec.ofNat 8 r.number]
  | .imm8 v => [v]
  | .imm16 v => halfBytes v
  | .imm32 v => wordBytes v
  | .ind r => [BitVec.ofNat 8 r.number]
  | .abs p => wordBytes p

/-! ### The opcode map and the rows of the instructions -/

/-- The default value of `OPCODE_MAP` (30_encoding.md R86). -/
def defaultOpcodeMap : OpcodeMap :=
  [(0x01, ⟨.mov, [.reg, .reg]⟩),
   (0x02, ⟨.mov, [.reg, .imm8]⟩),
   (0x03, ⟨.mov, [.reg, .imm16]⟩),
   (0x04, ⟨.mov, [.reg, .imm32]⟩),
   (0x05, ⟨.movb, [.reg, .ind]⟩),
   (0x06, ⟨.movb, [.reg, .abs]⟩),
   (0x07, ⟨.movb, [.ind, .reg]⟩),
   (0x08, ⟨.movb, [.ind, .imm8]⟩),
   (0x09, ⟨.movb, [.ind, .ind]⟩),
   (0x0A, ⟨.movb, [.ind, .abs]⟩),
   (0x0B, ⟨.movb, [.abs, .reg]⟩),
   (0x0C, ⟨.movb, [.abs, .imm8]⟩)] ++
  [(0x0D, ⟨.movb, [.abs, .ind]⟩),
   (0x0E, ⟨.movb, [.abs, .abs]⟩),
   (0x0F, ⟨.movw, [.reg, .ind]⟩),
   (0x10, ⟨.movw, [.reg, .abs]⟩),
   (0x11, ⟨.movw, [.ind, .reg]⟩),
   (0x12, ⟨.movw, [.ind, .imm16]⟩),
   (0x13, ⟨.movw, [.ind, .ind]⟩),
   (0x14, ⟨.movw, [.ind, .abs]⟩),
   (0x15, ⟨.movw, [.abs, .reg]⟩),
   (0x16, ⟨.movw, [.abs, .imm16]⟩),
   (0x17, ⟨.movw, [.abs, .ind]⟩),
   (0x18, ⟨.movw, [.abs, .abs]⟩)] ++
  [(0x19, ⟨.movd, [.reg, .ind]⟩),
   (0x1A, ⟨.movd, [.reg, .abs]⟩),
   (0x1B, ⟨.movd, [.ind, .reg]⟩),
   (0x1C, ⟨.movd, [.ind, .imm32]⟩),
   (0x1D, ⟨.movd, [.ind, .ind]⟩),
   (0x1E, ⟨.movd, [.ind, .abs]⟩),
   (0x1F, ⟨.movd, [.abs, .reg]⟩),
   (0x20, ⟨.movd, [.abs, .imm32]⟩),
   (0x21, ⟨.movd, [.abs, .ind]⟩),
   (0x22, ⟨.movd, [.abs, .abs]⟩),
   (0x23, ⟨.or, [.reg, .reg]⟩),
   (0x24, ⟨.or, [.reg, .imm8]⟩)] ++
  [(0x25, ⟨.or, [.reg, .imm16]⟩),
   (0x26, ⟨.or, [.reg, .imm32]⟩),
   (0x27, ⟨.xor, [.reg, .reg]⟩),
   (0x28, ⟨.xor, [.reg, .imm8]⟩),
   (0x29, ⟨.xor, [.reg, .imm16]⟩),
   (0x2A, ⟨.xor, [.reg, .imm32]⟩),
   (0x2B, ⟨.and, [.reg, .reg]⟩),
   (0x2C, ⟨.and, [.reg, .imm8]⟩),
   (0x2D, ⟨.and, [.reg, .imm16]⟩),
   (0x2E, ⟨.and, [.reg, .imm32]⟩),
   (0x2F, ⟨.shl, [.reg, .reg]⟩),
   (0x30, ⟨.shl, [.reg, .imm8]⟩)] ++
  [(0x31, ⟨.shr, [.reg, .reg]⟩),
   (0x32, ⟨.shr, [.reg, .imm8]⟩),
   (0x33, ⟨.not, [.reg]⟩),
   (0x34, ⟨.add, [.reg, .reg]⟩),
   (0x35, ⟨.add, [.reg, .imm8]⟩),
   (0x36, ⟨.add, [.reg, .imm16]⟩),
   (0x37, ⟨.add, [.reg, .imm32]⟩),
   (0x38, ⟨.sub, [.reg, .reg]⟩),
   (0x39, ⟨.sub, [.reg, .imm8]⟩),
   (0x3A, ⟨.sub, [.reg, .imm16]⟩),
   (0x3B, ⟨.sub, [.reg, .imm32]⟩),
   (0x3C, ⟨.cmp, [.reg, .reg]⟩)] ++
  [(0x3D, ⟨.cmp, [.reg, .imm8]⟩),
   (0x3E, ⟨.cmp, [.reg, .imm16]⟩),
   (0x3F, ⟨.cmp, [.reg, .imm32]⟩),
   (0x40, ⟨.mul, [.reg, .reg]⟩),
   (0x41, ⟨.mul, [.reg, .imm8]⟩),
   (0x42, ⟨.mul, [.reg, .imm16]⟩),
   (0x43, ⟨.mul, [.reg, .imm32]⟩),
   (0x44, ⟨.idiv, [.reg, .reg]⟩),
   (0x45, ⟨.idiv, [.reg, .imm8]⟩),
   (0x46, ⟨.idiv, [.reg, .imm16]⟩),
   (0x47, ⟨.idiv, [.reg, .imm32]⟩),
   (0x48, ⟨.mod, [.reg, .reg]⟩)] ++
  [(0x49, ⟨.mod, [.reg, .imm8]⟩),
   (0x4A, ⟨.mod, [.reg, .imm16]⟩),
   (0x4B, ⟨.mod, [.reg, .imm32]⟩),
   (0x4C, ⟨.inc, [.reg]⟩),
   (0x4D, ⟨.dec, [.reg]⟩),
   (0x4E, ⟨.bz, [.reg]⟩),
   (0x4F, ⟨.bz, [.imm32]⟩),
   (0x50, ⟨.bnz, [.reg]⟩),
   (0x51, ⟨.bnz, [.imm32]⟩),
   (0x52, ⟨.bneg, [.reg]⟩),
   (0x53, ⟨.bneg, [.imm32]⟩),
   (0x54, ⟨.bpos, [.reg]⟩)] ++
  [(0x55, ⟨.bpos, [.imm32]⟩),
   (0x56, ⟨.bgt, [.reg]⟩),
   (0x57, ⟨.bgt, [.imm32]⟩),
   (0x58, ⟨.bgte, [.reg]⟩),
   (0x59, ⟨.bgte, [.imm32]⟩),
   (0x5A, ⟨.blt, [.reg]⟩),
   (0x5B, ⟨.blt, [.imm32]⟩),
   (0x5C, ⟨.blte, [.reg]⟩),
   (0x5D, ⟨.blte, [.imm32]⟩),
   (0x5E, ⟨.bv, [.reg]⟩),
   (0x5F, ⟨.bv, [.imm32]⟩),
   (0x60, ⟨.bnv, [.reg]⟩)] ++
  [(0x61, ⟨.bnv, [.imm32]⟩),
   (0x62, ⟨.jmp, [.reg]⟩),
   (0x63, ⟨.jmp, [.imm32]⟩),
   (0x64, ⟨.call, [.reg]⟩),
   (0x65, ⟨.call, [.imm32]⟩),
   (0x66, ⟨.ret, []⟩),
   (0x67, ⟨.iret, []⟩),
   (0x68, ⟨.sret, []⟩),
   (0x69, ⟨.push, [.reg]⟩),
   (0x6A, ⟨.push, [.imm32]⟩),
   (0x6B, ⟨.pop, [.reg]⟩),
   (0x6C, ⟨.nop, []⟩)]

/-- The opcode byte a map gives a row (30_encoding.md R94). -/
def OpcodeMap.opcodeOf (m : OpcodeMap) (r : Row) : Option Byte := (m.find? (fun x => x.2 == r)).map (·.1)

/-- The row of an instruction and its operands, in operand order (30_encoding.md R86). -/
def Instr.parts : Instr → Mnemonic × List Operand
  | .movRR d r => (.mov, [.reg d, .reg r])
  | .movRI8 d v => (.mov, [.reg d, .imm8 v])
  | .movRI16 d v => (.mov, [.reg d, .imm16 v])
  | .movRI32 d v => (.mov, [.reg d, .imm32 v])
  | .movbRMr d r => (.movb, [.reg d, .ind r])
  | .movbRMa d q => (.movb, [.reg d, .abs q])
  | .movbMrR d r => (.movb, [.ind d, .reg r])
  | .movbMrI8 d v => (.movb, [.ind d, .imm8 v])
  | .movbMrMr d r => (.movb, [.ind d, .ind r])
  | .movbMrMa d q => (.movb, [.ind d, .abs q])
  | .movbMaR p r => (.movb, [.abs p, .reg r])
  | .movbMaI8 p v => (.movb, [.abs p, .imm8 v])
  | .movbMaMr p r => (.movb, [.abs p, .ind r])
  | .movbMaMa p q => (.movb, [.abs p, .abs q])
  | .movwRMr d r => (.movw, [.reg d, .ind r])
  | .movwRMa d q => (.movw, [.reg d, .abs q])
  | .movwMrR d r => (.movw, [.ind d, .reg r])
  | .movwMrI16 d v => (.movw, [.ind d, .imm16 v])
  | .movwMrMr d r => (.movw, [.ind d, .ind r])
  | .movwMrMa d q => (.movw, [.ind d, .abs q])
  | .movwMaR p r => (.movw, [.abs p, .reg r])
  | .movwMaI16 p v => (.movw, [.abs p, .imm16 v])
  | .movwMaMr p r => (.movw, [.abs p, .ind r])
  | .movwMaMa p q => (.movw, [.abs p, .abs q])
  | .movdRMr d r => (.movd, [.reg d, .ind r])
  | .movdRMa d q => (.movd, [.reg d, .abs q])
  | .movdMrR d r => (.movd, [.ind d, .reg r])
  | .movdMrI32 d v => (.movd, [.ind d, .imm32 v])
  | .movdMrMr d r => (.movd, [.ind d, .ind r])
  | .movdMrMa d q => (.movd, [.ind d, .abs q])
  | .movdMaR p r => (.movd, [.abs p, .reg r])
  | .movdMaI32 p v => (.movd, [.abs p, .imm32 v])
  | .movdMaMr p r => (.movd, [.abs p, .ind r])
  | .movdMaMa p q => (.movd, [.abs p, .abs q])
  | .orRR d r => (.or, [.reg d, .reg r])
  | .orRI8 d v => (.or, [.reg d, .imm8 v])
  | .orRI16 d v => (.or, [.reg d, .imm16 v])
  | .orRI32 d v => (.or, [.reg d, .imm32 v])
  | .xorRR d r => (.xor, [.reg d, .reg r])
  | .xorRI8 d v => (.xor, [.reg d, .imm8 v])
  | .xorRI16 d v => (.xor, [.reg d, .imm16 v])
  | .xorRI32 d v => (.xor, [.reg d, .imm32 v])
  | .andRR d r => (.and, [.reg d, .reg r])
  | .andRI8 d v => (.and, [.reg d, .imm8 v])
  | .andRI16 d v => (.and, [.reg d, .imm16 v])
  | .andRI32 d v => (.and, [.reg d, .imm32 v])
  | .shlRR d r => (.shl, [.reg d, .reg r])
  | .shlRI8 d v => (.shl, [.reg d, .imm8 v])
  | .shrRR d r => (.shr, [.reg d, .reg r])
  | .shrRI8 d v => (.shr, [.reg d, .imm8 v])
  | .notR d => (.not, [.reg d])
  | .addRR d r => (.add, [.reg d, .reg r])
  | .addRI8 d v => (.add, [.reg d, .imm8 v])
  | .addRI16 d v => (.add, [.reg d, .imm16 v])
  | .addRI32 d v => (.add, [.reg d, .imm32 v])
  | .subRR d r => (.sub, [.reg d, .reg r])
  | .subRI8 d v => (.sub, [.reg d, .imm8 v])
  | .subRI16 d v => (.sub, [.reg d, .imm16 v])
  | .subRI32 d v => (.sub, [.reg d, .imm32 v])
  | .cmpRR d r => (.cmp, [.reg d, .reg r])
  | .cmpRI8 d v => (.cmp, [.reg d, .imm8 v])
  | .cmpRI16 d v => (.cmp, [.reg d, .imm16 v])
  | .cmpRI32 d v => (.cmp, [.reg d, .imm32 v])
  | .mulRR d r => (.mul, [.reg d, .reg r])
  | .mulRI8 d v => (.mul, [.reg d, .imm8 v])
  | .mulRI16 d v => (.mul, [.reg d, .imm16 v])
  | .mulRI32 d v => (.mul, [.reg d, .imm32 v])
  | .idivRR d r => (.idiv, [.reg d, .reg r])
  | .idivRI8 d v => (.idiv, [.reg d, .imm8 v])
  | .idivRI16 d v => (.idiv, [.reg d, .imm16 v])
  | .idivRI32 d v => (.idiv, [.reg d, .imm32 v])
  | .modRR d r => (.mod, [.reg d, .reg r])
  | .modRI8 d v => (.mod, [.reg d, .imm8 v])
  | .modRI16 d v => (.mod, [.reg d, .imm16 v])
  | .modRI32 d v => (.mod, [.reg d, .imm32 v])
  | .incR d => (.inc, [.reg d])
  | .decR d => (.dec, [.reg d])
  | .bzR d => (.bz, [.reg d])
  | .bzI32 v => (.bz, [.imm32 v])
  | .bnzR d => (.bnz, [.reg d])
  | .bnzI32 v => (.bnz, [.imm32 v])
  | .bnegR d => (.bneg, [.reg d])
  | .bnegI32 v => (.bneg, [.imm32 v])
  | .bposR d => (.bpos, [.reg d])
  | .bposI32 v => (.bpos, [.imm32 v])
  | .bgtR d => (.bgt, [.reg d])
  | .bgtI32 v => (.bgt, [.imm32 v])
  | .bgteR d => (.bgte, [.reg d])
  | .bgteI32 v => (.bgte, [.imm32 v])
  | .bltR d => (.blt, [.reg d])
  | .bltI32 v => (.blt, [.imm32 v])
  | .blteR d => (.blte, [.reg d])
  | .blteI32 v => (.blte, [.imm32 v])
  | .bvR d => (.bv, [.reg d])
  | .bvI32 v => (.bv, [.imm32 v])
  | .bnvR d => (.bnv, [.reg d])
  | .bnvI32 v => (.bnv, [.imm32 v])
  | .jmpR d => (.jmp, [.reg d])
  | .jmpI32 v => (.jmp, [.imm32 v])
  | .callR d => (.call, [.reg d])
  | .callI32 v => (.call, [.imm32 v])
  | .ret => (.ret, [])
  | .iret => (.iret, [])
  | .sret => (.sret, [])
  | .pushR d => (.push, [.reg d])
  | .pushI32 v => (.push, [.imm32 v])
  | .popR d => (.pop, [.reg d])
  | .nop => (.nop, [])

/-- The operands of an instruction, in operand order. -/
def Instr.operands (i : Instr) : List Operand := i.parts.2

/-- The row of an instruction. -/
def Instr.row (i : Instr) : Row := ⟨i.parts.1, i.operands.map Operand.kind⟩

/-- The length of an instruction in bytes, fixed by its row (30_encoding.md R80). -/
def Instr.length (i : Instr) : Nat := i.row.length

/-- An instruction is well-formed under an opcode map that gives its row an opcode. -/
abbrev Instr.wf (m : OpcodeMap) (i : Instr) : Prop := (m.opcodeOf i.row).isSome = true

/-- The instruction of a mnemonic with these operands; none where 30_encoding.md R86 has no such row. -/
def Instr.ofParts (n : Mnemonic) (os : List Operand) : Option Instr :=
  match n with
  | .mov =>
    match os with
    | [.reg d, .reg r] => some (.movRR d r)
    | [.reg d, .imm8 v] => some (.movRI8 d v)
    | [.reg d, .imm16 v] => some (.movRI16 d v)
    | [.reg d, .imm32 v] => some (.movRI32 d v)
    | _ => none
  | .movb =>
    match os with
    | [.reg d, .ind r] => some (.movbRMr d r)
    | [.reg d, .abs q] => some (.movbRMa d q)
    | [.ind d, .reg r] => some (.movbMrR d r)
    | [.ind d, .imm8 v] => some (.movbMrI8 d v)
    | [.ind d, .ind r] => some (.movbMrMr d r)
    | [.ind d, .abs q] => some (.movbMrMa d q)
    | [.abs p, .reg r] => some (.movbMaR p r)
    | [.abs p, .imm8 v] => some (.movbMaI8 p v)
    | [.abs p, .ind r] => some (.movbMaMr p r)
    | [.abs p, .abs q] => some (.movbMaMa p q)
    | _ => none
  | .movw =>
    match os with
    | [.reg d, .ind r] => some (.movwRMr d r)
    | [.reg d, .abs q] => some (.movwRMa d q)
    | [.ind d, .reg r] => some (.movwMrR d r)
    | [.ind d, .imm16 v] => some (.movwMrI16 d v)
    | [.ind d, .ind r] => some (.movwMrMr d r)
    | [.ind d, .abs q] => some (.movwMrMa d q)
    | [.abs p, .reg r] => some (.movwMaR p r)
    | [.abs p, .imm16 v] => some (.movwMaI16 p v)
    | [.abs p, .ind r] => some (.movwMaMr p r)
    | [.abs p, .abs q] => some (.movwMaMa p q)
    | _ => none
  | .movd =>
    match os with
    | [.reg d, .ind r] => some (.movdRMr d r)
    | [.reg d, .abs q] => some (.movdRMa d q)
    | [.ind d, .reg r] => some (.movdMrR d r)
    | [.ind d, .imm32 v] => some (.movdMrI32 d v)
    | [.ind d, .ind r] => some (.movdMrMr d r)
    | [.ind d, .abs q] => some (.movdMrMa d q)
    | [.abs p, .reg r] => some (.movdMaR p r)
    | [.abs p, .imm32 v] => some (.movdMaI32 p v)
    | [.abs p, .ind r] => some (.movdMaMr p r)
    | [.abs p, .abs q] => some (.movdMaMa p q)
    | _ => none
  | .or =>
    match os with
    | [.reg d, .reg r] => some (.orRR d r)
    | [.reg d, .imm8 v] => some (.orRI8 d v)
    | [.reg d, .imm16 v] => some (.orRI16 d v)
    | [.reg d, .imm32 v] => some (.orRI32 d v)
    | _ => none
  | .xor =>
    match os with
    | [.reg d, .reg r] => some (.xorRR d r)
    | [.reg d, .imm8 v] => some (.xorRI8 d v)
    | [.reg d, .imm16 v] => some (.xorRI16 d v)
    | [.reg d, .imm32 v] => some (.xorRI32 d v)
    | _ => none
  | .and =>
    match os with
    | [.reg d, .reg r] => some (.andRR d r)
    | [.reg d, .imm8 v] => some (.andRI8 d v)
    | [.reg d, .imm16 v] => some (.andRI16 d v)
    | [.reg d, .imm32 v] => some (.andRI32 d v)
    | _ => none
  | .shl =>
    match os with
    | [.reg d, .reg r] => some (.shlRR d r)
    | [.reg d, .imm8 v] => some (.shlRI8 d v)
    | _ => none
  | .shr =>
    match os with
    | [.reg d, .reg r] => some (.shrRR d r)
    | [.reg d, .imm8 v] => some (.shrRI8 d v)
    | _ => none
  | .not =>
    match os with
    | [.reg d] => some (.notR d)
    | _ => none
  | .add =>
    match os with
    | [.reg d, .reg r] => some (.addRR d r)
    | [.reg d, .imm8 v] => some (.addRI8 d v)
    | [.reg d, .imm16 v] => some (.addRI16 d v)
    | [.reg d, .imm32 v] => some (.addRI32 d v)
    | _ => none
  | .sub =>
    match os with
    | [.reg d, .reg r] => some (.subRR d r)
    | [.reg d, .imm8 v] => some (.subRI8 d v)
    | [.reg d, .imm16 v] => some (.subRI16 d v)
    | [.reg d, .imm32 v] => some (.subRI32 d v)
    | _ => none
  | .cmp =>
    match os with
    | [.reg d, .reg r] => some (.cmpRR d r)
    | [.reg d, .imm8 v] => some (.cmpRI8 d v)
    | [.reg d, .imm16 v] => some (.cmpRI16 d v)
    | [.reg d, .imm32 v] => some (.cmpRI32 d v)
    | _ => none
  | .mul =>
    match os with
    | [.reg d, .reg r] => some (.mulRR d r)
    | [.reg d, .imm8 v] => some (.mulRI8 d v)
    | [.reg d, .imm16 v] => some (.mulRI16 d v)
    | [.reg d, .imm32 v] => some (.mulRI32 d v)
    | _ => none
  | .idiv =>
    match os with
    | [.reg d, .reg r] => some (.idivRR d r)
    | [.reg d, .imm8 v] => some (.idivRI8 d v)
    | [.reg d, .imm16 v] => some (.idivRI16 d v)
    | [.reg d, .imm32 v] => some (.idivRI32 d v)
    | _ => none
  | .mod =>
    match os with
    | [.reg d, .reg r] => some (.modRR d r)
    | [.reg d, .imm8 v] => some (.modRI8 d v)
    | [.reg d, .imm16 v] => some (.modRI16 d v)
    | [.reg d, .imm32 v] => some (.modRI32 d v)
    | _ => none
  | .inc =>
    match os with
    | [.reg d] => some (.incR d)
    | _ => none
  | .dec =>
    match os with
    | [.reg d] => some (.decR d)
    | _ => none
  | .bz =>
    match os with
    | [.reg d] => some (.bzR d)
    | [.imm32 v] => some (.bzI32 v)
    | _ => none
  | .bnz =>
    match os with
    | [.reg d] => some (.bnzR d)
    | [.imm32 v] => some (.bnzI32 v)
    | _ => none
  | .bneg =>
    match os with
    | [.reg d] => some (.bnegR d)
    | [.imm32 v] => some (.bnegI32 v)
    | _ => none
  | .bpos =>
    match os with
    | [.reg d] => some (.bposR d)
    | [.imm32 v] => some (.bposI32 v)
    | _ => none
  | .bgt =>
    match os with
    | [.reg d] => some (.bgtR d)
    | [.imm32 v] => some (.bgtI32 v)
    | _ => none
  | .bgte =>
    match os with
    | [.reg d] => some (.bgteR d)
    | [.imm32 v] => some (.bgteI32 v)
    | _ => none
  | .blt =>
    match os with
    | [.reg d] => some (.bltR d)
    | [.imm32 v] => some (.bltI32 v)
    | _ => none
  | .blte =>
    match os with
    | [.reg d] => some (.blteR d)
    | [.imm32 v] => some (.blteI32 v)
    | _ => none
  | .bv =>
    match os with
    | [.reg d] => some (.bvR d)
    | [.imm32 v] => some (.bvI32 v)
    | _ => none
  | .bnv =>
    match os with
    | [.reg d] => some (.bnvR d)
    | [.imm32 v] => some (.bnvI32 v)
    | _ => none
  | .jmp =>
    match os with
    | [.reg d] => some (.jmpR d)
    | [.imm32 v] => some (.jmpI32 v)
    | _ => none
  | .call =>
    match os with
    | [.reg d] => some (.callR d)
    | [.imm32 v] => some (.callI32 v)
    | _ => none
  | .ret =>
    match os with
    | [] => some .ret
    | _ => none
  | .iret =>
    match os with
    | [] => some .iret
    | _ => none
  | .sret =>
    match os with
    | [] => some .sret
    | _ => none
  | .push =>
    match os with
    | [.reg d] => some (.pushR d)
    | [.imm32 v] => some (.pushI32 v)
    | _ => none
  | .pop =>
    match os with
    | [.reg d] => some (.popR d)
    | _ => none
  | .nop =>
    match os with
    | [] => some .nop
    | _ => none

/-! ### Decoding -/

/-- What became of an operand's bytes. -/
inductive OperandResult where
  | ok (o : Operand) (rest : List Byte)
  | badRegister (b : Byte)
  | tooShort
deriving DecidableEq, Repr

/-- A register operand byte (30_encoding.md R82): above 15 it names no register. -/
def decodeReg (f : Reg → Operand) : List Byte → OperandResult
  | [] => .tooShort
  | b :: rest =>
    match Reg.ofNumber b.toNat with
    | some r => .ok (f r) rest
    | none => .badRegister b

/-- A 32-bit operand (30_encoding.md R83). -/
def decodeWord (f : Word → Operand) : List Byte → OperandResult
  | b0 :: b1 :: b2 :: b3 :: rest => .ok (f (wordOf b0 b1 b2 b3)) rest
  | _ => .tooShort

/-- One operand of a kind (30_encoding.md R81 to R83). -/
def decodeOperand : OperandKind → List Byte → OperandResult
  | .reg, bs => decodeReg .reg bs
  | .ind, bs => decodeReg .ind bs
  | .imm32, bs => decodeWord .imm32 bs
  | .abs, bs => decodeWord .abs bs
  | .imm8, b :: rest => .ok (.imm8 b) rest
  | .imm8, [] => .tooShort
  | .imm16, b0 :: b1 :: rest => .ok (.imm16 (halfOf b0 b1)) rest
  | .imm16, _ => .tooShort

/-- What became of the operand bytes of an instruction. -/
inductive OperandsResult where
  | ok (os : List Operand) (rest : List Byte)
  | badRegister (b : Byte)
  | tooShort
deriving DecidableEq, Repr

/-- The operands of a row, in operand order; the first register byte above 15 is reported (40_cycle.md R122). -/
def decodeOperands : List OperandKind → List Byte → OperandsResult
  | [], bs => .ok [] bs
  | k :: ks, bs =>
    match decodeOperand k bs with
    | .badRegister b => .badRegister b
    | .tooShort => .tooShort
    | .ok o rest =>
      match decodeOperands ks rest with
      | .ok os rest' => .ok (o :: os) rest'
      | r => r

/-- What the decoder answers: an instruction with the bytes after it, or a rejection by name. -/
inductive DecodeResult where
  | ok (i : Instr) (rest : List Byte)
  /-- The opcode byte is unassigned (30_encoding.md R87). -/
  | invalidOpcode (op : Byte)
  /-- A register operand byte is above 15 (30_encoding.md R82). -/
  | invalidRegister (op b : Byte)
  /-- The bytes end before the instruction does. -/
  | tooShort
deriving DecidableEq, Repr

/-- The instruction of a row from the bytes after the opcode `op`. A row outside 30_encoding.md R86 (only in an
ill-formed opcode map) selects nothing, as an unassigned opcode does. -/
def decodeRow (op : Byte) (r : Row) (bs : List Byte) : DecodeResult :=
  match decodeOperands r.kinds (bs.take (r.length - 1)) with
  | .badRegister b => .invalidRegister op b
  | .tooShort => .tooShort
  | .ok os _ =>
    match Instr.ofParts r.mnemonic os with
    | some i => .ok i (bs.drop (r.length - 1))
    | none => .invalidOpcode op

/-- The decoder (40_cycle.md R120, R122): total on any bytes. The length is found from the opcode alone
(30_encoding.md R88). All the trailing bytes are needed before a register byte is judged. -/
def decode (m : OpcodeMap) : List Byte → DecodeResult
  | [] => .tooShort
  | op :: bs =>
    match m.lookup op with
    | none => .invalidOpcode op
    | some r => if bs.length < r.length - 1 then .tooShort else decodeRow op r bs

/-! ### Encoding -/

/-- The bytes of an instruction: the opcode of its row, then each operand in operand order (30_encoding.md R80,
R94); none where the map has no opcode for the row. -/
def encodeWith (m : OpcodeMap) (i : Instr) : Option (List Byte) :=
  (m.opcodeOf i.row).map (fun op => op :: i.operands.flatMap Operand.bytes)

/-- The bytes of an instruction under the default opcode map, which has an opcode for every row. -/
def encode (i : Instr) : List Byte := (encodeWith defaultOpcodeMap i).getD []

/-! ### The opcode table's numbering of bits -/

/-- The first `n` bytes of an instruction whose bits are `w`: bits 7..0 are the byte at the lowest address, the next
byte counts on from it (30_encoding.md R85). -/
def bytesOfNat : Nat → Nat → List Byte
  | 0, _ => []
  | n + 1, w => BitVec.ofNat 8 w :: bytesOfNat n (w / 256)

/-- The bytes of a table word: `nbits` bits of `w`, every bit above them 0, up to the longest instruction, 9 bytes. -/
def tableBytes (nbits w : Nat) : List Byte := bytesOfNat 9 (w % 2 ^ nbits)

/-- The instruction the decoder reads from a table word. -/
def decodeTableWord (nbits w : Nat) : Option Instr :=
  match decode defaultOpcodeMap (tableBytes nbits w) with
  | .ok i _ => some i
  | _ => none

end Sys2Proof
end

