-- ==== Sys2Proof/Machine/Setup.lean ====
section
/-! DEFINITION. The configuration a fresh model holds: the example values and defaults of 00_scope.md R7
(DESIGN CHOICE, log entries 1, 14 and 21). -/

namespace Sys2Proof

/-- The example configuration of 00_scope.md R7, with no device attached and no stop address. -/
def exampleConfig : Config where
  ramBase := 0x00000000
  ramSize := 0x00010000
  cpuBase := 0xF0000000
  ivtBase := 0x0000FC00
  nIrq := 256
  devices := []
  cmpMode := .signed
  divMode := .unsigned
  opcodes := defaultOpcodeMap
  stopAddr := none
  ramName := ['R', 'A', 'M']
  ramConstants := []
  cpuName := ['C', 'P', 'U']
  cpuConstants := []

end Sys2Proof
end

