-- ==== Sys2Proof/Machine/State.lean ====
section
/-! DEFINITION. The machine's state, everything the spec gives it (10_state.md R20 to R35), the reasons a step can
stop, and the state right after reset. -/

namespace Sys2Proof.Machine

/-- The register file: 16 registers of 32 bits (10_state.md R20, R21). Read and written through `Regs.get` and
`Regs.set` only. -/
structure Regs where
  a  : Word
  b  : Word
  c  : Word
  d  : Word
  e  : Word
  f  : Word
  g  : Word
  h  : Word
  i  : Word
  j  : Word
  k  : Word
  l  : Word
  fp : Word
  sp : Word
  pc : Word
  fl : Word
deriving DecidableEq, Repr

/-- A fatal condition with its info (60_exceptions.md R300 to R304; 10_state.md R31). -/
inductive FaultMark where
  /-- The opcode byte `op` fetched at `pc` is unassigned (60_exceptions.md R301). -/
  | invalidOpcode (pc : Word) (op : Byte)
  /-- The register operand byte `b` is above 15 (60_exceptions.md R302). -/
  | invalidRegister (pc : Word) (op : Byte) (b : Byte)
  /-- `idiv` or `mod` with a divisor of 0 (60_exceptions.md R303). -/
  | divideByZero (pc : Word) (op : Byte)
  /-- A data write to the PC or FL slot, or a stack write to the CPU window (60_exceptions.md R304). -/
  | cpuWindowWrite (pc : Word) (addr : Word)
deriving DecidableEq, Repr

/-- The run mode (10_state.md R32). -/
inductive RunMode where
  | stopped | running
deriving DecidableEq, Repr

/-- The machine's state.
`regs`, `pending` (R30, strictly rising, log entry 15), `fault` (R31), `running` (R32) and `mem` (R34) are the spec's,
10_state.md. `mem` lists the RAM's bytes by bus address (log entry 10), `ram[o]` of 20_memory.md R58 being the byte at
`RAM_BASE + o`. `devices` stands for the opaque devices' own state (R34): what has happened to them, newest first (log
entries 3 and 5). `signalled` holds the lines signalled during the step in progress (log entry 4). `cfg` is the
configuration, which nothing changes (log entry 1). -/
structure State where
  cfg       : Config
  regs      : Regs
  mem       : List Host.Cell
  pending   : List Nat
  signalled : List Nat
  fault     : Option FaultMark
  running   : RunMode
  devices   : List DeviceEvent
deriving DecidableEq, Repr

/-- Why a step stops. -/
inductive Fault where
  /-- Raised by `step` alone, when it is asked to step a core whose fault mark is set: no step is enabled and the
  mark is returned at once (10_state.md R31, 60_exceptions.md R305). Safe: the spec says that nothing changes. -/
  | halted (m : FaultMark)
deriving DecidableEq, Repr

/-- Why a step has no meaning. -/
inductive Refusal where
  /-- Raised by `exec` for an instruction that has no meaning yet. No instruction is left so. Safe. -/
  | notModelled (mnemonic : String)
deriving DecidableEq, Repr

/-- What an instruction or a step answers. -/
abbrev Result := Host.Outcome State Fault Refusal

/-- Every register at its reset value (10_state.md R35). -/
def Regs.zero : Regs := ⟨0, 0, 0, 0, 0, 0, 0, 0, 0, 0, 0, 0, 0, 0, 0, 0⟩

/-- The state right after the first reset of a machine with configuration `c` (10_state.md R35,
70_reset_and_hazards.md R340). The devices' reset state is not the spec's (log entry 5). -/
def State.initial (c : Config) : State where
  cfg := c
  regs := Regs.zero
  mem := []
  pending := []
  signalled := []
  fault := none
  running := .stopped
  devices := [.reset]

/-- The machine right after reset, with the example configuration (log entry 1). -/
def State.reset : State := State.initial exampleConfig

end Sys2Proof.Machine
end

