-- ==== Sys2Proof/Machine/Registers.lean ====
section
/-! DEFINITION. The register file's one read port and one write port (10_state.md R22), and its bytes as the CPU
register window shows them (20_memory.md R59). -/

namespace Sys2Proof.Machine

/-- `read(index)` (10_state.md R22). -/
def Regs.get (x : Regs) : Reg → Word
  | .A => x.a | .B => x.b | .C => x.c | .D => x.d
  | .E => x.e | .F => x.f | .G => x.g | .H => x.h
  | .I => x.i | .J => x.j | .K => x.k | .L => x.l
  | .FP => x.fp | .SP => x.sp | .PC => x.pc | .FL => x.fl

/-- `write(index, u32)` (10_state.md R22). No register is hardwired (R20). -/
def Regs.set (x : Regs) (r : Reg) (v : Word) : Regs :=
  match r with
  | .A => { x with a := v } | .B => { x with b := v } | .C => { x with c := v } | .D => { x with d := v }
  | .E => { x with e := v } | .F => { x with f := v } | .G => { x with g := v } | .H => { x with h := v }
  | .I => { x with i := v } | .J => { x with j := v } | .K => { x with k := v } | .L => { x with l := v }
  | .FP => { x with fp := v } | .SP => { x with sp := v } | .PC => { x with pc := v } | .FL => { x with fl := v }

/-- `x[r]` (00_scope.md R9). -/
def State.reg (s : State) (r : Reg) : Word := s.regs.get r

/-- `x[r] <- v` (00_scope.md R9). -/
def State.setReg (s : State) (r : Reg) (v : Word) : State := { s with regs := s.regs.set r v }

/-- Byte `k` of a word, byte 0 the least significant (20_memory.md R59). -/
def byteOf (v : Word) (k : Nat) : Byte := v.extractLsb' (8 * k) 8

/-- A word with its byte `k` replaced (20_memory.md R61). -/
def replaceByte (v : Word) (k : Nat) (b : Byte) : Word :=
  (v &&& ~~~((0xFF : Word) <<< (8 * k))) ||| (b.setWidth 32 <<< (8 * k))

/-- `cpu.get(o)` (20_memory.md R60): byte `o mod 4` of register `o div 4`. The window has 64 bytes, so an offset in it
always names a register. -/
def State.cpuGet (s : State) (o : Nat) : Byte :=
  match Reg.ofNumber (o / 4) with
  | some r => byteOf (s.reg r) (o % 4)
  | none => 0

/-- `cpu.set(o, b)` (20_memory.md R61), with no check: `checkWrites` guards what an instruction writes. -/
def State.cpuSet (s : State) (o : Nat) (b : Byte) : State :=
  match Reg.ofNumber (o / 4) with
  | some r => s.setReg r (replaceByte (s.reg r) (o % 4) b)
  | none => s

end Sys2Proof.Machine
end

