-- ==== Sys2Proof/Machine/Bus.lean ====
section
/-! DEFINITION. The bus: routing of byte accesses to the RAM, the CPU register window, the attached devices or nothing
(20_memory.md R50 to R62), and the composed accesses `MemRead` and `MemWrite` (R55, R56). -/

namespace Sys2Proof.Machine

/-! ### The RAM's contents -/

/-- What a RAM byte that the list does not hold reads as: 0x00, the reset contents (10_state.md R35, 20_memory.md
R63). -/
def unlistedByte : Byte := 0x00

/-- The byte at an address. -/
def memGet (a : Nat) : List Host.Cell → Byte
  | [] => unlistedByte
  | c :: cs => if c.1 = a then c.2 else memGet a cs

/-- No byte is listed at an address any more. -/
def memErase (a : Nat) (m : List Host.Cell) : List Host.Cell := m.filter (fun c => c.1 != a)

/-- A byte listed at an address that holds none, at its place in the rising order. -/
def memInsert (a : Nat) (b : Byte) : List Host.Cell → List Host.Cell
  | [] => [(a, b)]
  | c :: cs => if a < c.1 then (a, b) :: c :: cs else c :: memInsert a b cs

/-- The byte at an address replaced. The list stays strictly rising, and holds no byte equal to `unlistedByte`. -/
def memSet (a : Nat) (b : Byte) (m : List Host.Cell) : List Host.Cell :=
  if b = unlistedByte then memErase a m else memInsert a b (memErase a m)

/-- The canonical form of the RAM's contents: addresses strictly rising from `lo` on, and no byte equal to what an
unlisted address reads as. -/
def memWfFrom (lo : Nat) : List Host.Cell → Bool
  | [] => true
  | c :: cs => decide (lo ≤ c.1) && decide (c.2 ≠ unlistedByte) && memWfFrom (c.1 + 1) cs

/-- The RAM's contents are in canonical form. -/
def Memory.wf (m : List Host.Cell) : Bool := memWfFrom 0 m

/-! ### Routing -/

/-- What owns an address (20_memory.md R52, R68): the RAM, the CPU window at an offset, an attached device at an
offset, or nothing. -/
inductive Target where
  | ram
  | cpu (offset : Nat)
  | device (dev : Nat) (offset : Nat)
  | unmapped
deriving DecidableEq, Repr

/-- The window holds the address (20_memory.md R53). -/
def inWindow (w : Window) (a : Word) : Bool :=
  decide (w.base.toNat ≤ a.toNat) && decide (a.toNat < w.base.toNat + w.size)

/-- The attached device that owns an address, devices counted from `n`. -/
def routeDevices (a : Word) (n : Nat) : List Device → Target
  | [] => .unmapped
  | d :: ds => if inWindow d.window a then .device n (a.toNat - d.base.toNat) else routeDevices a (n + 1) ds

/-- The owner of an address (20_memory.md R53, R54). The windows are disjoint in a well-formed configuration, so the
order in which they are asked does not matter. -/
def route (c : Config) (a : Word) : Target :=
  if inWindow c.ramWindow a then .ram
  else if inWindow c.cpuWindow a then .cpu (a.toNat - c.cpuBase.toNat)
  else routeDevices a 0 c.devices

/-! ### Byte accesses -/

/-- A line added to a set of lines held strictly rising; a line already there stays there once (60_exceptions.md
R309). -/
def insertLine (i : Nat) : List Nat → List Nat
  | [] => [i]
  | j :: js => if i < j then i :: j :: js else if i = j then j :: js else j :: insertLine i js

/-- Every line of `is` added (60_exceptions.md R309). -/
def insertLines (is : List Nat) (js : List Nat) : List Nat := is.foldr insertLine js

/-- The interrupt line of device number `n`, if it has one (20_memory.md R57). -/
def lineOf (c : Config) (n : Nat) : Option Nat := (c.devices[n]?).bind Device.line

/-- The signalled lines after an access to device number `n`, the newest of the events `h`: a device with a line may
signal it as the effect of the access (60_exceptions.md R310; FREE VALUE, log entry 4). -/
def signalledAfter (c : Config) (n : Nat) (h : List DeviceEvent) (lines : List Nat) : List Nat :=
  match lineOf c n with
  | some i => if Config.deviceSignals h then insertLine i lines else lines
  | none => lines

/-- An access to device number `n` happens: it is recorded (20_memory.md R62), and the device may signal its line. -/
def State.deviceAccess (s : State) (n : Nat) (e : DeviceEvent) : State :=
  { s with devices := e :: s.devices, signalled := signalledAfter s.cfg n (e :: s.devices) s.signalled }

/-- `get(addr)` (20_memory.md R53): the byte and the state after the read. RAM and CPU window reads have no side
effect (R58, R60); an unmapped address reads 0x00; an opaque device answers a free byte (R62, log entry 3). -/
def busGet (a : Word) (s : State) : Byte × State :=
  match route s.cfg a with
  | .ram => (memGet a.toNat s.mem, s)
  | .cpu o => (s.cpuGet o, s)
  | .device n o => (Config.deviceByte (.read n o :: s.devices), s.deviceAccess n (.read n o))
  | .unmapped => (0, s)

/-- `set(addr, b)` (20_memory.md R54): an unmapped write has no effect; a device's write is recorded (R62). -/
def busSet (a : Word) (b : Byte) (s : State) : State :=
  match route s.cfg a with
  | .ram => { s with mem := memSet a.toNat b s.mem }
  | .cpu o => s.cpuSet o b
  | .device n o => s.deviceAccess n (.write n o b)
  | .unmapped => s

/-! ### Composed accesses -/

/-- Bytes read one at a time at ascending addresses modulo 2^32 (20_memory.md R55, `getArray`; 40_cycle.md R122). -/
def busGetArray : Nat → Word → State → List Byte × State
  | 0, _, s => ([], s)
  | n + 1, a, s =>
    let (b, s1) := busGet a s
    let (bs, s2) := busGetArray n (a + 1) s1
    (b :: bs, s2)

/-- Bytes written one at a time at ascending addresses modulo 2^32 (20_memory.md R56, `setArray`). -/
def busSetArray : List Byte → Word → State → State
  | [], _, s => s
  | b :: bs, a, s => busSetArray bs (a + 1) (busSet a b s)

/-- The value of bytes, least significant first (20_memory.md R55). -/
def littleEndian : List Byte → Word
  | [] => 0
  | b :: bs => b.setWidth 32 ||| (littleEndian bs <<< 8)

/-- The low `n` bytes of a word, least significant first (20_memory.md R56). -/
def lowBytes : Nat → Word → List Byte
  | 0, _ => []
  | n + 1, v => v.setWidth 8 :: lowBytes n (v >>> 8)

/-- `MemRead(a, n)` (20_memory.md R55), zero-extended to 32 bits, and the state after the reads. -/
def memRead (a : Word) (n : Nat) (s : State) : Word × State :=
  let (bs, s1) := busGetArray n a s
  (littleEndian bs, s1)

/-- `MemWrite(a, n, v)` (20_memory.md R56). -/
def memWrite (a : Word) (n : Nat) (v : Word) (s : State) : State := busSetArray (lowBytes n v) a s

end Sys2Proof.Machine
end

