-- ==== Sys2Proof/Machine/Flags.lean ====
section
/-! DEFINITION. The flags of FL (10_state.md R26 to R28) and every flag computation (40_cycle.md R130 to R132). -/

namespace Sys2Proof.Machine

/-- The named flags of FL (10_state.md R26). -/
inductive Flag where
  | Y | V | Z | S | GT | LT | P | T
deriving DecidableEq, Repr

/-- A flag's bit in FL (10_state.md R26). -/
def Flag.bit : Flag → Nat
  | .Y => 0 | .V => 1 | .Z => 2 | .S => 3 | .GT => 4 | .LT => 5 | .P => 6 | .T => 7

/-- Bit `n` of a word replaced. -/
def putBit (v : Word) (n : Nat) (b : Bool) : Word :=
  if b then v ||| ((1 : Word) <<< n) else v &&& ~~~((1 : Word) <<< n)

/-- A flag of a value of FL. -/
def flagOf (fl : Word) (f : Flag) : Bool := fl.getLsbD f.bit

/-- A value of FL with one flag replaced; every other bit is kept. -/
def putFlag (fl : Word) (f : Flag) (b : Bool) : Word := putBit fl f.bit b

/-- `FL.<name>` (00_scope.md R9, 10_state.md R28). -/
def State.flag (s : State) (f : Flag) : Bool := flagOf (s.reg .FL) f

/-- `FL.<name> <- b`: no other bit of FL changes. -/
def State.setFlag (s : State) (f : Flag) (b : Bool) : State := s.setReg .FL (putFlag (s.reg .FL) f b)

/-- The number of 1 bits of a byte (00_scope.md R8). -/
def popcount (b : Byte) : Nat := (List.range 8).countP (fun n => b.getLsbD n)

/-- Even parity of the low byte of a result (40_cycle.md R130, R131). -/
def evenParity (r : Word) : Bool := popcount (r.setWidth 8) % 2 == 0

/-- The value of FL after `SetFlags(r, y, v)` (40_cycle.md R130): GT, LT, T and bits 31:8 are kept. -/
def flagsAfter (fl : Word) (r : Word) (y v : Bool) : Word :=
  putFlag (putFlag (putFlag (putFlag (putFlag fl .Y y) .V v) .Z (r == 0)) .S r.msb) .P (evenParity r)

/-- `SetFlags(r, y, v)` (40_cycle.md R130). -/
def State.setFlags (s : State) (r : Word) (y v : Bool) : State := s.setReg .FL (flagsAfter (s.reg .FL) r y v)

/-- `Ycarry` of an exact result (40_cycle.md R132). -/
def carryOut (z : Int) : Bool := decide (z < 0) || decide (2 ^ 32 ≤ z)

/-- `Vover` of an exact result (40_cycle.md R132). -/
def overflows (z : Int) : Bool := decide (z < -(2 ^ 31)) || decide (2 ^ 31 ≤ z)

/-- `u(v)`, the unsigned reading in the integers (00_scope.md R8). -/
def unsignedOf (v : Word) : Int := (v.toNat : Int)

/-- `s32(v)`, the signed reading in the integers (00_scope.md R8). -/
def signedOf (v : Word) : Int := v.toInt

/-- First operand greater, as `CMP_MODE` reads the operands (42_alu.md R189). -/
def greater (mode : Signedness) (a b : Word) : Bool :=
  match mode with
  | .signed => decide (signedOf b < signedOf a)
  | .unsigned => decide (unsignedOf b < unsignedOf a)

/-- First operand less, as `CMP_MODE` reads the operands (42_alu.md R189). -/
def less (mode : Signedness) (a b : Word) : Bool :=
  match mode with
  | .signed => decide (signedOf a < signedOf b)
  | .unsigned => decide (unsignedOf a < unsignedOf b)

end Sys2Proof.Machine
end

