-- ==== Sys2Proof/Machine/Ops.lean ====
section
/-! DEFINITION. The shared operations of a step: raising a fatal condition, `CheckWrites`, the stack, the destinations
and the PC advance (40_cycle.md R124 to R138), interrupt entry and InterruptCheck, and the return from an interrupt
(60_exceptions.md R305, R314 to R319; 43_control.md R244). -/

namespace Sys2Proof.Machine

/-! ### Fatal conditions -/

/-- The code of a fatal condition (60_exceptions.md R300). -/
def FaultMark.code : FaultMark → Nat
  | .invalidOpcode _ _ => 1
  | .invalidRegister _ _ _ => 2
  | .divideByZero _ _ => 3
  | .cpuWindowWrite _ _ => 4

/-- `raise Fatal(kind, info)` (60_exceptions.md R305): the mark is set, the run stops, nothing else of the core changes;
PC is not advanced. The callers raise it before the first write of the phase (40_cycle.md R137). The pending set keeps
its value, and no InterruptCheck follows: what becomes of the lines signalled by accesses of the phase already made, the
spec does not say, and the model drops them (DEDUCED, log entry 4). -/
def State.fatal (s : State) (m : FaultMark) : State :=
  { s with signalled := [], fault := some m, running := .stopped }

/-! ### CheckWrites -/

/-- The address is a byte of the PC or FL slot of the CPU window (20_memory.md R61: offsets 56 to 63). -/
def isPcOrFlByte (c : Config) (a : Word) : Bool :=
  match route c a with
  | .cpu o => decide (56 ≤ o)
  | _ => false

/-- The address is a byte of the CPU window. -/
def isCpuByte (c : Config) (a : Word) : Bool :=
  match route c a with
  | .cpu _ => true
  | _ => false

/-- Some address of `[a, a + n)`, modulo 2^32, satisfies `f`. -/
def rangeTouches (f : Word → Bool) (a : Word) (n : Nat) : Bool :=
  (List.range n).any (fun k => f (a + BitVec.ofNat 32 k))

/-- A data write to `[a, a + n)` is fatal (20_memory.md R61, 40_cycle.md R138). -/
def dataWriteFatal (c : Config) (a : Word) (n : Nat) : Bool := rangeTouches (isPcOrFlByte c) a n

/-- A stack write to `[a, a + n)` is fatal (20_memory.md R61, 40_cycle.md R138). -/
def stackWriteFatal (c : Config) (a : Word) (n : Nat) : Bool := rangeTouches (isCpuByte c) a n

/-! ### The stack -/

/-- `Push32(v)` (40_cycle.md R133): SP is decremented first. The callers have checked the range. -/
def State.push32 (s : State) (v : Word) : State :=
  let s1 := s.setReg .SP (s.reg .SP - 4)
  memWrite (s1.reg .SP) 4 v s1

/-- `Pop32()` (40_cycle.md R134): SP is incremented after the read. -/
def State.pop32 (s : State) : Word × State :=
  let (v, s1) := memRead (s.reg .SP) 4 s
  (v, s1.setReg .SP (s1.reg .SP + 4))

/-! ### Destinations and the PC -/

/-- The PC advance of an instruction of `len` bytes that wrote no PC (40_cycle.md R126). -/
def State.advance (s : State) (len : Nat) : State := s.setReg .PC (s.reg .PC + BitVec.ofNat 32 len)

/-- A control transfer: PC keeps the written value (40_cycle.md R127). -/
def State.jump (s : State) (target : Word) : State := s.setReg .PC target

/-- The end of an instruction with register destination `d` and result `r` that sets flags (42_alu.md R180): a
destination FL takes the whole result and no flag is computed (40_cycle.md R128); a destination PC is a control
transfer (R127) and still sets the flags. -/
def State.writeResult (s : State) (len : Nat) (d : Reg) (r : Word) (y v : Bool) : State :=
  match d with
  | .FL => (s.setReg .FL r).advance len
  | .PC => (s.setReg .PC r).setFlags r y v
  | d => ((s.setReg d r).setFlags r y v).advance len

/-! ### Interrupts -/

/-- The lines signalled during the step join the pending set (60_exceptions.md R309, R310). -/
def State.mergeSignals (s : State) : State :=
  { s with pending := insertLines s.signalled s.pending, signalled := [] }

/-- A line leaves the pending set (60_exceptions.md R316). -/
def State.dropLine (s : State) (i : Nat) : State := { s with pending := s.pending.filter (fun j => j != i) }

/-- The address of the vector of line `i` (60_exceptions.md R318). -/
def vectorAddress (c : Config) (i : Nat) : Word := c.ivtBase + 4 * BitVec.ofNat 32 i

/-- Interrupt entry on line `i` (60_exceptions.md R316): PC, then FL, are pushed, T is cleared, and PC takes the
vector. If the stack range touches the CPU window, the entry is fatal and nothing of it happens. -/
def State.enterInterrupt (s : State) (i : Nat) : State :=
  if stackWriteFatal s.cfg (s.reg .SP - 8) 8 then
    s.fatal (.cpuWindowWrite (s.reg .PC) (s.reg .SP - 8))
  else
    let s1 := (s.dropLine i).push32 (s.reg .PC)
    let s2 := (s1.push32 (s1.reg .FL)).setFlag .T false
    let (target, s3) := memRead (vectorAddress s2.cfg i) 4 s2
    s3.jump target

/-- InterruptCheck (60_exceptions.md R314, R315): with T set, the lowest pending line is entered, one at most. The
lines signalled during the step are pending here (R310). A line signalled by the entry's own accesses is pending from
the end of the step on (log entry 4). -/
def State.interruptCheck (s : State) : State :=
  let s1 := s.mergeSignals
  if s1.flag .T then
    match s1.pending.min? with
    | some i => (s1.enterInterrupt i).mergeSignals
    | none => s1
  else s1

/-- The end of a step after Execute: InterruptCheck does not run after a fatal condition (40_cycle.md R120). -/
def State.finishStep (s : State) : State :=
  match s.fault with
  | none => s.interruptCheck
  | some _ => s

/-- Return from an interrupt (43_control.md R244, 60_exceptions.md R319): FL is popped whole, then PC. -/
def State.returnFromInterrupt (s : State) : State :=
  let (fl, s1) := s.pop32
  let s2 := s1.setReg .FL fl
  let (target, s3) := s2.pop32
  s3.jump target

end Sys2Proof.Machine
end

