-- ==== Sys2Proof/Machine/Operands.lean ====
section
/-! DEFINITION. The operand forms: values and effective addresses (40_cycle.md R123, 30_encoding.md R83, R84), and the
shared frame of the moves into a register and into memory (41_move.md R150 to R156). -/

namespace Sys2Proof.Machine

/-- The effective address of a memory operand (30_encoding.md R84): `[reg]` is the register's value, read when the
instruction executes, `[imm32]` is its own value. An operand of another kind has none. -/
def addressOf (s : State) : Operand → Option Word
  | .ind r => some (s.reg r)
  | .abs p => some p
  | _ => none

/-- `Val(o, w)` for `w` bytes (40_cycle.md R123), and the state after the reads it makes. Immediates are
zero-extended (30_encoding.md R83). PC reads as the address of the current instruction (40_cycle.md R125). -/
def valueOf (o : Operand) (w : Nat) (s : State) : Word × State :=
  match o with
  | .reg r => (s.reg r, s)
  | .imm8 v => (v.setWidth 32, s)
  | .imm16 v => (v.setWidth 32, s)
  | .imm32 v => (v, s)
  | .ind r => memRead (s.reg r) w s
  | .abs p => memRead p w s

/-- The low `w` bytes of a value, zero-extended to 32 bits (41_move.md R150). -/
def lowPart (w : Nat) (v : Word) : Word := (v.setWidth (8 * w)).setWidth 32

/-- A move of `w` bytes into the register `d` by an instruction of `len` bytes (41_move.md R151 to R154, R156): the
source is read whole, zero-extended, written, and sets the flags with Y = V = 0. -/
def moveToReg (len w : Nat) (d : Reg) (src : Operand) (s : State) : State :=
  let (v, s1) := valueOf src w s
  s1.writeResult len d (lowPart w v) false false

/-- A move of `w` bytes to the address `ea`, formed at the start of Execute, by an instruction of `len` bytes
(41_move.md R152 to R155): `CheckWrites` first (40_cycle.md R138), then the whole source is read, then the whole
destination is written, then the flags are set. -/
def moveToMem (len w : Nat) (ea : Word) (src : Operand) (s : State) : State :=
  if dataWriteFatal s.cfg ea w then s.fatal (.cpuWindowWrite (s.reg .PC) ea)
  else
    let (v, s1) := valueOf src w s
    ((memWrite ea w v s1).setFlags (lowPart w v) false false).advance len

end Sys2Proof.Machine
end

