-- ==== Sys2Proof/Machine/Alu.lean ====
section
/-! DEFINITION. The ALU functions `F_op(a, b)` of 42_alu.md R180 to R194, and the shared frames of the ALU
instructions. -/

namespace Sys2Proof.Machine

/-- What an ALU function gives: the result and the flags Y and V (42_alu.md R180). -/
structure AluResult where
  r : Word
  y : Bool
  v : Bool
deriving DecidableEq, Repr

/-- Bitwise OR (42_alu.md R181). -/
def aluOr (a b : Word) : AluResult := ⟨a ||| b, false, false⟩

/-- Bitwise exclusive OR (42_alu.md R182). -/
def aluXor (a b : Word) : AluResult := ⟨a ^^^ b, false, false⟩

/-- Bitwise AND (42_alu.md R183). -/
def aluAnd (a b : Word) : AluResult := ⟨a &&& b, false, false⟩

/-- Logical shift left by the whole 32-bit count, not masked (42_alu.md R184). -/
def aluShl (a b : Word) : AluResult :=
  ⟨if 32 ≤ b.toNat then 0 else BitVec.ofNat 32 (a.toNat * 2 ^ b.toNat), false, false⟩

/-- Logical shift right by the whole 32-bit count (42_alu.md R185). -/
def aluShr (a b : Word) : AluResult :=
  ⟨if 32 ≤ b.toNat then 0 else BitVec.ofNat 32 (a.toNat / 2 ^ b.toNat), false, false⟩

/-- Bitwise complement (42_alu.md R186). -/
def aluNot (a : Word) : AluResult := ⟨0xFFFFFFFF - a, false, false⟩

/-- Addition (42_alu.md R187): Y and V from the exact sums. -/
def aluAdd (a b : Word) : AluResult :=
  ⟨a + b, carryOut (unsignedOf a + unsignedOf b), overflows (signedOf a + signedOf b)⟩

/-- Subtraction (42_alu.md R188): Y is the borrow. -/
def aluSub (a b : Word) : AluResult :=
  ⟨a - b, carryOut (unsignedOf a - unsignedOf b), overflows (signedOf a - signedOf b)⟩

/-- Multiplication, the low 32 bits (42_alu.md R190). -/
def aluMul (a b : Word) : AluResult :=
  ⟨a * b, carryOut (unsignedOf a * unsignedOf b), overflows (signedOf a * signedOf b)⟩

/-- The quotient for a divisor that is not 0, in either `DIV_MODE` (42_alu.md R191). The signed quotient rounds
towards zero. -/
def aluDiv (mode : Signedness) (a b : Word) : AluResult :=
  match mode with
  | .unsigned => ⟨BitVec.ofNat 32 (a.toNat / b.toNat), false, false⟩
  | .signed =>
    let q := Int.tdiv (signedOf a) (signedOf b)
    ⟨BitVec.ofInt 32 q, false, overflows q⟩

/-- The remainder for a divisor that is not 0, in either `DIV_MODE` (42_alu.md R192). The signed remainder has the
sign of the dividend. -/
def aluMod (mode : Signedness) (a b : Word) : AluResult :=
  match mode with
  | .unsigned => ⟨BitVec.ofNat 32 (a.toNat % b.toNat), false, false⟩
  | .signed =>
    let q := Int.tdiv (signedOf a) (signedOf b)
    ⟨BitVec.ofInt 32 (signedOf a - q * signedOf b), false, false⟩

/-- The frame of a two-operand ALU instruction of `len` bytes (42_alu.md R180). -/
def aluTwo (f : Word → Word → AluResult) (len : Nat) (d : Reg) (src : Operand) (s : State) : State :=
  let a := s.reg d
  let (b, s1) := valueOf src 4 s
  let x := f a b
  s1.writeResult len d x.r x.y x.v

/-- The frame of a one-operand ALU instruction, 2 bytes long (42_alu.md R180). -/
def aluOne (f : Word → AluResult) (d : Reg) (s : State) : State :=
  let x := f (s.reg d)
  s.writeResult 2 d x.r x.y x.v

/-- `cmp` (42_alu.md R189): the flags of the subtraction, then GT and LT in `CMP_MODE`. No register but FL is
written, whatever register is compared. -/
def compare (len : Nat) (d : Reg) (src : Operand) (s : State) : State :=
  let a := s.reg d
  let (b, s1) := valueOf src 4 s
  let x := aluSub a b
  let s2 := s1.setFlags x.r x.y x.v
  let s3 := s2.setFlag .GT (greater s.cfg.cmpMode a b)
  (s3.setFlag .LT (less s.cfg.cmpMode a b)).advance len

/-- The opcode byte of the current instruction, for the info of a fatal condition (60_exceptions.md R303; DEDUCED, log
entry 17): the byte the opcode map gives its row. -/
def currentOpcode (c : Config) (n : Mnemonic) (d : Reg) (src : Operand) : Byte :=
  (c.opcodes.opcodeOf ⟨n, [(Operand.reg d).kind, src.kind]⟩).getD 0

/-- `idiv` and `mod` (42_alu.md R191, R192): a divisor of 0 is fatal before anything is written (60_exceptions.md
R303), else the frame of R180. -/
def divide (n : Mnemonic) (f : Signedness → Word → Word → AluResult) (len : Nat) (d : Reg) (src : Operand)
    (s : State) : State :=
  let (b, s1) := valueOf src 4 s
  if b = 0 then s1.fatal (.divideByZero (s.reg .PC) (currentOpcode s.cfg n d src))
  else aluTwo (f s.cfg.divMode) len d src s

end Sys2Proof.Machine
end

