-- ==== Sys2Proof/Machine/Arith.lean ====
section
/-! DEFINITION. The arithmetic family: add, sub, cmp, mul, idiv, mod, inc, dec (42_alu.md R187 to R194). -/

namespace Sys2Proof.Machine

/-- `add reg, reg`, opcode 0x34 (42_alu.md R187). -/
def execAddRR (d : Reg) (r : Reg) (s : State) : Result :=
  .next (aluTwo aluAdd 3 d (.reg r) s)

/-- `add reg, imm8`, opcode 0x35 (42_alu.md R187). -/
def execAddRI8 (d : Reg) (v : Byte) (s : State) : Result :=
  .next (aluTwo aluAdd 3 d (.imm8 v) s)

/-- `add reg, imm16`, opcode 0x36 (42_alu.md R187). -/
def execAddRI16 (d : Reg) (v : Half) (s : State) : Result :=
  .next (aluTwo aluAdd 4 d (.imm16 v) s)

/-- `add reg, imm32`, opcode 0x37 (42_alu.md R187). -/
def execAddRI32 (d : Reg) (v : Word) (s : State) : Result :=
  .next (aluTwo aluAdd 6 d (.imm32 v) s)

/-- `sub reg, reg`, opcode 0x38 (42_alu.md R188). -/
def execSubRR (d : Reg) (r : Reg) (s : State) : Result :=
  .next (aluTwo aluSub 3 d (.reg r) s)

/-- `sub reg, imm8`, opcode 0x39 (42_alu.md R188). -/
def execSubRI8 (d : Reg) (v : Byte) (s : State) : Result :=
  .next (aluTwo aluSub 3 d (.imm8 v) s)

/-- `sub reg, imm16`, opcode 0x3A (42_alu.md R188). -/
def execSubRI16 (d : Reg) (v : Half) (s : State) : Result :=
  .next (aluTwo aluSub 4 d (.imm16 v) s)

/-- `sub reg, imm32`, opcode 0x3B (42_alu.md R188). -/
def execSubRI32 (d : Reg) (v : Word) (s : State) : Result :=
  .next (aluTwo aluSub 6 d (.imm32 v) s)

/-- `cmp reg, reg`, opcode 0x3C (42_alu.md R189). -/
def execCmpRR (d : Reg) (r : Reg) (s : State) : Result :=
  .next (compare 3 d (.reg r) s)

/-- `cmp reg, imm8`, opcode 0x3D (42_alu.md R189). -/
def execCmpRI8 (d : Reg) (v : Byte) (s : State) : Result :=
  .next (compare 3 d (.imm8 v) s)

/-- `cmp reg, imm16`, opcode 0x3E (42_alu.md R189). -/
def execCmpRI16 (d : Reg) (v : Half) (s : State) : Result :=
  .next (compare 4 d (.imm16 v) s)

/-- `cmp reg, imm32`, opcode 0x3F (42_alu.md R189). -/
def execCmpRI32 (d : Reg) (v : Word) (s : State) : Result :=
  .next (compare 6 d (.imm32 v) s)

/-- `mul reg, reg`, opcode 0x40 (42_alu.md R190). -/
def execMulRR (d : Reg) (r : Reg) (s : State) : Result :=
  .next (aluTwo aluMul 3 d (.reg r) s)

/-- `mul reg, imm8`, opcode 0x41 (42_alu.md R190). -/
def execMulRI8 (d : Reg) (v : Byte) (s : State) : Result :=
  .next (aluTwo aluMul 3 d (.imm8 v) s)

/-- `mul reg, imm16`, opcode 0x42 (42_alu.md R190). -/
def execMulRI16 (d : Reg) (v : Half) (s : State) : Result :=
  .next (aluTwo aluMul 4 d (.imm16 v) s)

/-- `mul reg, imm32`, opcode 0x43 (42_alu.md R190). -/
def execMulRI32 (d : Reg) (v : Word) (s : State) : Result :=
  .next (aluTwo aluMul 6 d (.imm32 v) s)

/-- `idiv reg, reg`, opcode 0x44 (42_alu.md R191). -/
def execIdivRR (d : Reg) (r : Reg) (s : State) : Result :=
  .next (divide .idiv aluDiv 3 d (.reg r) s)

/-- `idiv reg, imm8`, opcode 0x45 (42_alu.md R191). -/
def execIdivRI8 (d : Reg) (v : Byte) (s : State) : Result :=
  .next (divide .idiv aluDiv 3 d (.imm8 v) s)

/-- `idiv reg, imm16`, opcode 0x46 (42_alu.md R191). -/
def execIdivRI16 (d : Reg) (v : Half) (s : State) : Result :=
  .next (divide .idiv aluDiv 4 d (.imm16 v) s)

/-- `idiv reg, imm32`, opcode 0x47 (42_alu.md R191). -/
def execIdivRI32 (d : Reg) (v : Word) (s : State) : Result :=
  .next (divide .idiv aluDiv 6 d (.imm32 v) s)

/-- `mod reg, reg`, opcode 0x48 (42_alu.md R192). -/
def execModRR (d : Reg) (r : Reg) (s : State) : Result :=
  .next (divide .mod aluMod 3 d (.reg r) s)

/-- `mod reg, imm8`, opcode 0x49 (42_alu.md R192). -/
def execModRI8 (d : Reg) (v : Byte) (s : State) : Result :=
  .next (divide .mod aluMod 3 d (.imm8 v) s)

/-- `mod reg, imm16`, opcode 0x4A (42_alu.md R192). -/
def execModRI16 (d : Reg) (v : Half) (s : State) : Result :=
  .next (divide .mod aluMod 4 d (.imm16 v) s)

/-- `mod reg, imm32`, opcode 0x4B (42_alu.md R192). -/
def execModRI32 (d : Reg) (v : Word) (s : State) : Result :=
  .next (divide .mod aluMod 6 d (.imm32 v) s)

/-- `inc reg`, opcode 0x4C (42_alu.md R193). -/
def execIncR (d : Reg) (s : State) : Result :=
  .next (aluOne (fun a => aluAdd a 1) d s)

/-- `dec reg`, opcode 0x4D (42_alu.md R194). -/
def execDecR (d : Reg) (s : State) : Result :=
  .next (aluOne (fun a => aluSub a 1) d s)

end Sys2Proof.Machine
end

