-- ==== Sys2Proof/Machine/Transfer.lean ====
section
/-! DEFINITION. The shared frames of the control transfers and of the stack instructions (43_control.md R230, R241 to
R243; 44_stack_misc.md R260, R261). -/

namespace Sys2Proof.Machine

/-- A conditional branch of `len` bytes, taken when the flag has the value `wanted` (43_control.md R230): the target is
absolute, no flag is written. -/
def branch (f : Flag) (wanted : Bool) (len : Nat) (target : Operand) (s : State) : State :=
  let (t, s1) := valueOf target 4 s
  if s1.flag f = wanted then s1.jump t else s1.advance len

/-- `jmp` (43_control.md R241). -/
def jumpTo (target : Operand) (s : State) : State :=
  let (t, s1) := valueOf target 4 s
  s1.jump t

/-- `call` by an instruction of `len` bytes (43_control.md R242): CheckWrites first, the target is read before SP
changes, the address of the next instruction is pushed. -/
def callTo (len : Nat) (target : Operand) (s : State) : State :=
  if stackWriteFatal s.cfg (s.reg .SP - 4) 4 then s.fatal (.cpuWindowWrite (s.reg .PC) (s.reg .SP - 4))
  else
    let (t, s1) := valueOf target 4 s
    (s1.push32 (s1.reg .PC + BitVec.ofNat 32 len)).jump t

/-- `ret` (43_control.md R243). -/
def returnFromCall (s : State) : State :=
  let (t, s1) := s.pop32
  s1.jump t

/-- `push` by an instruction of `len` bytes (44_stack_misc.md R260): CheckWrites first, the value is read before SP
changes. -/
def pushValue (len : Nat) (src : Operand) (s : State) : State :=
  if stackWriteFatal s.cfg (s.reg .SP - 4) 4 then s.fatal (.cpuWindowWrite (s.reg .PC) (s.reg .SP - 4))
  else
    let (v, s1) := valueOf src 4 s
    (s1.push32 v).advance len

/-- `pop d`, 2 bytes long (44_stack_misc.md R261): the register is written after the increment of SP; PC as the
destination is a control transfer (40_cycle.md R127), FL takes the whole value (R128). -/
def popInto (d : Reg) (s : State) : State :=
  let (v, s1) := s.pop32
  match d with
  | .PC => s1.jump v
  | d => (s1.setReg d v).advance 2

end Sys2Proof.Machine
end

