-- ==== Sys2Proof/Machine/Control.lean ====
section
/-! DEFINITION. The control transfers: the conditional branches, jmp, call, ret, iret, sret (43_control.md R230 to R245). -/

namespace Sys2Proof.Machine

/-- `bz reg`, opcode 0x4E (43_control.md R231). -/
def execBzR (d : Reg) (s : State) : Result :=
  .next (branch .Z true 2 (.reg d) s)

/-- `bz imm32`, opcode 0x4F (43_control.md R231). -/
def execBzI32 (v : Word) (s : State) : Result :=
  .next (branch .Z true 5 (.imm32 v) s)

/-- `bnz reg`, opcode 0x50 (43_control.md R232). -/
def execBnzR (d : Reg) (s : State) : Result :=
  .next (branch .Z false 2 (.reg d) s)

/-- `bnz imm32`, opcode 0x51 (43_control.md R232). -/
def execBnzI32 (v : Word) (s : State) : Result :=
  .next (branch .Z false 5 (.imm32 v) s)

/-- `bneg reg`, opcode 0x52 (43_control.md R233). -/
def execBnegR (d : Reg) (s : State) : Result :=
  .next (branch .S true 2 (.reg d) s)

/-- `bneg imm32`, opcode 0x53 (43_control.md R233). -/
def execBnegI32 (v : Word) (s : State) : Result :=
  .next (branch .S true 5 (.imm32 v) s)

/-- `bpos reg`, opcode 0x54 (43_control.md R234). -/
def execBposR (d : Reg) (s : State) : Result :=
  .next (branch .S false 2 (.reg d) s)

/-- `bpos imm32`, opcode 0x55 (43_control.md R234). -/
def execBposI32 (v : Word) (s : State) : Result :=
  .next (branch .S false 5 (.imm32 v) s)

/-- `bgt reg`, opcode 0x56 (43_control.md R235). -/
def execBgtR (d : Reg) (s : State) : Result :=
  .next (branch .GT true 2 (.reg d) s)

/-- `bgt imm32`, opcode 0x57 (43_control.md R235). -/
def execBgtI32 (v : Word) (s : State) : Result :=
  .next (branch .GT true 5 (.imm32 v) s)

/-- `bgte reg`, opcode 0x58 (43_control.md R236). -/
def execBgteR (d : Reg) (s : State) : Result :=
  .next (branch .LT false 2 (.reg d) s)

/-- `bgte imm32`, opcode 0x59 (43_control.md R236). -/
def execBgteI32 (v : Word) (s : State) : Result :=
  .next (branch .LT false 5 (.imm32 v) s)

/-- `blt reg`, opcode 0x5A (43_control.md R237). -/
def execBltR (d : Reg) (s : State) : Result :=
  .next (branch .LT true 2 (.reg d) s)

/-- `blt imm32`, opcode 0x5B (43_control.md R237). -/
def execBltI32 (v : Word) (s : State) : Result :=
  .next (branch .LT true 5 (.imm32 v) s)

/-- `blte reg`, opcode 0x5C (43_control.md R238). -/
def execBlteR (d : Reg) (s : State) : Result :=
  .next (branch .GT false 2 (.reg d) s)

/-- `blte imm32`, opcode 0x5D (43_control.md R238). -/
def execBlteI32 (v : Word) (s : State) : Result :=
  .next (branch .GT false 5 (.imm32 v) s)

/-- `bv reg`, opcode 0x5E (43_control.md R239). -/
def execBvR (d : Reg) (s : State) : Result :=
  .next (branch .V true 2 (.reg d) s)

/-- `bv imm32`, opcode 0x5F (43_control.md R239). -/
def execBvI32 (v : Word) (s : State) : Result :=
  .next (branch .V true 5 (.imm32 v) s)

/-- `bnv reg`, opcode 0x60 (43_control.md R240). -/
def execBnvR (d : Reg) (s : State) : Result :=
  .next (branch .V false 2 (.reg d) s)

/-- `bnv imm32`, opcode 0x61 (43_control.md R240). -/
def execBnvI32 (v : Word) (s : State) : Result :=
  .next (branch .V false 5 (.imm32 v) s)

/-- `jmp reg`, opcode 0x62 (43_control.md R241). -/
def execJmpR (d : Reg) (s : State) : Result :=
  .next (jumpTo (.reg d) s)

/-- `jmp imm32`, opcode 0x63 (43_control.md R241). -/
def execJmpI32 (v : Word) (s : State) : Result :=
  .next (jumpTo (.imm32 v) s)

/-- `call reg`, opcode 0x64 (43_control.md R242). -/
def execCallR (d : Reg) (s : State) : Result :=
  .next (callTo 2 (.reg d) s)

/-- `call imm32`, opcode 0x65 (43_control.md R242). -/
def execCallI32 (v : Word) (s : State) : Result :=
  .next (callTo 5 (.imm32 v) s)

/-- `ret`, opcode 0x66 (43_control.md R243). -/
def execRet (s : State) : Result :=
  .next (returnFromCall s)

/-- `iret`, opcode 0x67 (43_control.md R244). -/
def execIret (s : State) : Result :=
  .next s.returnFromInterrupt

/-- `sret`, opcode 0x68 (43_control.md R245). -/
def execSret (s : State) : Result :=
  .next s.returnFromInterrupt

end Sys2Proof.Machine
end

