-- ==== Sys2Proof/Machine/Logic.lean ====
section
/-! DEFINITION. The logic and shift family: or, xor, and, shl, shr, not (42_alu.md R181 to R186). -/

namespace Sys2Proof.Machine

/-- `or reg, reg`, opcode 0x23 (42_alu.md R181). -/
def execOrRR (d : Reg) (r : Reg) (s : State) : Result :=
  .next (aluTwo aluOr 3 d (.reg r) s)

/-- `or reg, imm8`, opcode 0x24 (42_alu.md R181). -/
def execOrRI8 (d : Reg) (v : Byte) (s : State) : Result :=
  .next (aluTwo aluOr 3 d (.imm8 v) s)

/-- `or reg, imm16`, opcode 0x25 (42_alu.md R181). -/
def execOrRI16 (d : Reg) (v : Half) (s : State) : Result :=
  .next (aluTwo aluOr 4 d (.imm16 v) s)

/-- `or reg, imm32`, opcode 0x26 (42_alu.md R181). -/
def execOrRI32 (d : Reg) (v : Word) (s : State) : Result :=
  .next (aluTwo aluOr 6 d (.imm32 v) s)

/-- `xor reg, reg`, opcode 0x27 (42_alu.md R182). -/
def execXorRR (d : Reg) (r : Reg) (s : State) : Result :=
  .next (aluTwo aluXor 3 d (.reg r) s)

/-- `xor reg, imm8`, opcode 0x28 (42_alu.md R182). -/
def execXorRI8 (d : Reg) (v : Byte) (s : State) : Result :=
  .next (aluTwo aluXor 3 d (.imm8 v) s)

/-- `xor reg, imm16`, opcode 0x29 (42_alu.md R182). -/
def execXorRI16 (d : Reg) (v : Half) (s : State) : Result :=
  .next (aluTwo aluXor 4 d (.imm16 v) s)

/-- `xor reg, imm32`, opcode 0x2A (42_alu.md R182). -/
def execXorRI32 (d : Reg) (v : Word) (s : State) : Result :=
  .next (aluTwo aluXor 6 d (.imm32 v) s)

/-- `and reg, reg`, opcode 0x2B (42_alu.md R183). -/
def execAndRR (d : Reg) (r : Reg) (s : State) : Result :=
  .next (aluTwo aluAnd 3 d (.reg r) s)

/-- `and reg, imm8`, opcode 0x2C (42_alu.md R183). -/
def execAndRI8 (d : Reg) (v : Byte) (s : State) : Result :=
  .next (aluTwo aluAnd 3 d (.imm8 v) s)

/-- `and reg, imm16`, opcode 0x2D (42_alu.md R183). -/
def execAndRI16 (d : Reg) (v : Half) (s : State) : Result :=
  .next (aluTwo aluAnd 4 d (.imm16 v) s)

/-- `and reg, imm32`, opcode 0x2E (42_alu.md R183). -/
def execAndRI32 (d : Reg) (v : Word) (s : State) : Result :=
  .next (aluTwo aluAnd 6 d (.imm32 v) s)

/-- `shl reg, reg`, opcode 0x2F (42_alu.md R184). -/
def execShlRR (d : Reg) (r : Reg) (s : State) : Result :=
  .next (aluTwo aluShl 3 d (.reg r) s)

/-- `shl reg, imm8`, opcode 0x30 (42_alu.md R184). -/
def execShlRI8 (d : Reg) (v : Byte) (s : State) : Result :=
  .next (aluTwo aluShl 3 d (.imm8 v) s)

/-- `shr reg, reg`, opcode 0x31 (42_alu.md R185). -/
def execShrRR (d : Reg) (r : Reg) (s : State) : Result :=
  .next (aluTwo aluShr 3 d (.reg r) s)

/-- `shr reg, imm8`, opcode 0x32 (42_alu.md R185). -/
def execShrRI8 (d : Reg) (v : Byte) (s : State) : Result :=
  .next (aluTwo aluShr 3 d (.imm8 v) s)

/-- `not reg`, opcode 0x33 (42_alu.md R186). -/
def execNotR (d : Reg) (s : State) : Result :=
  .next (aluOne aluNot d s)

end Sys2Proof.Machine
end

