-- ==== Sys2Proof/Machine/Move.lean ====
section
/-! DEFINITION. The move family: mov, movb, movw, movd (41_move.md R150 to R156). -/

namespace Sys2Proof.Machine

/-- `mov reg, reg`, opcode 0x01 (41_move.md R151). -/
def execMovRR (d : Reg) (r : Reg) (s : State) : Result :=
  .next (moveToReg 3 4 d (.reg r) s)

/-- `mov reg, imm8`, opcode 0x02 (41_move.md R151). -/
def execMovRI8 (d : Reg) (v : Byte) (s : State) : Result :=
  .next (moveToReg 3 4 d (.imm8 v) s)

/-- `mov reg, imm16`, opcode 0x03 (41_move.md R151). -/
def execMovRI16 (d : Reg) (v : Half) (s : State) : Result :=
  .next (moveToReg 4 4 d (.imm16 v) s)

/-- `mov reg, imm32`, opcode 0x04 (41_move.md R151). -/
def execMovRI32 (d : Reg) (v : Word) (s : State) : Result :=
  .next (moveToReg 6 4 d (.imm32 v) s)

/-- `movb reg, [reg]`, opcode 0x05 (41_move.md R152). -/
def execMovbRMr (d : Reg) (r : Reg) (s : State) : Result :=
  .next (moveToReg 3 1 d (.ind r) s)

/-- `movb reg, [imm32]`, opcode 0x06 (41_move.md R152). -/
def execMovbRMa (d : Reg) (q : Word) (s : State) : Result :=
  .next (moveToReg 6 1 d (.abs q) s)

/-- `movb [reg], reg`, opcode 0x07 (41_move.md R152). -/
def execMovbMrR (d : Reg) (r : Reg) (s : State) : Result :=
  .next (moveToMem 3 1 (s.reg d) (.reg r) s)

/-- `movb [reg], imm8`, opcode 0x08 (41_move.md R152). -/
def execMovbMrI8 (d : Reg) (v : Byte) (s : State) : Result :=
  .next (moveToMem 3 1 (s.reg d) (.imm8 v) s)

/-- `movb [reg], [reg]`, opcode 0x09 (41_move.md R152). -/
def execMovbMrMr (d : Reg) (r : Reg) (s : State) : Result :=
  .next (moveToMem 3 1 (s.reg d) (.ind r) s)

/-- `movb [reg], [imm32]`, opcode 0x0A (41_move.md R152). -/
def execMovbMrMa (d : Reg) (q : Word) (s : State) : Result :=
  .next (moveToMem 6 1 (s.reg d) (.abs q) s)

/-- `movb [imm32], reg`, opcode 0x0B (41_move.md R152). -/
def execMovbMaR (p : Word) (r : Reg) (s : State) : Result :=
  .next (moveToMem 6 1 p (.reg r) s)

/-- `movb [imm32], imm8`, opcode 0x0C (41_move.md R152). -/
def execMovbMaI8 (p : Word) (v : Byte) (s : State) : Result :=
  .next (moveToMem 6 1 p (.imm8 v) s)

/-- `movb [imm32], [reg]`, opcode 0x0D (41_move.md R152). -/
def execMovbMaMr (p : Word) (r : Reg) (s : State) : Result :=
  .next (moveToMem 6 1 p (.ind r) s)

/-- `movb [imm32], [imm32]`, opcode 0x0E (41_move.md R152). -/
def execMovbMaMa (p : Word) (q : Word) (s : State) : Result :=
  .next (moveToMem 9 1 p (.abs q) s)

/-- `movw reg, [reg]`, opcode 0x0F (41_move.md R153). -/
def execMovwRMr (d : Reg) (r : Reg) (s : State) : Result :=
  .next (moveToReg 3 2 d (.ind r) s)

/-- `movw reg, [imm32]`, opcode 0x10 (41_move.md R153). -/
def execMovwRMa (d : Reg) (q : Word) (s : State) : Result :=
  .next (moveToReg 6 2 d (.abs q) s)

/-- `movw [reg], reg`, opcode 0x11 (41_move.md R153). -/
def execMovwMrR (d : Reg) (r : Reg) (s : State) : Result :=
  .next (moveToMem 3 2 (s.reg d) (.reg r) s)

/-- `movw [reg], imm16`, opcode 0x12 (41_move.md R153). -/
def execMovwMrI16 (d : Reg) (v : Half) (s : State) : Result :=
  .next (moveToMem 4 2 (s.reg d) (.imm16 v) s)

/-- `movw [reg], [reg]`, opcode 0x13 (41_move.md R153). -/
def execMovwMrMr (d : Reg) (r : Reg) (s : State) : Result :=
  .next (moveToMem 3 2 (s.reg d) (.ind r) s)

/-- `movw [reg], [imm32]`, opcode 0x14 (41_move.md R153). -/
def execMovwMrMa (d : Reg) (q : Word) (s : State) : Result :=
  .next (moveToMem 6 2 (s.reg d) (.abs q) s)

/-- `movw [imm32], reg`, opcode 0x15 (41_move.md R153). -/
def execMovwMaR (p : Word) (r : Reg) (s : State) : Result :=
  .next (moveToMem 6 2 p (.reg r) s)

/-- `movw [imm32], imm16`, opcode 0x16 (41_move.md R153). -/
def execMovwMaI16 (p : Word) (v : Half) (s : State) : Result :=
  .next (moveToMem 7 2 p (.imm16 v) s)

/-- `movw [imm32], [reg]`, opcode 0x17 (41_move.md R153). -/
def execMovwMaMr (p : Word) (r : Reg) (s : State) : Result :=
  .next (moveToMem 6 2 p (.ind r) s)

/-- `movw [imm32], [imm32]`, opcode 0x18 (41_move.md R153). -/
def execMovwMaMa (p : Word) (q : Word) (s : State) : Result :=
  .next (moveToMem 9 2 p (.abs q) s)

/-- `movd reg, [reg]`, opcode 0x19 (41_move.md R154). -/
def execMovdRMr (d : Reg) (r : Reg) (s : State) : Result :=
  .next (moveToReg 3 4 d (.ind r) s)

/-- `movd reg, [imm32]`, opcode 0x1A (41_move.md R154). -/
def execMovdRMa (d : Reg) (q : Word) (s : State) : Result :=
  .next (moveToReg 6 4 d (.abs q) s)

/-- `movd [reg], reg`, opcode 0x1B (41_move.md R154). -/
def execMovdMrR (d : Reg) (r : Reg) (s : State) : Result :=
  .next (moveToMem 3 4 (s.reg d) (.reg r) s)

/-- `movd [reg], imm32`, opcode 0x1C (41_move.md R154). -/
def execMovdMrI32 (d : Reg) (v : Word) (s : State) : Result :=
  .next (moveToMem 6 4 (s.reg d) (.imm32 v) s)

/-- `movd [reg], [reg]`, opcode 0x1D (41_move.md R154). -/
def execMovdMrMr (d : Reg) (r : Reg) (s : State) : Result :=
  .next (moveToMem 3 4 (s.reg d) (.ind r) s)

/-- `movd [reg], [imm32]`, opcode 0x1E (41_move.md R154). -/
def execMovdMrMa (d : Reg) (q : Word) (s : State) : Result :=
  .next (moveToMem 6 4 (s.reg d) (.abs q) s)

/-- `movd [imm32], reg`, opcode 0x1F (41_move.md R154). -/
def execMovdMaR (p : Word) (r : Reg) (s : State) : Result :=
  .next (moveToMem 6 4 p (.reg r) s)

/-- `movd [imm32], imm32`, opcode 0x20 (41_move.md R154). -/
def execMovdMaI32 (p : Word) (v : Word) (s : State) : Result :=
  .next (moveToMem 9 4 p (.imm32 v) s)

/-- `movd [imm32], [reg]`, opcode 0x21 (41_move.md R154). -/
def execMovdMaMr (p : Word) (r : Reg) (s : State) : Result :=
  .next (moveToMem 6 4 p (.ind r) s)

/-- `movd [imm32], [imm32]`, opcode 0x22 (41_move.md R154). -/
def execMovdMaMa (p : Word) (q : Word) (s : State) : Result :=
  .next (moveToMem 9 4 p (.abs q) s)

end Sys2Proof.Machine
end

