-- ==== Sys2Proof/Machine/Stack.lean ====
section
/-! DEFINITION. The stack instructions and nop (44_stack_misc.md R260 to R262). -/

namespace Sys2Proof.Machine

/-- `push reg`, opcode 0x69 (44_stack_misc.md R260). -/
def execPushR (d : Reg) (s : State) : Result :=
  .next (pushValue 2 (.reg d) s)

/-- `push imm32`, opcode 0x6A (44_stack_misc.md R260). -/
def execPushI32 (v : Word) (s : State) : Result :=
  .next (pushValue 5 (.imm32 v) s)

/-- `pop reg`, opcode 0x6B (44_stack_misc.md R261). -/
def execPopR (d : Reg) (s : State) : Result :=
  .next (popInto d s)

/-- `nop`, opcode 0x6C (44_stack_misc.md R262). -/
def execNop (s : State) : Result :=
  .next (s.advance 1)

end Sys2Proof.Machine
end

