-- ==== Sys2Proof/Machine/Dispatch.lean ====
section
/-! DEFINITION. The dispatch: one arm per constructor of Instr. `exec` is the Execute phase of a step (40_cycle.md
R120): CheckWrites, the rule of the row, and the PC advance. -/

namespace Sys2Proof.Machine

-- One direct call of a meaning per constructor.
def exec (i : Instr) (s : State) : Host.Outcome State Fault Refusal :=
  match i with
  | .movRR d r => Sys2Proof.Machine.execMovRR d r s
  | .movRI8 d v => Sys2Proof.Machine.execMovRI8 d v s
  | .movRI16 d v => Sys2Proof.Machine.execMovRI16 d v s
  | .movRI32 d v => Sys2Proof.Machine.execMovRI32 d v s
  | .movbRMr d r => Sys2Proof.Machine.execMovbRMr d r s
  | .movbRMa d q => Sys2Proof.Machine.execMovbRMa d q s
  | .movbMrR d r => Sys2Proof.Machine.execMovbMrR d r s
  | .movbMrI8 d v => Sys2Proof.Machine.execMovbMrI8 d v s
  | .movbMrMr d r => Sys2Proof.Machine.execMovbMrMr d r s
  | .movbMrMa d q => Sys2Proof.Machine.execMovbMrMa d q s
  | .movbMaR p r => Sys2Proof.Machine.execMovbMaR p r s
  | .movbMaI8 p v => Sys2Proof.Machine.execMovbMaI8 p v s
  | .movbMaMr p r => Sys2Proof.Machine.execMovbMaMr p r s
  | .movbMaMa p q => Sys2Proof.Machine.execMovbMaMa p q s
  | .movwRMr d r => Sys2Proof.Machine.execMovwRMr d r s
  | .movwRMa d q => Sys2Proof.Machine.execMovwRMa d q s
  | .movwMrR d r => Sys2Proof.Machine.execMovwMrR d r s
  | .movwMrI16 d v => Sys2Proof.Machine.execMovwMrI16 d v s
  | .movwMrMr d r => Sys2Proof.Machine.execMovwMrMr d r s
  | .movwMrMa d q => Sys2Proof.Machine.execMovwMrMa d q s
  | .movwMaR p r => Sys2Proof.Machine.execMovwMaR p r s
  | .movwMaI16 p v => Sys2Proof.Machine.execMovwMaI16 p v s
  | .movwMaMr p r => Sys2Proof.Machine.execMovwMaMr p r s
  | .movwMaMa p q => Sys2Proof.Machine.execMovwMaMa p q s
  | .movdRMr d r => Sys2Proof.Machine.execMovdRMr d r s
  | .movdRMa d q => Sys2Proof.Machine.execMovdRMa d q s
  | .movdMrR d r => Sys2Proof.Machine.execMovdMrR d r s
  | .movdMrI32 d v => Sys2Proof.Machine.execMovdMrI32 d v s
  | .movdMrMr d r => Sys2Proof.Machine.execMovdMrMr d r s
  | .movdMrMa d q => Sys2Proof.Machine.execMovdMrMa d q s
  | .movdMaR p r => Sys2Proof.Machine.execMovdMaR p r s
  | .movdMaI32 p v => Sys2Proof.Machine.execMovdMaI32 p v s
  | .movdMaMr p r => Sys2Proof.Machine.execMovdMaMr p r s
  | .movdMaMa p q => Sys2Proof.Machine.execMovdMaMa p q s
  | .orRR d r => Sys2Proof.Machine.execOrRR d r s
  | .orRI8 d v => Sys2Proof.Machine.execOrRI8 d v s
  | .orRI16 d v => Sys2Proof.Machine.execOrRI16 d v s
  | .orRI32 d v => Sys2Proof.Machine.execOrRI32 d v s
  | .xorRR d r => Sys2Proof.Machine.execXorRR d r s
  | .xorRI8 d v => Sys2Proof.Machine.execXorRI8 d v s
  | .xorRI16 d v => Sys2Proof.Machine.execXorRI16 d v s
  | .xorRI32 d v => Sys2Proof.Machine.execXorRI32 d v s
  | .andRR d r => Sys2Proof.Machine.execAndRR d r s
  | .andRI8 d v => Sys2Proof.Machine.execAndRI8 d v s
  | .andRI16 d v => Sys2Proof.Machine.execAndRI16 d v s
  | .andRI32 d v => Sys2Proof.Machine.execAndRI32 d v s
  | .shlRR d r => Sys2Proof.Machine.execShlRR d r s
  | .shlRI8 d v => Sys2Proof.Machine.execShlRI8 d v s
  | .shrRR d r => Sys2Proof.Machine.execShrRR d r s
  | .shrRI8 d v => Sys2Proof.Machine.execShrRI8 d v s
  | .notR d => Sys2Proof.Machine.execNotR d s
  | .addRR d r => Sys2Proof.Machine.execAddRR d r s
  | .addRI8 d v => Sys2Proof.Machine.execAddRI8 d v s
  | .addRI16 d v => Sys2Proof.Machine.execAddRI16 d v s
  | .addRI32 d v => Sys2Proof.Machine.execAddRI32 d v s
  | .subRR d r => Sys2Proof.Machine.execSubRR d r s
  | .subRI8 d v => Sys2Proof.Machine.execSubRI8 d v s
  | .subRI16 d v => Sys2Proof.Machine.execSubRI16 d v s
  | .subRI32 d v => Sys2Proof.Machine.execSubRI32 d v s
  | .cmpRR d r => Sys2Proof.Machine.execCmpRR d r s
  | .cmpRI8 d v => Sys2Proof.Machine.execCmpRI8 d v s
  | .cmpRI16 d v => Sys2Proof.Machine.execCmpRI16 d v s
  | .cmpRI32 d v => Sys2Proof.Machine.execCmpRI32 d v s
  | .mulRR d r => Sys2Proof.Machine.execMulRR d r s
  | .mulRI8 d v => Sys2Proof.Machine.execMulRI8 d v s
  | .mulRI16 d v => Sys2Proof.Machine.execMulRI16 d v s
  | .mulRI32 d v => Sys2Proof.Machine.execMulRI32 d v s
  | .idivRR d r => Sys2Proof.Machine.execIdivRR d r s
  | .idivRI8 d v => Sys2Proof.Machine.execIdivRI8 d v s
  | .idivRI16 d v => Sys2Proof.Machine.execIdivRI16 d v s
  | .idivRI32 d v => Sys2Proof.Machine.execIdivRI32 d v s
  | .modRR d r => Sys2Proof.Machine.execModRR d r s
  | .modRI8 d v => Sys2Proof.Machine.execModRI8 d v s
  | .modRI16 d v => Sys2Proof.Machine.execModRI16 d v s
  | .modRI32 d v => Sys2Proof.Machine.execModRI32 d v s
  | .incR d => Sys2Proof.Machine.execIncR d s
  | .decR d => Sys2Proof.Machine.execDecR d s
  | .bzR d => Sys2Proof.Machine.execBzR d s
  | .bzI32 v => Sys2Proof.Machine.execBzI32 v s
  | .bnzR d => Sys2Proof.Machine.execBnzR d s
  | .bnzI32 v => Sys2Proof.Machine.execBnzI32 v s
  | .bnegR d => Sys2Proof.Machine.execBnegR d s
  | .bnegI32 v => Sys2Proof.Machine.execBnegI32 v s
  | .bposR d => Sys2Proof.Machine.execBposR d s
  | .bposI32 v => Sys2Proof.Machine.execBposI32 v s
  | .bgtR d => Sys2Proof.Machine.execBgtR d s
  | .bgtI32 v => Sys2Proof.Machine.execBgtI32 v s
  | .bgteR d => Sys2Proof.Machine.execBgteR d s
  | .bgteI32 v => Sys2Proof.Machine.execBgteI32 v s
  | .bltR d => Sys2Proof.Machine.execBltR d s
  | .bltI32 v => Sys2Proof.Machine.execBltI32 v s
  | .blteR d => Sys2Proof.Machine.execBlteR d s
  | .blteI32 v => Sys2Proof.Machine.execBlteI32 v s
  | .bvR d => Sys2Proof.Machine.execBvR d s
  | .bvI32 v => Sys2Proof.Machine.execBvI32 v s
  | .bnvR d => Sys2Proof.Machine.execBnvR d s
  | .bnvI32 v => Sys2Proof.Machine.execBnvI32 v s
  | .jmpR d => Sys2Proof.Machine.execJmpR d s
  | .jmpI32 v => Sys2Proof.Machine.execJmpI32 v s
  | .callR d => Sys2Proof.Machine.execCallR d s
  | .callI32 v => Sys2Proof.Machine.execCallI32 v s
  | .ret => Sys2Proof.Machine.execRet s
  | .iret => Sys2Proof.Machine.execIret s
  | .sret => Sys2Proof.Machine.execSret s
  | .pushR d => Sys2Proof.Machine.execPushR d s
  | .pushI32 v => Sys2Proof.Machine.execPushI32 v s
  | .popR d => Sys2Proof.Machine.execPopR d s
  | .nop => Sys2Proof.Machine.execNop s

end Sys2Proof.Machine
end

