-- ==== Sys2Proof/Machine/Fetch.lean ====
section
/-! DEFINITION. Fetch and Decode (40_cycle.md R120 to R122), and the placing of an instruction in the RAM. -/

namespace Sys2Proof.Machine

/-- What Fetch and Decode give: an instruction, or a fatal condition, with the state after the bytes read. -/
inductive Fetched where
  | instr (i : Instr) (s : State)
  | fatal (m : FaultMark) (s : State)
deriving DecidableEq, Repr

/-- Fetch and Decode (40_cycle.md R120 to R122): the opcode byte is read at PC; if it is assigned, the trailing bytes
are read in ascending order; then the register bytes are judged. Each instruction byte is read once. -/
def fetchDecode (s : State) : Fetched :=
  let pc0 := s.reg .PC
  let (op, s1) := busGet pc0 s
  match s.cfg.opcodes.lookup op with
  | none => .fatal (.invalidOpcode pc0 op) s1
  | some row =>
    let (bs, s2) := busGetArray (row.length - 1) (pc0 + 1) s1
    match decodeRow op row bs with
    | .ok i _ => .instr i s2
    | .invalidRegister op b => .fatal (.invalidRegister pc0 op b) s2
    | .invalidOpcode op => .fatal (.invalidOpcode pc0 op) s2
    | .tooShort => .fatal (.invalidOpcode pc0 op) s2

/-- Bytes placed in the RAM from an address on, as the host loads a program (70_reset_and_hazards.md R341). A byte
whose address is not in the RAM window is not placed. -/
def placeBytes : List Byte → Word → State → State
  | [], _, s => s
  | b :: bs, a, s =>
    match route s.cfg a with
    | .ram => placeBytes bs (a + 1) { s with mem := memSet a.toNat b s.mem }
    | _ => placeBytes bs (a + 1) s

/-- An instruction word of the opcode table placed where the next step fetches, on a core that may step (log entry 9):
its bytes go to the RAM at PC, and the fault mark is clear. -/
def placeTableWord (nbits w : Nat) (s : State) : State :=
  placeBytes (tableBytes nbits w) (s.reg .PC) { s with fault := none }

end Sys2Proof.Machine
end

