-- ==== Sys2Proof/Machine/Step.lean ====
section
/-! DEFINITION. One step of the machine (40_cycle.md R120): Fetch, Decode, Execute, InterruptCheck. -/

namespace Sys2Proof.Machine

/-- One step. It is enabled only while the fault mark is clear; otherwise the mark is returned at once
(10_state.md R31, 60_exceptions.md R305). A fatal condition is a next state that holds its mark (log entry 6). -/
def step (s : State) : Host.Outcome State Fault Refusal :=
  match s.fault with
  | some m => .fault (.halted m)
  | none =>
    match fetchDecode s with
    | .fatal m s1 => .next (s1.fatal m)
    | .instr i s1 =>
      match exec i s1 with
      | .next t => .next t.finishStep
      | .fault f => .fault f
      | .refused r => .refused r

/-- The state with an instruction word of the opcode table stored where `step` fetches next (log entry 9). -/
def State.withFetchWord (s : State) (nbits w : Nat) : State := placeTableWord nbits w s

end Sys2Proof.Machine
end

