-- ==== Sys2Proof/Machine/Codec.lean ====
section
/-! DEFINITION. The text codec: the assembler of one line (30_encoding.md R89 to R94) and the disassembler (R95 to
R99). It is stateless (90_conflicts.md C9) and no part of executing an instruction. -/

namespace Sys2Proof

/-- A mnemonic as text, lower case (30_encoding.md R86, R96). -/
def Mnemonic.text : Mnemonic → Text
  | .mov => ['m', 'o', 'v']
  | .movb => ['m', 'o', 'v', 'b']
  | .movw => ['m', 'o', 'v', 'w']
  | .movd => ['m', 'o', 'v', 'd']
  | .or => ['o', 'r']
  | .xor => ['x', 'o', 'r']
  | .and => ['a', 'n', 'd']
  | .shl => ['s', 'h', 'l']
  | .shr => ['s', 'h', 'r']
  | .not => ['n', 'o', 't']
  | .add => ['a', 'd', 'd']
  | .sub => ['s', 'u', 'b']
  | .cmp => ['c', 'm', 'p']
  | .mul => ['m', 'u', 'l']
  | .idiv => ['i', 'd', 'i', 'v']
  | .mod => ['m', 'o', 'd']
  | .inc => ['i', 'n', 'c']
  | .dec => ['d', 'e', 'c']
  | .bz => ['b', 'z']
  | .bnz => ['b', 'n', 'z']
  | .bneg => ['b', 'n', 'e', 'g']
  | .bpos => ['b', 'p', 'o', 's']
  | .bgt => ['b', 'g', 't']
  | .bgte => ['b', 'g', 't', 'e']
  | .blt => ['b', 'l', 't']
  | .blte => ['b', 'l', 't', 'e']
  | .bv => ['b', 'v']
  | .bnv => ['b', 'n', 'v']
  | .jmp => ['j', 'm', 'p']
  | .call => ['c', 'a', 'l', 'l']
  | .ret => ['r', 'e', 't']
  | .iret => ['i', 'r', 'e', 't']
  | .sret => ['s', 'r', 'e', 't']
  | .push => ['p', 'u', 's', 'h']
  | .pop => ['p', 'o', 'p']
  | .nop => ['n', 'o', 'p']

/-- A register's name, upper case (10_state.md R20). -/
def Reg.text : Reg → Text
  | .A => ['A']
  | .B => ['B']
  | .C => ['C']
  | .D => ['D']
  | .E => ['E']
  | .F => ['F']
  | .G => ['G']
  | .H => ['H']
  | .I => ['I']
  | .J => ['J']
  | .K => ['K']
  | .L => ['L']
  | .FP => ['F', 'P']
  | .SP => ['S', 'P']
  | .PC => ['P', 'C']
  | .FL => ['F', 'L']

/-- Every mnemonic (30_encoding.md R86). -/
def allMnemonics : List Mnemonic :=
  [.mov, .movb, .movw, .movd, .or, .xor, .and, .shl, .shr, .not, .add, .sub,
   .cmp, .mul, .idiv, .mod, .inc, .dec, .bz, .bnz, .bneg, .bpos, .bgt, .bgte,
   .blt, .blte, .bv, .bnv, .jmp, .call, .ret, .iret, .sret, .push, .pop, .nop]

/-- Every register, in index order (10_state.md R20). -/
def allRegs : List Reg :=
  [.A, .B, .C, .D, .E, .F, .G, .H, .I, .J, .K, .L, .FP, .SP, .PC, .FL]

/-! ### Disassembling -/

/-- A hexadecimal digit, upper case (30_encoding.md R96). -/
def hexDigit (n : Nat) : Char := Char.ofNat (if n < 10 then 48 + n else 55 + n)

/-- The `k` low hexadecimal digits of a number, zero-padded. -/
def hexDigits : Nat → Nat → Text
  | 0, _ => []
  | k + 1, n => hexDigits k (n / 16) ++ [hexDigit (n % 16)]

/-- `0x` and `k` digits (30_encoding.md R96). -/
def hexText (k n : Nat) : Text := '0' :: 'x' :: hexDigits k n

/-- An operand's text (30_encoding.md R96). `symbol` gives the name shown instead of a 32-bit immediate, if any
(R99). -/
def Operand.text (symbol : Word → Option Text) : Operand → Text
  | .reg r => r.text
  | .imm8 v => hexText 2 v.toNat
  | .imm16 v => hexText 4 v.toNat
  | .imm32 v =>
    match symbol v with
    | some t => t
    | none => hexText 8 v.toNat
  | .ind r => '[' :: r.text ++ [']']
  | .abs p => '[' :: hexText 8 p.toNat ++ [']']

/-- The operands' texts joined by `", "` (30_encoding.md R96). -/
def joinOperands : List Text → Text
  | [] => []
  | [t] => t
  | t :: ts => t ++ ',' :: ' ' :: joinOperands ts

/-- `render(row, B)` (30_encoding.md R96), with the symbolic substitution `symbol` (R99). -/
def renderWith (symbol : Word → Option Text) (n : Mnemonic) (os : List Operand) : Text :=
  match os with
  | [] => n.text
  | os => n.text ++ ' ' :: joinOperands (os.map (Operand.text symbol))

/-- The canonical rendering of an instruction (30_encoding.md R96): the symbolic mode is off. -/
def Instr.text (i : Instr) : Text := renderWith (fun _ => none) i.parts.1 i.operands

/-- The raw-data placeholder `data 0xNN` (30_encoding.md R98). -/
def rawDataText (op : Byte) : Text := 'd' :: 'a' :: 't' :: 'a' :: ' ' :: hexText 2 op.toNat

/-- The open points of the symbolic mode (30_encoding.md R99; log entry 12): how a device's name and a local name form
a constant's name, and whether a constant stands for its absolute address or its offset in the device's window. -/
structure SymbolicMode where
  fullName : Text → Text → Text
  absolute : Bool

/-- A constant registered in the table: a later registration of its name shadows an earlier one (30_encoding.md
R99). -/
def registerConstant (table : List (Text × Word)) (c : Text × Word) : List (Text × Word) :=
  table.filter (fun x => x.1 != c.1) ++ [c]

/-- A device's constants under their full names (30_encoding.md R99). -/
def deviceConstants (m : SymbolicMode) (d : Device) : List (Text × Word) :=
  d.constants.map (fun c =>
    (m.fullName d.name c.1, if m.absolute then d.base + BitVec.ofNat 32 c.2 else BitVec.ofNat 32 c.2))

/-- Every attached device, the RAM and the CPU among them (20_memory.md R58, R59), in the order their constants are
registered; that the RAM and the CPU come first is DESIGN CHOICE, log entry 21. -/
def Config.attached (c : Config) : List Device :=
  ⟨c.ramName, c.ramBase, c.ramSize, none, c.ramConstants⟩ :: ⟨c.cpuName, c.cpuBase, 64, none, c.cpuConstants⟩ :: c.devices

/-- The constant table, collected from every attached device (30_encoding.md R99). -/
def constantTable (m : SymbolicMode) (c : Config) : List (Text × Word) :=
  (c.attached.flatMap (deviceConstants m)).foldl registerConstant []

/-- The name shown for a value. Which of several names of one value is shown is open (FREE VALUE, log entry 12). -/
def constantName (table : List (Text × Word)) (v : Word) : Option Text :=
  match (table.filter (fun x => x.2 == v)).map (·.1) with
  | [] => none
  | [t] => some t
  | t :: ts => (t :: ts)[Config.symbolChoice (t :: ts) % (ts.length + 1)]?

/-! ### Assembling -/

/-- Why a line is not encoded (30_encoding.md R93); which error a line with several has is the model's choice (log
entry 11). -/
inductive EncodeError where
  /-- The line does not match the grammar: no mnemonic, or more than two operands (R89). -/
  | grammar
  | unknownMnemonic
  | unknownRegister
  | unbalancedBrackets
  /-- An operand with no text (R90). -/
  | emptyOperand
  /-- Text that is neither a name nor a literal (R90). -/
  | badToken
  /-- A literal of 2^32 or more (R91). -/
  | literalOutOfRange
  /-- No row matches the operand kinds (R92). -/
  | noMatchingRow
deriving DecidableEq, Repr

/-- What `encode(text)` answers: bytes, or an error and no bytes (30_encoding.md R93, R94). -/
inductive EncodeResult where
  | bytes (bs : List Byte)
  | error (e : EncodeError)
deriving DecidableEq, Repr

/-- The class of an operand token (30_encoding.md R90). -/
inductive Token where
  | reg (r : Reg)
  | imm (v : Nat)
  | ind (r : Reg)
  | abs (v : Nat)
deriving DecidableEq, Repr

/-- White space (log entry 11). -/
def isBlank (c : Char) : Bool := c == ' ' || c == '\t' || c == '\r' || c == '\n'

/-- White space around a token is ignored (30_encoding.md R89). -/
def trimText (t : Text) : Text := ((t.dropWhile isBlank).reverse.dropWhile isBlank).reverse

/-- Case is ignored in mnemonics and register names (30_encoding.md R89). -/
def lowerText (t : Text) : Text := t.map Char.toLower

/-- The operand tokens, separated by commas (30_encoding.md R89). -/
def splitCommas : Text → List Text
  | [] => [[]]
  | c :: cs =>
    if c = ',' then [] :: splitCommas cs
    else
      match splitCommas cs with
      | [] => [[c]]
      | t :: ts => (c :: t) :: ts

/-- The value of a digit, hexadecimal ones in either case (30_encoding.md R91). -/
def digitValue (c : Char) : Option Nat :=
  if '0' ≤ c ∧ c ≤ '9' then some (c.toNat - 48)
  else if 'A' ≤ c ∧ c ≤ 'F' then some (c.toNat - 55)
  else if 'a' ≤ c ∧ c ≤ 'f' then some (c.toNat - 87)
  else none

/-- The value of digits in a base, most significant first, `acc` being the value of the digits before them. -/
def digitsValue (base acc : Nat) : Text → Option Nat
  | [] => some acc
  | c :: cs =>
    match digitValue c with
    | some d => if d < base then digitsValue base (acc * base + d) cs else none
    | none => none

/-- A literal's value (30_encoding.md R91): decimal `[0-9]+`, or hexadecimal after `0x` in either case. -/
def literalValue : Text → Option Nat
  | [] => none
  | [c] => digitsValue 10 0 [c]
  | '0' :: c :: cs =>
    if c = 'x' ∨ c = 'X' then (if cs = [] then none else digitsValue 16 0 cs) else digitsValue 10 0 ('0' :: c :: cs)
  | cs => digitsValue 10 0 cs

/-- The register a token names, in any case (30_encoding.md R90). -/
def registerNamed (t : Text) : Option Reg := allRegs.find? (fun r => lowerText r.text == lowerText t)

/-- What a token without brackets holds: a register, or a literal's value below 2^32 (30_encoding.md R90, R91). -/
def parseAtom (t : Text) : Except EncodeError (Reg ⊕ Nat) :=
  match registerNamed t with
  | some r => .ok (.inl r)
  | none =>
    match literalValue t with
    | some v => if v < 2 ^ 32 then .ok (.inr v) else .error .literalOutOfRange
    | none =>
      if t = [] then .error .emptyOperand
      else if t.contains '[' || t.contains ']' then .error .unbalancedBrackets
      else if t.all Char.isAlpha then .error .unknownRegister
      else .error .badToken

/-- An operand token's class (30_encoding.md R90). -/
def parseToken (t : Text) : Except EncodeError Token :=
  match trimText t with
  | '[' :: cs =>
    if cs.getLast? = some ']' then
      match parseAtom (trimText cs.dropLast) with
      | .ok (.inl r) => .ok (.ind r)
      | .ok (.inr v) => .ok (.abs v)
      | .error e => .error e
    else .error .unbalancedBrackets
  | cs =>
    match parseAtom cs with
    | .ok (.inl r) => .ok (.reg r)
    | .ok (.inr v) => .ok (.imm v)
    | .error e => .error e

/-- Every token's class; the first error is the line's. -/
def parseTokens : List Text → Except EncodeError (List Token)
  | [] => .ok []
  | t :: ts =>
    match parseToken t with
    | .error e => .error e
    | .ok k =>
      match parseTokens ts with
      | .error e => .error e
      | .ok ks => .ok (k :: ks)

/-- The operand a token gives for an operand kind, where the two match: an immediate matches a kind at least as wide
as its minimal width (30_encoding.md R92). -/
def operandOf : OperandKind → Token → Option Operand
  | .reg, .reg r => some (.reg r)
  | .ind, .ind r => some (.ind r)
  | .abs, .abs v => some (.abs (BitVec.ofNat 32 v))
  | .imm8, .imm v => if v < 2 ^ 8 then some (.imm8 (BitVec.ofNat 8 v)) else none
  | .imm16, .imm v => if v < 2 ^ 16 then some (.imm16 (BitVec.ofNat 16 v)) else none
  | .imm32, .imm v => some (.imm32 (BitVec.ofNat 32 v))
  | _, _ => none

/-- The operands the tokens give for a row's kinds, where every position matches (30_encoding.md R92). -/
def operandsOf : List OperandKind → List Token → Option (List Operand)
  | [], [] => some []
  | k :: ks, t :: ts =>
    match operandOf k t, operandsOf ks ts with
    | some o, some os => some (o :: os)
    | _, _ => none
  | _, _ => none

/-- The width of a row's immediate, 0 where it has none (30_encoding.md R92). -/
def immWidth (r : Row) : Nat :=
  (r.kinds.map (fun k => match k with | .imm8 => 8 | .imm16 => 16 | .imm32 => 32 | _ => 0)).sum

/-- The matching row with the smallest immediate width (30_encoding.md R92): its opcode and its operands. -/
def selectRow (n : Mnemonic) (ts : List Token) : OpcodeMap → Option (Nat × Byte × List Operand)
  | [] => none
  | x :: xs =>
    match (if x.2.mnemonic = n then operandsOf x.2.kinds ts else none), selectRow n ts xs with
    | none, best => best
    | some os, none => some (immWidth x.2, x.1, os)
    | some os, some best => if immWidth x.2 ≤ best.1 then some (immWidth x.2, x.1, os) else some best

/-- The operand texts of a line after its mnemonic. -/
def operandTexts (t : Text) : List Text :=
  match trimText t with
  | [] => []
  | cs => splitCommas cs

/-- `encode(text)` (30_encoding.md R89 to R94): bytes, or an error and no bytes. -/
def encodeText (m : OpcodeMap) (t : Text) : EncodeResult :=
  let line := trimText t
  let name := line.takeWhile (fun c => !isBlank c)
  let texts := operandTexts (line.dropWhile (fun c => !isBlank c))
  if name = [] then .error .grammar
  else
    match allMnemonics.find? (fun n => n.text == lowerText name) with
    | none => .error .unknownMnemonic
    | some n =>
      if 2 < texts.length then .error .grammar
      else
        match parseTokens texts with
        | .error e => .error e
        | .ok ts =>
          match selectRow n ts m with
          | none => .error .noMatchingRow
          | some best => .bytes (best.2.1 :: best.2.2.flatMap Operand.bytes)

end Sys2Proof

namespace Sys2Proof.Machine

/-- `decode(a)` (30_encoding.md R95, R97): the text and the length, and the state after the bus reads. -/
def decodeAtWith (symbol : Word → Option Text) (a : Word) (s : State) : (Text × Nat) × State :=
  let (op, s1) := busGet a s
  match s.cfg.opcodes.lookup op with
  | none => ((rawDataText op, 1), s1)
  | some row =>
    let (bs, s2) := busGetArray (row.length - 1) (a + 1) s1
    match decodeOperands row.kinds bs with
    | .ok os _ => ((renderWith symbol row.mnemonic os, row.length), s2)
    | _ => ((rawDataText op, 1), s2)

/-- The canonical disassembler (30_encoding.md R95, R96). -/
def decodeAt (a : Word) (s : State) : (Text × Nat) × State := decodeAtWith (fun _ => none) a s

/-- The disassembler in the symbolic mode (30_encoding.md R99). -/
def decodeAtSymbolic (m : SymbolicMode) (a : Word) (s : State) : (Text × Nat) × State :=
  decodeAtWith (constantName (constantTable m s.cfg)) a s

end Sys2Proof.Machine
end

