-- ==== Sys2Proof/Machine/Surface.lean ====
section
/-! DEFINITION. The host's operations (60_exceptions.md R323, R324; 70_reset_and_hazards.md R340 to R347). Every one of
them runs between steps. -/

namespace Sys2Proof.Machine

/-- `reset()` (70_reset_and_hazards.md R340): the RAM is cleared, the devices take their own reset state (recorded as an
event, log entry 5), the registers, the pending set, the fault mark and the run mode take their reset values, and the
configuration stays as it is. -/
def State.hostReset (s : State) : State :=
  { State.initial s.cfg with devices := .reset :: s.devices }

/-- A machine of a configuration, its first reset done (70_reset_and_hazards.md R342). An ill-formed configuration is
refused and no machine is built from it (20_memory.md R52, R68; 60_exceptions.md R308). -/
def State.create (c : Config) : Option State :=
  match c.errors with
  | [] => some (State.initial c)
  | _ :: _ => none

/-- `raise(i)` (60_exceptions.md R309, R323): the line joins the pending set. -/
def State.raiseLine (s : State) (i : Nat) : State := { s with pending := insertLine i s.pending }

/-- `stop()` (60_exceptions.md R323). -/
def State.hostStop (s : State) : State := { s with running := .stopped }

/-- The condition under which `run()` steps on (60_exceptions.md R323): running, no fault mark, and PC not at
`STOP_ADDR`. -/
def State.runsOn (s : State) : Bool :=
  s.running == .running && s.fault == none && s.cfg.stopAddr != some (s.reg .PC)

/-- `run()` observed for at most `n` steps (60_exceptions.md R323, 70_reset_and_hazards.md R347; log entry 13): while
the run goes on the run mode stays running; when it ends, it is stopped. -/
def runFor : Nat → State → State
  | 0, s => if s.runsOn then s else s.hostStop
  | n + 1, s =>
    if s.runsOn then
      match step s with
      | .next t => runFor n t
      | _ => s.hostStop
    else s.hostStop

/-- `get(addr)`, `getArray(addr, n)` by the host (20_memory.md R55): bus reads, between steps, so that a line a device
signals is pending at once (log entry 19). -/
def State.hostGetArray (s : State) (a : Word) (n : Nat) : List Byte × State :=
  let (bs, s1) := busGetArray n a s
  (bs, s1.mergeSignals)

/-- `set(addr, b)`, `setArray(addr, bytes)` by the host (20_memory.md R56, R61): any slot of the CPU window may be
written, PC and FL included, with no fault. A line a device signals is pending at once (log entry 19). -/
def State.hostSetArray (s : State) (a : Word) (bs : List Byte) : State := (busSetArray bs a s).mergeSignals

/-- The operations of 60_exceptions.md R323. `run` names how many steps of the run are observed. -/
inductive HostCommand where
  | reset
  | step
  | run (n : Nat)
  | stop
  | disassembleAt (a : Word)
  | registersSnapshot
  | encode (t : Text)
  | get (a : Word)
  | set (a : Word) (b : Byte)
  | getArray (a : Word) (n : Nat)
  | setArray (a : Word) (bs : List Byte)
  | raiseLine (i : Nat)
  | attach (d : Device)
deriving DecidableEq, Repr

/-- What the host is told (60_exceptions.md R323). The spec leaves the result texts open (93_implementation_defined.md
I18); the model answers data (log entry 20). -/
inductive HostReply where
  | done
  /-- The fault mark, returned at once (60_exceptions.md R305). -/
  | halted (m : FaultMark)
  /-- The step ended in this fatal condition. -/
  | fatal (m : FaultMark)
  | text (t : Text) (length : Nat)
  | snapshot (registers : List (Text × Word)) (flags : List (Text × Bool))
  | encoded (r : EncodeResult)
  | bytes (bs : List Byte)
  /-- The operation is refused and does nothing. -/
  | refused (e : ConfigError)
deriving DecidableEq, Repr

/-- A flag's name (10_state.md R26). -/
def Flag.text : Flag → Text
  | .Y => ['Y'] | .V => ['V'] | .Z => ['Z'] | .S => ['S'] | .GT => ['G', 'T'] | .LT => ['L', 'T'] | .P => ['P'] | .T => ['T']

/-- Every flag, in bit order (10_state.md R26). -/
def allFlags : List Flag := [.Y, .V, .Z, .S, .GT, .LT, .P, .T]

/-- The reply of an operation that stepped: the fault mark it left, if any. -/
def replyAfter (s : State) : HostReply :=
  match s.fault with
  | some m => .fatal m
  | none => .done

/-- `step()` (60_exceptions.md R323): one step in either run mode, or the fault at once. -/
def State.hostStep (s : State) : HostReply × State :=
  match step s with
  | .next t => (replyAfter t, t)
  | .fault (.halted m) => (.halted m, s)
  | .refused _ => (.done, s)

/-- `run()` (60_exceptions.md R305, R323): with the fault mark set it returns at once with the fault. -/
def State.hostRun (s : State) (n : Nat) : HostReply × State :=
  match s.fault with
  | some m => (.halted m, s)
  | none =>
    let t := runFor n { s with running := .running }
    (replyAfter t, t)

/-- `registersSnapshot()` (60_exceptions.md R323). -/
def State.snapshot (s : State) : HostReply :=
  .snapshot (allRegs.map (fun r => (r.text, s.reg r))) (allFlags.map (fun f => (f.text, s.flag f)))

/-- `raise(i)`: a line that does not exist is refused (60_exceptions.md R308; log entry 16). -/
def State.hostRaise (s : State) (i : Nat) : HostReply × State :=
  if i < s.cfg.nIrq then (.done, s.raiseLine i) else (.refused .lineOutOfRange, s)

/-- One host operation between steps (60_exceptions.md R323): its reply and the state after it. `attach` after the
first reset is refused (20_memory.md R51). -/
def hostOperation (c : HostCommand) (s : State) : HostReply × State :=
  match c with
  | .reset => (.done, s.hostReset)
  | .step => s.hostStep
  | .run n => s.hostRun n
  | .stop => (.done, s.hostStop)
  | .disassembleAt a =>
    let (x, s1) := decodeAt a s
    (.text x.1 x.2, s1.mergeSignals)
  | .registersSnapshot => (s.snapshot, s)
  | .encode t => (.encoded (encodeText s.cfg.opcodes t), s)
  | .get a =>
    let (bs, s1) := s.hostGetArray a 1
    (.bytes bs, s1)
  | .set a b => (.done, s.hostSetArray a [b])
  | .getArray a n =>
    let (bs, s1) := s.hostGetArray a n
    (.bytes bs, s1)
  | .setArray a bs => (.done, s.hostSetArray a bs)
  | .raiseLine i => s.hostRaise i
  | .attach _ => (.refused .attachAfterReset, s)

end Sys2Proof.Machine
end

