-- ==== Sys2Proof/Safety.lean ====
section
/-! DEFINITION. The terms the statements are written in: what a byte of the machine reads as, what an instruction
leaves unchanged, the invariant of the machine, the states it reaches, and what a safe run is. -/

namespace Sys2Proof.Machine

/-! ### Observing a state -/

/-- The model's read of one byte through the bus (20_memory.md R53). -/
def readByte (s : State) (a : Word) : Byte := (busGet a s).1

/-- The address belongs to an opaque device (20_memory.md R62). -/
def isDeviceByte (c : Config) (a : Word) : Bool :=
  match route c a with
  | .device _ _ => true
  | _ => false

/-- No byte of `[a, a + n)`, modulo 2^32, belongs to an opaque device. -/
def noDevice (c : Config) (a : Word) (n : Nat) : Prop := rangeTouches (isDeviceByte c) a n = false

/-- Every byte of `[a, a + n)`, modulo 2^32, is in the RAM window. -/
def allRam (c : Config) (a : Word) (n : Nat) : Prop := ∀ k, k < n → route c (a + BitVec.ofNat 32 k) = .ram

/-- The address is RAM or unmapped: a byte of memory, neither a view of a register nor a device's. -/
def isMemory (c : Config) (a : Word) : Prop := route c a = .ram ∨ route c a = .unmapped

/-- The address is none of the bytes of `[a, a + n)`, modulo 2^32. -/
def outside (a : Word) (n : Nat) (x : Word) : Prop := ∀ k, k < n → x ≠ a + BitVec.ofNat 32 k

/-- The bytes of `[a, a + n)`, modulo 2^32, as they stand. -/
def bytesAt (s : State) (a : Word) (n : Nat) : List Byte :=
  (List.range n).map (fun k => readByte s (a + BitVec.ofNat 32 k))

/-- Some byte of `[a, a + n)`, modulo 2^32, is a byte of the CPU window at an offset from `lo` on, below `hi`
(20_memory.md R59, R61). -/
def touchesCpuWindow (c : Config) (lo hi : Nat) (a : Word) (n : Nat) : Prop :=
  ∃ k, k < n ∧ c.cpuBase.toNat + lo ≤ (a + BitVec.ofNat 32 k).toNat ∧
    (a + BitVec.ofNat 32 k).toNat < c.cpuBase.toNat + hi

/-! ### Frames -/

/-- Every byte of memory reads as before. -/
def memorySame (s t : State) : Prop := ∀ x, isMemory s.cfg x → readByte t x = readByte s x

/-- Every byte of memory outside `[a, a + n)` reads as before. -/
def memorySameOutside (s t : State) (a : Word) (n : Nat) : Prop :=
  ∀ x, isMemory s.cfg x → outside a n x → readByte t x = readByte s x

/-- The bytes of `[a, a + n)` that are RAM read as the low `n` bytes of `v`, least significant first. -/
def ramHolds (t : State) (a : Word) (n : Nat) (v : Word) : Prop :=
  ∀ k, k < n → route t.cfg (a + BitVec.ofNat 32 k) = .ram → readByte t (a + BitVec.ofNat 32 k) = byteOf v k

/-- Every register but these is unchanged. -/
def registersSameBut (s t : State) (rs : List Reg) : Prop := ∀ r, r ∉ rs → t.reg r = s.reg r

/-- What no instruction of the core changes but by raising a fatal condition: the configuration, the pending set, the
fault mark and the run mode. -/
def controlSame (s t : State) : Prop :=
  t.cfg = s.cfg ∧ t.pending = s.pending ∧ t.fault = s.fault ∧ t.running = s.running

/-- The opaque devices saw nothing new and signalled nothing new. -/
def devicesSame (s t : State) : Prop := t.devices = s.devices ∧ t.signalled = s.signalled

/-- The bits of FL that `SetFlags` keeps (40_cycle.md R130): GT, LT, T and bits 31:8. -/
def otherFlagsSame (s t : State) : Prop :=
  t.flag .GT = s.flag .GT ∧ t.flag .LT = s.flag .LT ∧ t.flag .T = s.flag .T ∧
  (t.reg .FL).extractLsb' 8 24 = (s.reg .FL).extractLsb' 8 24

/-- Y, V, Z, S and P as `SetFlags(r, y, v)` leaves them (40_cycle.md R130). -/
def flagsOfResult (t : State) (r : Word) (y v : Bool) : Prop :=
  t.flag .Y = y ∧ t.flag .V = v ∧ t.flag .Z = decide (r = 0) ∧ t.flag .S = r.getLsbD 31 ∧
  t.flag .P = decide (popcount (r.extractLsb' 0 8) % 2 = 0)

/-- The end of an instruction of `len` bytes with register destination `d`: it takes `r`; if it is not FL, the flags
are those of the result; if it is not PC, PC is advanced; every other register, the control state and all of memory
are unchanged (40_cycle.md R124, R126 to R130). -/
def writesRegister (s t : State) (len : Nat) (d : Reg) (r : Word) (y v : Bool) : Prop :=
  t.reg d = r ∧
  (d ≠ .FL → flagsOfResult t r y v ∧ otherFlagsSame s t) ∧
  (d ≠ .PC → t.reg .PC = s.reg .PC + BitVec.ofNat 32 len) ∧
  registersSameBut s t [d, .PC, .FL] ∧
  controlSame s t ∧ memorySame s t

/-- The opaque devices saw and signalled what they saw and signalled up to `s1`, no more. -/
def devicesAsIn (s1 t : State) : Prop := t.devices = s1.devices ∧ t.signalled = s1.signalled

/-- The end of an instruction of `len` bytes that stores the low `w` bytes of `v` at `ea`, the accesses before the
store having left `s1` (41_move.md R150, R155): the bytes stored read as those of `v`, unless they are unmapped or a
device's; every byte of memory and of the CPU window outside the stored bytes is unchanged, but for the PC and FL
slots; the flags are those of the stored value; PC is advanced; every register but PC, FL and those whose slot is
stored to is unchanged; the devices saw and signalled what writing the bytes after `s1` makes them see and signal, which
is nothing new where no stored byte is a device's. -/
def storesBytes (s t s1 : State) (len w : Nat) (ea v : Word) : Prop :=
  (∀ k, k < w → isDeviceByte s.cfg (ea + BitVec.ofNat 32 k) = false → route s.cfg (ea + BitVec.ofNat 32 k) ≠ .unmapped →
    readByte t (ea + BitVec.ofNat 32 k) = byteOf v k) ∧
  memorySameOutside s t ea w ∧
  (∀ x o, route s.cfg x = .cpu o → o < 56 → outside ea w x → readByte t x = readByte s x) ∧
  (∀ r, r ≠ .PC → r ≠ .FL →
    (∀ k, k < w → ∀ o, route s.cfg (ea + BitVec.ofNat 32 k) = .cpu o → o / 4 ≠ r.number) → t.reg r = s.reg r) ∧
  flagsOfResult t (BitVec.ofNat 32 (v.toNat % 2 ^ (8 * w))) false false ∧ otherFlagsSame s t ∧
  t.reg .PC = s.reg .PC + BitVec.ofNat 32 len ∧
  controlSame s t ∧ devicesAsIn (memWrite ea w v s1) t ∧ (noDevice s.cfg ea w → devicesAsIn s1 t)

/-- The word `v` was pushed: SP is 4 less, the 4 bytes there that are RAM hold it, no other byte of memory changed, and
the devices saw and signalled what writing the 4 bytes makes them see and signal (40_cycle.md R133). -/
def pushed (s t : State) (v : Word) : Prop :=
  t.reg .SP = s.reg .SP - 4 ∧ ramHolds t (s.reg .SP - 4) 4 v ∧ memorySameOutside s t (s.reg .SP - 4) 4 ∧
  controlSame s t ∧ devicesAsIn (memWrite (s.reg .SP - 4) 4 v s) t ∧
  (noDevice s.cfg (s.reg .SP - 4) 4 → devicesSame s t)

/-- Only PC differs, and PC is `target`. -/
def onlyPcChanges (s t : State) (target : Word) : Prop :=
  t.reg .PC = target ∧ registersSameBut s t [.PC] ∧ controlSame s t ∧ memorySame s t ∧ devicesSame s t

/-- The fatal condition `m` was raised and nothing else happened (60_exceptions.md R305): the devices saw nothing new,
and no signalled line is left over (log entry 4). -/
def raisesOnly (s t : State) (m : FaultMark) : Prop :=
  t.fault = some m ∧ t.running = .stopped ∧ t.regs = s.regs ∧ t.mem = s.mem ∧ t.pending = s.pending ∧ t.cfg = s.cfg ∧
  t.devices = s.devices ∧ t.signalled = []

/-! ### Interrupts -/

/-- Line `j` is in the pending set when this state's InterruptCheck runs: it was pending, or a device signalled it during
the step (60_exceptions.md R309, R310). -/
def waits (s : State) (j : Nat) : Prop := j ∈ s.pending ∨ j ∈ s.signalled

/-- Line `i` is the lowest line that this state's InterruptCheck finds pending (60_exceptions.md R315). -/
def lowestWaiting (s : State) (i : Nat) : Prop := waits s i ∧ ∀ j, waits s j → i ≤ j

/-- The bus writes of an interrupt entry, PC and then FL, as the devices see them: with no line left signalled from
before (60_exceptions.md R316). -/
def entryWrites (s : State) : State :=
  memWrite (s.reg .SP - 8) 4 (s.reg .FL) (memWrite (s.reg .SP - 4) 4 (s.reg .PC) { s with signalled := [] })

/-! ### The invariant -/

/-- Strictly rising. -/
def risingFrom (lo : Nat) : List Nat → Bool
  | [] => true
  | i :: is => decide (lo ≤ i) && risingFrom (i + 1) is

/-- A set of existing lines, held strictly rising (10_state.md R30; log entry 15). -/
def linesOk (c : Config) (is : List Nat) : Bool := risingFrom 0 is && is.all (fun i => decide (i < c.nIrq))

/-- Every listed byte is in the RAM window. -/
def memoryInRam (s : State) : Bool :=
  s.mem.all (fun x => decide (s.cfg.ramBase.toNat ≤ x.1) && decide (x.1 < s.cfg.ramBase.toNat + s.cfg.ramSize))

/-- The invariant of the machine between steps. -/
structure Inv (s : State) : Prop where
  /-- The configuration is one a machine may be built from (20_memory.md R52, R68; 60_exceptions.md R308). -/
  config    : s.cfg.wf
  /-- The RAM's contents are in canonical form. -/
  memory    : Memory.wf s.mem = true
  /-- The RAM's contents lie in the RAM window (20_memory.md R58). -/
  inRam     : memoryInRam s = true
  /-- The pending set is a set of existing lines (10_state.md R30). -/
  pending   : linesOk s.cfg s.pending = true
  /-- So are the lines signalled during a step. -/
  signalled : linesOk s.cfg s.signalled = true
  /-- Between steps no signalled line is left over: it joined the pending set, or a fatal condition dropped it (log
  entry 4). -/
  merged    : s.signalled = []
  /-- A core with a fault mark is stopped (60_exceptions.md R305). -/
  stopped   : s.fault ≠ none → s.running = .stopped

/-! ### Runs -/

/-- The states a machine reaches: its state after the first reset, and then any steps and host operations. -/
inductive Reachable : State → Prop where
  | created (c : Config) (s : State) : State.create c = some s → Reachable s
  | stepped (s t : State) : Reachable s → step s = .next t → Reachable t
  | operated (h : HostCommand) (s : State) : Reachable s → Reachable (hostOperation h s).2

/-- A run is safe while no step has ended in a fatal condition. -/
def Safe (s : State) : Prop := s.fault = none

end Sys2Proof.Machine
end

