-- ==== Sys2Proof/Certificates/Slice0/Obligations.lean ====
section
/-! DEFINITION. The statements for the provers. Each definition's docstring names the rules of spec/ it comes from. -/

open Sys2Proof Sys2Proof.Machine

/-! ### Decoding and encoding -/

/-- A few instructions written out from 30_encoding.md R85 and R86, one per family, decode as the spec says. -/
def Obligations.SpecWordsDecode : Prop :=
  decode defaultOpcodeMap [0x01, 0x00, 0x01] = .ok (.movRR .A .B) [] ∧
  decode defaultOpcodeMap [0x0C, 0x64, 0x00, 0x00, 0x00, 0xF0] = .ok (.movbMaI8 0x64 0xF0) [] ∧
  decode defaultOpcodeMap [0x2D, 0x00, 0x00, 0xFF] = .ok (.andRI16 .A 0xFF00) [] ∧
  decode defaultOpcodeMap [0x39, 0x00, 0x05] = .ok (.subRI8 .A 5) [] ∧
  decode defaultOpcodeMap [0x4F, 0x00, 0x10, 0x00, 0x00] = .ok (.bzI32 0x1000) [] ∧
  decode defaultOpcodeMap [0x6B, 0x01] = .ok (.popR .B) [] ∧
  decode defaultOpcodeMap [0x20, 0x0C, 0xFC, 0x00, 0x00, 0x40, 0x00, 0x00, 0x00] = .ok (.movdMaI32 0xFC0C 0x40) []

/-- Every instruction has an opcode in the default map, its length is 1 to 9 bytes, and that map is one a machine may
be built with (30_encoding.md R80, R86). -/
def Obligations.EveryInstructionEncodes : Prop :=
  defaultOpcodeMap.wf ∧
  ∀ i : Instr, Instr.wf defaultOpcodeMap i ∧ (encode i).length = i.length ∧ 1 ≤ i.length ∧ i.length ≤ 9

/-- Decoding the bytes of an instruction gives it back, under every well-formed opcode map, whatever follows
(30_encoding.md R80 to R88, R94). -/
def Obligations.DecodeInvertsEncode : Prop :=
  ∀ (m : OpcodeMap) (i : Instr) (rest : List Byte), m.wf → Instr.wf m i →
    ∃ bs, encodeWith m i = some bs ∧ bs.length = i.length ∧ decode m (bs ++ rest) = .ok i rest

/-- Only the bytes of an instruction decode to it: no two byte strings stand for one instruction (30_encoding.md R80 to
R88). -/
def Obligations.EncodeInvertsDecode : Prop :=
  ∀ (m : OpcodeMap) (bs rest : List Byte) (i : Instr), m.wf → decode m bs = .ok i rest →
    ∃ cs, encodeWith m i = some cs ∧ bs = cs ++ rest

/-- The opcode values 0x00 and 0x6D to 0xFF, and no others, are unassigned in the default map (30_encoding.md R87). -/
def Obligations.UnassignedOpcodesAreRejected : Prop :=
  ∀ (op : Byte) (bs : List Byte),
    decode defaultOpcodeMap (op :: bs) = .invalidOpcode op ↔ (op = 0x00 ∨ 0x6D ≤ op.toNat)

/-- The register bytes (of `reg` and `[reg]` operands) among the bytes after the opcode, in operand order (30_encoding.md
R80, R81, R85). -/
def registerBytes : List OperandKind → List Byte → List Byte
  | [], _ => []
  | .reg :: ks, bs => bs.take 1 ++ registerBytes ks (bs.drop 1)
  | .ind :: ks, bs => bs.take 1 ++ registerBytes ks (bs.drop 1)
  | .imm8 :: ks, bs => registerBytes ks (bs.drop 1)
  | .imm16 :: ks, bs => registerBytes ks (bs.drop 2)
  | .imm32 :: ks, bs => registerBytes ks (bs.drop 4)
  | .abs :: ks, bs => registerBytes ks (bs.drop 4)

/-- A register byte above 15 is rejected, in every format, the first in operand order being reported, and no other byte
is (30_encoding.md R82; 40_cycle.md R122; 60_exceptions.md R302). -/
def Obligations.FirstBadRegisterByteIsReported : Prop :=
  ∀ (m : OpcodeMap) (op : Byte) (row : Row) (bs : List Byte), m.lookup op = some row → row.length - 1 ≤ bs.length →
    ∀ op' b, decode m (op :: bs) = .invalidRegister op' b ↔
      op' = op ∧ (registerBytes row.kinds bs).find? (fun x => decide (15 < x.toNat)) = some b

/-! ### The step -/

/-- When the bytes at PC decode to an instruction, and fetching them draws on no device, the step is that
instruction's meaning at this state, followed by the end of the step (40_cycle.md R120). -/
def Obligations.StepRunsTheDecodedInstruction : Prop :=
  ∀ (s : State) (i : Instr), s.fault = none → noDevice s.cfg (s.reg .PC) i.length →
    decode s.cfg.opcodes (bytesAt s (s.reg .PC) i.length) = .ok i [] →
    step s = match exec i s with
      | .next t => .next t.finishStep
      | .fault f => .fault f
      | .refused r => .refused r

/-- While the fault mark is set no step is enabled: the mark is returned at once (10_state.md R31; 60_exceptions.md
R305). That `step` answers this with its fault outcome is the model's choice, log entry 6. -/
def Obligations.HaltedCoreReturnsItsMark : Prop :=
  ∀ (s : State) (m : FaultMark), s.fault = some m → step s = .fault (.halted m)

/-- An unassigned opcode ends the step in InvalidOpcode, with nothing else changed (60_exceptions.md R301, R305). That a
fatal condition is a next state is the model's choice, log entry 6. -/
def Obligations.InvalidOpcodeEndsTheStep : Prop :=
  ∀ s : State, s.fault = none → isDeviceByte s.cfg (s.reg .PC) = false →
    s.cfg.opcodes.lookup (readByte s (s.reg .PC)) = none →
    ∃ t, step s = .next t ∧ raisesOnly s t (.invalidOpcode (s.reg .PC) (readByte s (s.reg .PC)))

/-- A register byte above 15 ends the step in InvalidRegister, with nothing else changed (60_exceptions.md R302,
R305). That a fatal condition is a next state is the model's choice, log entry 6. -/
def Obligations.InvalidRegisterEndsTheStep : Prop :=
  ∀ (s : State) (n : Nat) (op b : Byte), s.fault = none → noDevice s.cfg (s.reg .PC) n →
    decode s.cfg.opcodes (bytesAt s (s.reg .PC) n) = .invalidRegister op b →
    ∃ t, step s = .next t ∧ raisesOnly s t (.invalidRegister (s.reg .PC) op b)

/-- No instruction blocks: every enabled step ends in a next state, normally or in a fatal condition (40_cycle.md
R136). That a fatal condition is a next state is the model's choice, log entry 6. -/
def Obligations.EveryEnabledStepEnds : Prop :=
  ∀ s : State, s.fault = none → ∃ t, step s = .next t

/-- A fatal condition of an instruction is precise: the mark is set, the run stops, and everything else is as the
instruction found it (40_cycle.md R137; 60_exceptions.md R305); no InterruptCheck follows it (40_cycle.md R120;
60_exceptions.md R314). That a fatal condition is a next state is the model's choice, log entry 6, and that the lines
signalled in its phase are dropped is log entry 4. -/
def Obligations.FatalInstructionsArePrecise : Prop :=
  ∀ (i : Instr) (s t : State) (m : FaultMark), s.fault = none → exec i s = .next t → t.fault = some m →
    raisesOnly s t m ∧ t.finishStep = t

/-! ### Interrupts -/

/-- With T clear, or with no line pending, InterruptCheck changes nothing; the lines signalled during the step join the
pending set (60_exceptions.md R309, R310, R314). That they are gathered apart until then is the model's choice, log
entry 4. -/
def Obligations.NoInterruptWithoutTOrPending : Prop :=
  ∀ s : State, s.fault = none → (s.flag .T = false ∨ (s.pending = [] ∧ s.signalled = [])) →
    s.finishStep.regs = s.regs ∧ s.finishStep.mem = s.mem ∧ s.finishStep.cfg = s.cfg ∧
    s.finishStep.fault = none ∧ s.finishStep.running = s.running ∧ s.finishStep.devices = s.devices ∧
    s.finishStep.signalled = [] ∧ (∀ j, j ∈ s.finishStep.pending ↔ j ∈ s.pending ∨ j ∈ s.signalled)

/-- Interrupt entry: PC is pushed, then FL; T alone of FL is cleared; PC takes the word at `IVT_BASE + 4i`, read after
the pushes; the line, the lowest of those pending and of those signalled during the step, leaves the pending set, and
the others of both are in it; nothing else changes but what the devices saw of the pushes and a line a push made them
signal (60_exceptions.md R310, R314, R316, R318; the last is log entry 4). The configuration and the lines are as the
invariant says. -/
def Obligations.InterruptEntry : Prop :=
  ∀ (s : State) (i : Nat), s.cfg.wf → linesOk s.cfg s.pending = true → linesOk s.cfg s.signalled = true →
    s.fault = none → s.flag .T = true → lowestWaiting s i →
    stackWriteFatal s.cfg (s.reg .SP - 8) 8 = false →
    ∃ t, s.finishStep = t ∧
      t.reg .SP = s.reg .SP - 8 ∧
      ramHolds t (s.reg .SP - 4) 4 (s.reg .PC) ∧ ramHolds t (s.reg .SP - 8) 4 (s.reg .FL) ∧
      memorySameOutside s t (s.reg .SP - 8) 8 ∧
      t.reg .PC = littleEndian (bytesAt t (s.cfg.ivtBase + BitVec.ofNat 32 (4 * i)) 4) ∧
      (∀ n, n < 32 → (t.reg .FL).getLsbD n = (decide (n ≠ 7) && (s.reg .FL).getLsbD n)) ∧
      registersSameBut s t [.SP, .PC, .FL] ∧
      (∀ j, j ∈ t.pending ↔ (waits s j ∧ j ≠ i) ∨ j ∈ (entryWrites s).signalled) ∧
      t.cfg = s.cfg ∧ t.fault = none ∧ t.running = s.running ∧
      t.devices = (entryWrites s).devices ∧ t.signalled = [] ∧
      (noDevice s.cfg (s.reg .SP - 8) 8 → t.devices = s.devices ∧ (entryWrites s).signalled = [])

/-- When several lines are pending, the lowest-numbered is taken first and the others stay pending; T is clear after the
entry, so a further InterruptCheck takes none of them (60_exceptions.md R315). -/
def Obligations.LowestPendingLineFirst : Prop :=
  ∀ s : State, s.cfg.wf → linesOk s.cfg s.pending = true → linesOk s.cfg s.signalled = true →
    s.fault = none → s.flag .T = true → (∃ j, waits s j) → stackWriteFatal s.cfg (s.reg .SP - 8) 8 = false →
    ∃ i, lowestWaiting s i ∧
      s.finishStep.reg .PC = littleEndian (bytesAt s.finishStep (s.cfg.ivtBase + BitVec.ofNat 32 (4 * i)) 4) ∧
      (∀ j, waits s j → j ≠ i → j ∈ s.finishStep.pending) ∧
      (noDevice s.cfg (s.reg .SP - 8) 8 → i ∉ s.finishStep.pending) ∧
      s.finishStep.flag .T = false ∧ s.finishStep.finishStep = s.finishStep

/-- Interrupt entry whose stack range touches the CPU window is fatal, with the PC the instruction left; nothing is
written and the line stays pending, with every other that was pending or that the step signalled (60_exceptions.md R304,
R305, R310, R316). That a fatal condition is a next state is the model's choice, log entry 6. -/
def Obligations.EntryOntoCpuWindowIsFatal : Prop :=
  ∀ s : State, s.fault = none → s.flag .T = true → (∃ j, waits s j) →
    stackWriteFatal s.cfg (s.reg .SP - 8) 8 = true →
    ∃ t, s.finishStep = t ∧ t.fault = some (.cpuWindowWrite (s.reg .PC) (s.reg .SP - 8)) ∧ t.running = .stopped ∧
      t.regs = s.regs ∧ t.mem = s.mem ∧ t.cfg = s.cfg ∧ t.devices = s.devices ∧ t.signalled = [] ∧
      (∀ j, j ∈ t.pending ↔ waits s j)

/-- `iret`, and `sret` as well, run right after an entry whose stack is RAM restores every register as it was before the
entry (60_exceptions.md R317, R319). -/
def Obligations.ReturnUndoesEntry : Prop :=
  ∀ s : State, s.cfg.wf → linesOk s.cfg s.pending = true → linesOk s.cfg s.signalled = true →
    s.fault = none → s.flag .T = true → (∃ j, waits s j) →
    allRam s.cfg (s.reg .SP - 8) 8 →
    (∃ u, exec .iret s.finishStep = .next u ∧ ∀ r, u.reg r = s.reg r) ∧
    (∃ u, exec .sret s.finishStep = .next u ∧ ∀ r, u.reg r = s.reg r)

/-! ### Reset and the host's operations -/

/-- The reset state has the values of 10_state.md R35. That it holds the example configuration is the model's choice, log
entry 1. -/
def Obligations.ResetState : Prop :=
  (∀ r, State.reset.reg r = 0) ∧ (∀ f, State.reset.flag f = false) ∧ State.reset.pending = [] ∧
  State.reset.fault = none ∧ State.reset.running = .stopped ∧
  (∀ a, route State.reset.cfg a = .ram → readByte State.reset a = 0x00)

/-- `reset()` from any state: registers 0, RAM cleared, pending set empty, no fault mark, stopped, and the
configuration as it was (70_reset_and_hazards.md R340; 20_memory.md R63). -/
def Obligations.HostResetFromAnyState : Prop :=
  ∀ s : State, ∃ t, (hostOperation .reset s).2 = t ∧
    (∀ r, t.reg r = 0) ∧ t.pending = [] ∧ t.signalled = [] ∧ t.fault = none ∧ t.running = .stopped ∧
    t.cfg = s.cfg ∧ (∀ a, route t.cfg a = .ram → readByte t a = 0x00)

/-- A step right after reset with no program loaded raises InvalidOpcode at PC = 0 (70_reset_and_hazards.md R341), in
the example configuration (the model's choice, log entry 1; log entry 6 for the form of a fatal condition). -/
def Obligations.StepAfterResetIsInvalidOpcode : Prop :=
  ∃ t, step State.reset = .next t ∧ raisesOnly State.reset t (.invalidOpcode 0 0)

/-- `run()` with PC at `STOP_ADDR` stops before it fetches: nothing changes but the run mode, which is stopped
(70_reset_and_hazards.md R347; 60_exceptions.md R323). That a run is observed for a number of steps is the model's choice,
log entry 13. -/
def Obligations.RunStopsAtStopAddress : Prop :=
  ∀ (s : State) (n : Nat), s.fault = none → s.cfg.stopAddr = some (s.reg .PC) →
    hostOperation (.run n) s = (.done, { s with running := .stopped })

/-- Raising an existing line adds it to the pending set and nothing else; raising it again has no further effect
(60_exceptions.md R309). -/
def Obligations.RaisedLinesCoalesce : Prop :=
  ∀ (s : State) (i : Nat), i < s.cfg.nIrq →
    ∃ t, hostOperation (.raiseLine i) s = (.done, t) ∧ (∀ j, j ∈ t.pending ↔ j = i ∨ j ∈ s.pending) ∧
      t.regs = s.regs ∧ t.mem = s.mem ∧ t.cfg = s.cfg ∧ t.fault = s.fault ∧ t.running = s.running ∧
      devicesSame s t ∧ hostOperation (.raiseLine i) t = (.done, t)

/-- Windows do not overlap (20_memory.md R52): an `attach` whose window shares an address with an attached one is a
configuration error, and no machine is built from a configuration in which two windows share an address, so that in a
machine's configuration every address is in at most one window. -/
def Obligations.OverlappingWindowsAreRefused : Prop :=
  (∀ (c : Config) (d : Device) (w : Window) (a : Word), w ∈ c.windows → inWindow w a = true →
    inWindow d.window a = true → ∃ e, c.attach d = .error e) ∧
  (∀ (c : Config) (j k : Nat) (u w : Window) (a : Word), j ≠ k → c.windows[j]? = some u → c.windows[k]? = some w →
    inWindow u a = true → inWindow w a = true → State.create c = none)

/-! ### Invariants -/

/-- Every step keeps the invariant: a legal configuration, the RAM in canonical form and inside its window, a pending
set of existing lines, no signal left over, and a core with a fault mark stopped. The forms of the memory, of the pending
set and of the signalled lines are the model's choices, log entries 4, 10 and 15. -/
def Obligations.StepKeepsTheInvariant : Prop :=
  ∀ s t : State, Inv s → step s = .next t → Inv t

/-- The reset state meets the invariant (the model's forms: log entries 1, 4, 10 and 15). -/
def Obligations.ResetMeetsTheInvariant : Prop := Inv State.reset

/-- Every host operation keeps the invariant (60_exceptions.md R323; the model's forms: log entries 4, 10, 13 and
15). -/
def Obligations.HostOperationsKeepTheInvariant : Prop :=
  ∀ (c : HostCommand) (s : State), Inv s → Inv (hostOperation c s).2

/-- No step and no host operation changes the configuration (20_memory.md R51; 70_reset_and_hazards.md R340). -/
def Obligations.ConfigurationIsFixed : Prop :=
  (∀ s t : State, step s = .next t → t.cfg = s.cfg) ∧
  (∀ (c : HostCommand) (s : State), (hostOperation c s).2.cfg = s.cfg)

/-- An instruction that writes all of FL: `iret`, `sret`, and every instruction whose register destination is FL
(10_state.md R26; 40_cycle.md R128). -/
def writesFlWhole (i : Instr) : Bool :=
  match i.parts.1, i.operands with
  | .iret, _ => true
  | .sret, _ => true
  | .cmp, _ => false
  | .push, _ => false
  | .call, _ => false
  | .jmp, _ => false
  | .bz, _ => false | .bnz, _ => false | .bneg, _ => false | .bpos, _ => false | .bgt, _ => false
  | .bgte, _ => false | .blt, _ => false | .blte, _ => false | .bv, _ => false | .bnv, _ => false
  | _, .reg .FL :: _ => true
  | _, _ => false

/-- Only a whole-FL write changes T or bits 31:8 of FL; only `cmp`, beside those, changes GT or LT (10_state.md R26, R27;
60_exceptions.md R311). -/
def Obligations.FlagsBeyondTheComputedSet : Prop :=
  ∀ (i : Instr) (s t : State), exec i s = .next t → writesFlWhole i = false →
    t.flag .T = s.flag .T ∧ (t.reg .FL).extractLsb' 8 24 = (s.reg .FL).extractLsb' 8 24 ∧
    (i.parts.1 ≠ .cmp → t.flag .GT = s.flag .GT ∧ t.flag .LT = s.flag .LT)

/-! ### The bus -/

/-- An address goes to the window that holds it, at its offset there, and to nothing if none does (20_memory.md R52,
R53, R54). -/
def Obligations.RoutingFollowsTheWindows : Prop :=
  ∀ (c : Config) (a : Word), c.wf →
    (inWindow c.ramWindow a = true → route c a = .ram) ∧
    (inWindow c.cpuWindow a = true → route c a = .cpu (a.toNat - c.cpuBase.toNat)) ∧
    (∀ (k : Nat) (d : Device), c.devices[k]? = some d → inWindow d.window a = true →
      route c a = .device k (a.toNat - d.base.toNat)) ∧
    ((∀ w, w ∈ c.windows → inWindow w a = false) → route c a = .unmapped)

/-- A RAM byte reads as it was last written, and a write changes no other byte that is not a device's (20_memory.md
R58). -/
def Obligations.RamReadAfterWrite : Prop :=
  ∀ (s : State) (a x : Word) (b : Byte), route s.cfg a = .ram →
    readByte (busSet a b s) a = b ∧
    (isDeviceByte s.cfg x = false → x ≠ a → readByte (busSet a b s) x = readByte s x)

/-- An unmapped address reads 0x00 with no effect, and a write to it has no effect (20_memory.md R53, R54). -/
def Obligations.UnmappedAccesses : Prop :=
  ∀ (s : State) (a : Word) (b : Byte), route s.cfg a = .unmapped → busGet a s = (0x00, s) ∧ busSet a b s = s

/-- `MemRead` composes consecutive byte reads, addresses modulo 2^32, the first the least significant; outside the
device windows it has no effect (20_memory.md R55, R66). -/
def Obligations.MemReadIsLittleEndian : Prop :=
  ∀ (s : State) (a : Word),
    (noDevice s.cfg a 1 → memRead a 1 s = (BitVec.ofNat 32 (readByte s a).toNat, s)) ∧
    (noDevice s.cfg a 2 →
      memRead a 2 s = (BitVec.ofNat 32 ((readByte s a).toNat + (readByte s (a + 1)).toNat * 2 ^ 8), s)) ∧
    (noDevice s.cfg a 4 →
      memRead a 4 s = (BitVec.ofNat 32 ((readByte s a).toNat + (readByte s (a + 1)).toNat * 2 ^ 8 +
        (readByte s (a + 2)).toNat * 2 ^ 16 + (readByte s (a + 3)).toNat * 2 ^ 24), s))

/-- In the RAM, `MemRead` gives back the low bytes that `MemWrite` wrote, and no byte outside them changed, at every
address, aligned or not (20_memory.md R55, R56, R58, R65). -/
def Obligations.MemWriteThenMemRead : Prop :=
  ∀ (s : State) (a v : Word) (n : Nat), (n = 1 ∨ n = 2 ∨ n = 4) → allRam s.cfg a n →
    (memRead a n (memWrite a n v s)).1.toNat = v.toNat % 2 ^ (8 * n) ∧
    memorySameOutside s (memWrite a n v s) a n

/-- Byte `k` of register `r` reads at `CPU_BASE + 4 * index + k`; a host write there replaces that byte of the register,
PC and FL included, changes no other register, and no memory (20_memory.md R59, R60, R61). -/
def Obligations.CpuWindowShowsTheRegisters : Prop :=
  ∀ (s : State) (r : Reg) (k : Nat) (b : Byte), s.cfg.wf → k < 4 →
    ∃ a t, a = s.cfg.cpuBase + BitVec.ofNat 32 (4 * r.number + k) ∧ hostOperation (.set a b) s = (.done, t) ∧
      readByte s a = byteOf (s.reg r) k ∧
      (∀ j, j < 4 → byteOf (t.reg r) j = if j = k then b else byteOf (s.reg r) j) ∧
      registersSameBut s t [r] ∧ memorySame s t ∧ t.fault = s.fault

/-- An access to an opaque device is recorded with its offset; of the rest, only the signalled lines may change, by the
device's own line joining them (20_memory.md R62; 60_exceptions.md R310). The list of accesses is the model's choice, log entries 3
and 4. -/
def Obligations.DeviceAccessesAreRecorded : Prop :=
  ∀ (s : State) (a : Word) (b : Byte) (k o : Nat), route s.cfg a = .device k o →
    (busGet a s).2.devices = .read k o :: s.devices ∧ (busSet a b s).devices = .write k o b :: s.devices ∧
    (busGet a s).2.regs = s.regs ∧ (busSet a b s).regs = s.regs ∧
    (busGet a s).2.mem = s.mem ∧ (busSet a b s).mem = s.mem ∧
    controlSame s (busGet a s).2 ∧ controlSame s (busSet a b s) ∧
    (∀ j, j ∈ s.signalled → j ∈ (busGet a s).2.signalled ∧ j ∈ (busSet a b s).signalled) ∧
    (∀ j, j ∈ (busGet a s).2.signalled → j ∈ s.signalled ∨ lineOf s.cfg k = some j) ∧
    (∀ j, j ∈ (busSet a b s).signalled → j ∈ s.signalled ∨ lineOf s.cfg k = some j)

/-- What `CheckWrites` looks for: a data write that touches offsets 56 to 63 of the CPU window, and a stack write that
touches any of its 64 bytes (20_memory.md R61; 40_cycle.md R138). -/
def Obligations.CheckWritesRanges : Prop :=
  ∀ (c : Config) (a : Word) (n : Nat), c.wf →
    (dataWriteFatal c a n = true ↔ touchesCpuWindow c 56 64 a n) ∧
    (stackWriteFatal c a n = true ↔ touchesCpuWindow c 0 64 a n)

/-- `SetFlags(r, y, v)` (40_cycle.md R130): Y and V as given, Z, S and P from the result, every other bit of FL kept;
with register destination FL it is not performed. -/
def Obligations.SetFlagsComputesTheFlags : Prop :=
  ∀ (s : State) (len : Nat) (r : Word) (y v : Bool),
    flagsOfResult (s.setFlags r y v) r y v ∧ otherFlagsSame s (s.setFlags r y v) ∧
    registersSameBut s (s.setFlags r y v) [.FL] ∧ (s.writeResult len .FL r y v).reg .FL = r

/-! ### Moves -/

/-- The instruction completes with register destination `d`, result `r` and no device access. -/
def completesWith (i : Instr) (s : State) (len : Nat) (d : Reg) (r : Word) (y v : Bool) : Prop :=
  ∃ t, exec i s = .next t ∧ writesRegister s t len d r y v ∧ devicesSame s t

/-- `mov` moves a register or a zero-extended immediate into a register, PC and FL included, and sets the flags with
Y = V = 0 (41_move.md R150, R151). -/
def Obligations.MovWritesItsSource : Prop :=
  ∀ (s : State) (d r : Reg) (b : Byte) (h : Half) (w : Word),
    completesWith (.movRR d r) s 3 d (s.reg r) false false ∧
    completesWith (.movRI8 d b) s 3 d (BitVec.ofNat 32 b.toNat) false false ∧
    completesWith (.movRI16 d h) s 4 d (BitVec.ofNat 32 h.toNat) false false ∧
    completesWith (.movRI32 d w) s 6 d w false false

/-- A load of `w` bytes from `ea` into `d`. -/
def loads (i : Instr) (s : State) (len w : Nat) (d : Reg) (ea : Word) : Prop :=
  ∃ t, exec i s = .next t ∧ writesRegister s t len d (memRead ea w s).1 false false ∧ devicesAsIn (memRead ea w s).2 t

/-- `movb`, `movw` and `movd` into a register load 1, 2 or 4 bytes, zero-extended, from the value of a register or from
an absolute address (41_move.md R150, R152 to R154; R156, which the spec marks as derived, where the two registers are
one). -/
def Obligations.LoadsReadMemory : Prop :=
  ∀ (s : State) (d r : Reg) (q : Word),
    loads (.movbRMr d r) s 3 1 d (s.reg r) ∧ loads (.movbRMa d q) s 6 1 d q ∧
    loads (.movwRMr d r) s 3 2 d (s.reg r) ∧ loads (.movwRMa d q) s 6 2 d q ∧
    loads (.movdRMr d r) s 3 4 d (s.reg r) ∧ loads (.movdRMa d q) s 6 4 d q

/-- A store at `ea` of the low `w` bytes of `v`, which was read before (leaving `s1`), completes when `CheckWrites` lets
it. -/
def stores (i : Instr) (s s1 : State) (len w : Nat) (ea v : Word) : Prop :=
  dataWriteFatal s.cfg ea w = false → ∃ t, exec i s = .next t ∧ storesBytes s t s1 len w ea v

/-- `movb`, `movw` and `movd` from a register or an immediate store 1, 2 or 4 bytes at the value of a register or at an
absolute address, and set the flags from the value moved (41_move.md R150, R152 to R154). -/
def Obligations.StoresWriteMemory : Prop :=
  ∀ (s : State) (d r : Reg) (p : Word) (b : Byte) (h : Half) (w : Word),
    stores (.movbMrR d r) s s 3 1 (s.reg d) (s.reg r) ∧ stores (.movbMaR p r) s s 6 1 p (s.reg r) ∧
    stores (.movbMrI8 d b) s s 3 1 (s.reg d) (BitVec.ofNat 32 b.toNat) ∧
    stores (.movbMaI8 p b) s s 6 1 p (BitVec.ofNat 32 b.toNat) ∧
    stores (.movwMrR d r) s s 3 2 (s.reg d) (s.reg r) ∧ stores (.movwMaR p r) s s 6 2 p (s.reg r) ∧
    stores (.movwMrI16 d h) s s 4 2 (s.reg d) (BitVec.ofNat 32 h.toNat) ∧
    stores (.movwMaI16 p h) s s 7 2 p (BitVec.ofNat 32 h.toNat) ∧
    stores (.movdMrR d r) s s 3 4 (s.reg d) (s.reg r) ∧ stores (.movdMaR p r) s s 6 4 p (s.reg r) ∧
    stores (.movdMrI32 d w) s s 6 4 (s.reg d) w ∧ stores (.movdMaI32 p w) s s 9 4 p w

/-- A move of `w` bytes from memory at `src` to memory at `ea`: the whole source is read before the destination is
written (41_move.md R155). -/
def movesMemory (i : Instr) (s : State) (len w : Nat) (ea src : Word) : Prop :=
  stores i s (memRead src w s).2 len w ea (memRead src w s).1

/-- The memory-to-memory forms of `movb`, `movw` and `movd` (41_move.md R152 to R155): the destination address is formed
at the start of Execute and the ranges may overlap. -/
def Obligations.MemoryToMemoryMoves : Prop :=
  ∀ (s : State) (d r : Reg) (p q : Word),
    movesMemory (.movbMrMr d r) s 3 1 (s.reg d) (s.reg r) ∧ movesMemory (.movbMrMa d q) s 6 1 (s.reg d) q ∧
    movesMemory (.movbMaMr p r) s 6 1 p (s.reg r) ∧ movesMemory (.movbMaMa p q) s 9 1 p q ∧
    movesMemory (.movwMrMr d r) s 3 2 (s.reg d) (s.reg r) ∧ movesMemory (.movwMrMa d q) s 6 2 (s.reg d) q ∧
    movesMemory (.movwMaMr p r) s 6 2 p (s.reg r) ∧ movesMemory (.movwMaMa p q) s 9 2 p q ∧
    movesMemory (.movdMrMr d r) s 3 4 (s.reg d) (s.reg r) ∧ movesMemory (.movdMrMa d q) s 6 4 (s.reg d) q ∧
    movesMemory (.movdMaMr p r) s 6 4 p (s.reg r) ∧ movesMemory (.movdMaMa p q) s 9 4 p q

/-- A store at `ea` of `w` bytes that `CheckWrites` turns away. -/
def storeIsFatal (i : Instr) (s : State) (w : Nat) (ea : Word) : Prop :=
  dataWriteFatal s.cfg ea w = true →
    ∃ t, exec i s = .next t ∧ raisesOnly s t (.cpuWindowWrite (s.reg .PC) ea)

/-- Every form that stores raises CpuWindowWrite, before it reads or writes anything, when a byte it would store is one
of the PC or FL slot (20_memory.md R61; 40_cycle.md R138; 60_exceptions.md R304). That the info's address is the first
of the stored range is the model's reading, log entry 7, and that a fatal condition is a next state its choice, log
entry 6. -/
def Obligations.StoreOntoPcOrFlSlotIsFatal : Prop :=
  ∀ (s : State) (d r : Reg) (p q : Word) (b : Byte) (h : Half) (w : Word),
    storeIsFatal (.movbMrR d r) s 1 (s.reg d) ∧ storeIsFatal (.movbMrI8 d b) s 1 (s.reg d) ∧
    storeIsFatal (.movbMrMr d r) s 1 (s.reg d) ∧ storeIsFatal (.movbMrMa d q) s 1 (s.reg d) ∧
    storeIsFatal (.movbMaR p r) s 1 p ∧ storeIsFatal (.movbMaI8 p b) s 1 p ∧
    storeIsFatal (.movbMaMr p r) s 1 p ∧ storeIsFatal (.movbMaMa p q) s 1 p ∧
    storeIsFatal (.movwMrR d r) s 2 (s.reg d) ∧ storeIsFatal (.movwMrI16 d h) s 2 (s.reg d) ∧
    storeIsFatal (.movwMrMr d r) s 2 (s.reg d) ∧ storeIsFatal (.movwMrMa d q) s 2 (s.reg d) ∧
    storeIsFatal (.movwMaR p r) s 2 p ∧ storeIsFatal (.movwMaI16 p h) s 2 p ∧
    storeIsFatal (.movwMaMr p r) s 2 p ∧ storeIsFatal (.movwMaMa p q) s 2 p ∧
    storeIsFatal (.movdMrR d r) s 4 (s.reg d) ∧ storeIsFatal (.movdMrI32 d w) s 4 (s.reg d) ∧
    storeIsFatal (.movdMrMr d r) s 4 (s.reg d) ∧ storeIsFatal (.movdMrMa d q) s 4 (s.reg d) ∧
    storeIsFatal (.movdMaR p r) s 4 p ∧ storeIsFatal (.movdMaI32 p w) s 4 p ∧
    storeIsFatal (.movdMaMr p r) s 4 p ∧ storeIsFatal (.movdMaMa p q) s 4 p

/-! ### The ALU -/

/-- The four source forms of a two-operand ALU instruction (42_alu.md R180): each form `f0` to `f3` completes with the
result `g a b`, where `b` is the register's value or the zero-extended immediate. -/
def aluForms (f0 : Reg → Reg → Instr) (f1 : Reg → Byte → Instr) (f2 : Reg → Half → Instr) (f3 : Reg → Word → Instr)
    (ok : Instr → State → Nat → Reg → Word → Prop) : Prop :=
  ∀ (s : State) (d r : Reg) (b : Byte) (h : Half) (w : Word),
    ok (f0 d r) s 3 d (s.reg r) ∧ ok (f1 d b) s 3 d (BitVec.ofNat 32 b.toNat) ∧
    ok (f2 d h) s 4 d (BitVec.ofNat 32 h.toNat) ∧ ok (f3 d w) s 6 d w

/-- `or`, `xor`, `and` and `not`: the bitwise result, with Y = V = 0 (42_alu.md R180 to R183, R186). -/
def Obligations.LogicResults : Prop :=
  aluForms .orRR .orRI8 .orRI16 .orRI32
    (fun i s len d b => completesWith i s len d (s.reg d ||| b) false false) ∧
  aluForms .xorRR .xorRI8 .xorRI16 .xorRI32
    (fun i s len d b => completesWith i s len d (s.reg d ^^^ b) false false) ∧
  aluForms .andRR .andRI8 .andRI16 .andRI32
    (fun i s len d b => completesWith i s len d (s.reg d &&& b) false false) ∧
  (∀ (s : State) (d : Reg), completesWith (.notR d) s 2 d (~~~(s.reg d)) false false)

/-- `shl` and `shr` use the whole 32-bit count, unmasked: 32 or more gives 0 (42_alu.md R184, R185). -/
def Obligations.ShiftResults : Prop :=
  ∀ (s : State) (d r : Reg) (b : Byte),
    completesWith (.shlRR d r) s 3 d
      (if 32 ≤ (s.reg r).toNat then 0 else s.reg d <<< (s.reg r).toNat) false false ∧
    completesWith (.shlRI8 d b) s 3 d (if 32 ≤ b.toNat then 0 else s.reg d <<< b.toNat) false false ∧
    completesWith (.shrRR d r) s 3 d
      (if 32 ≤ (s.reg r).toNat then 0 else s.reg d >>> (s.reg r).toNat) false false ∧
    completesWith (.shrRI8 d b) s 3 d (if 32 ≤ b.toNat then 0 else s.reg d >>> b.toNat) false false

/-- The exact signed result does not fit in 32 bits (40_cycle.md R132, `Vover`). -/
def signedOverflow (z : Int) : Bool := decide (z < -2147483648 ∨ 2147483647 < z)

/-- `add`, `sub`, `inc` and `dec`: the result modulo 2^32, Y the carry or the borrow, V the signed overflow
(42_alu.md R187, R188, R193, R194; 40_cycle.md R132). -/
def Obligations.AddAndSubtractResults : Prop :=
  aluForms .addRR .addRI8 .addRI16 .addRI32
    (fun i s len d b => completesWith i s len d (s.reg d + b) (decide (2 ^ 32 ≤ (s.reg d).toNat + b.toNat))
      (signedOverflow ((s.reg d).toInt + b.toInt))) ∧
  aluForms .subRR .subRI8 .subRI16 .subRI32
    (fun i s len d b => completesWith i s len d (s.reg d - b) (decide ((s.reg d).toNat < b.toNat))
      (signedOverflow ((s.reg d).toInt - b.toInt))) ∧
  (∀ (s : State) (d : Reg),
    completesWith (.incR d) s 2 d (s.reg d + 1) (decide (s.reg d = 0xFFFFFFFF)) (decide (s.reg d = 0x7FFFFFFF)) ∧
    completesWith (.decR d) s 2 d (s.reg d - 1) (decide (s.reg d = 0)) (decide (s.reg d = 0x80000000)))

/-- `mul`: the low 32 bits; Y when the unsigned product needs more than 32 bits, V when the signed product does not fit
(42_alu.md R190). -/
def Obligations.MultiplyResults : Prop :=
  aluForms .mulRR .mulRI8 .mulRI16 .mulRI32
    (fun i s len d b => completesWith i s len d (BitVec.ofNat 32 ((s.reg d).toNat * b.toNat))
      (decide (2 ^ 32 ≤ (s.reg d).toNat * b.toNat)) (signedOverflow ((s.reg d).toInt * b.toInt)))

/-- The bit formulas for V agree with the exact definition (40_cycle.md R132; 93_implementation_defined.md I1). -/
def Obligations.OverflowBitFormulas : Prop :=
  ∀ a b : Word,
    (aluAdd a b).v = (decide (a.getLsbD 31 = b.getLsbD 31) && decide ((aluAdd a b).r.getLsbD 31 ≠ a.getLsbD 31)) ∧
    (aluSub a b).v = (decide (a.getLsbD 31 ≠ b.getLsbD 31) && decide ((aluSub a b).r.getLsbD 31 ≠ a.getLsbD 31))

/-- `cmp` writes no register but FL: the flags of the subtraction, and GT and LT by `CMP_MODE`; T and bits 31:8 of FL
are kept; PC is advanced, whatever register is compared (42_alu.md R189). -/
def compares (i : Instr) (s : State) (len : Nat) (d : Reg) (b : Word) : Prop :=
  ∃ t, exec i s = .next t ∧
    flagsOfResult t (s.reg d - b) (decide ((s.reg d).toNat < b.toNat)) (signedOverflow ((s.reg d).toInt - b.toInt)) ∧
    (s.cfg.cmpMode = .signed →
      t.flag .GT = decide (b.toInt < (s.reg d).toInt) ∧ t.flag .LT = decide ((s.reg d).toInt < b.toInt)) ∧
    (s.cfg.cmpMode = .unsigned →
      t.flag .GT = decide (b.toNat < (s.reg d).toNat) ∧ t.flag .LT = decide ((s.reg d).toNat < b.toNat)) ∧
    t.flag .T = s.flag .T ∧ (t.reg .FL).extractLsb' 8 24 = (s.reg .FL).extractLsb' 8 24 ∧
    t.reg .PC = s.reg .PC + BitVec.ofNat 32 len ∧ registersSameBut s t [.PC, .FL] ∧
    controlSame s t ∧ memorySame s t ∧ devicesSame s t

/-- The four forms of `cmp` (42_alu.md R189). -/
def Obligations.CompareSetsTheFlags : Prop :=
  aluForms .cmpRR .cmpRI8 .cmpRI16 .cmpRI32 compares

/-- A division by a divisor that is not 0, in each `DIV_MODE`: the unsigned quotient or remainder, or the signed ones
rounding towards zero, with V set only by the signed quotient that does not fit (42_alu.md R191, R192). -/
def divides (quotient : Bool) (i : Instr) (s : State) (len : Nat) (d : Reg) (b : Word) : Prop :=
  b ≠ 0 →
    (s.cfg.divMode = .unsigned →
      completesWith i s len d
        (BitVec.ofNat 32 (if quotient then (s.reg d).toNat / b.toNat else (s.reg d).toNat % b.toNat)) false false) ∧
    (s.cfg.divMode = .signed →
      completesWith i s len d
        (BitVec.ofInt 32 (if quotient then Int.tdiv (s.reg d).toInt b.toInt else Int.tmod (s.reg d).toInt b.toInt))
        false (quotient && decide (s.reg d = 0x80000000 ∧ b = 0xFFFFFFFF)))

/-- The forms of `idiv` and `mod` with a divisor that is not 0 (42_alu.md R191, R192). -/
def Obligations.DivisionResults : Prop :=
  aluForms .idivRR .idivRI8 .idivRI16 .idivRI32 (divides true) ∧
  aluForms .modRR .modRI8 .modRI16 .modRI32 (divides false)

/-- Quotient and remainder of the same operands satisfy a = q * b + r modulo 2^32, in either mode (42_alu.md R192). -/
def Obligations.QuotientAndRemainder : Prop :=
  ∀ (mode : Signedness) (a b : Word), b ≠ 0 → a = (aluDiv mode a b).r * b + (aluMod mode a b).r

/-- A division by 0: fatal, and nothing is written. The info's opcode is the row's own. -/
def divisionIsFatal (i : Instr) (s : State) (_len : Nat) (_d : Reg) (b : Word) : Prop :=
  b = 0 → ∀ op, s.cfg.opcodes.opcodeOf i.row = some op →
    ∃ t, exec i s = .next t ∧ raisesOnly s t (.divideByZero (s.reg .PC) op)

/-- `idiv` and `mod` by 0 raise DivideByZero in every form, for any dividend (42_alu.md R191, R192; 60_exceptions.md
R303). The info's opcode is taken from the map (log entry 17); that a fatal condition is a next state is the model's
choice, log entry 6. -/
def Obligations.DivisionByZeroIsFatal : Prop :=
  aluForms .idivRR .idivRI8 .idivRI16 .idivRI32 divisionIsFatal ∧
  aluForms .modRR .modRI8 .modRI16 .modRI32 divisionIsFatal

/-! ### Control transfer and the stack -/

/-- A branch of `len` bytes to `target`, taken when `c` holds: PC alone changes. -/
def branches (i : Instr) (s : State) (len : Nat) (target : Word) (c : Bool) : Prop :=
  ∃ t, exec i s = .next t ∧ onlyPcChanges s t (if c then target else s.reg .PC + BitVec.ofNat 32 len)

/-- The conditional branches: the flag each reads, the absolute target, and the length (43_control.md R230 to R240). -/
def Obligations.ConditionalBranches : Prop :=
  ∀ (s : State) (d : Reg) (v : Word),
    branches (.bzR d) s 2 (s.reg d) (s.flag .Z) ∧ branches (.bzI32 v) s 5 v (s.flag .Z) ∧
    branches (.bnzR d) s 2 (s.reg d) (!s.flag .Z) ∧ branches (.bnzI32 v) s 5 v (!s.flag .Z) ∧
    branches (.bnegR d) s 2 (s.reg d) (s.flag .S) ∧ branches (.bnegI32 v) s 5 v (s.flag .S) ∧
    branches (.bposR d) s 2 (s.reg d) (!s.flag .S) ∧ branches (.bposI32 v) s 5 v (!s.flag .S) ∧
    branches (.bgtR d) s 2 (s.reg d) (s.flag .GT) ∧ branches (.bgtI32 v) s 5 v (s.flag .GT) ∧
    branches (.bgteR d) s 2 (s.reg d) (!s.flag .LT) ∧ branches (.bgteI32 v) s 5 v (!s.flag .LT) ∧
    branches (.bltR d) s 2 (s.reg d) (s.flag .LT) ∧ branches (.bltI32 v) s 5 v (s.flag .LT) ∧
    branches (.blteR d) s 2 (s.reg d) (!s.flag .GT) ∧ branches (.blteI32 v) s 5 v (!s.flag .GT) ∧
    branches (.bvR d) s 2 (s.reg d) (s.flag .V) ∧ branches (.bvI32 v) s 5 v (s.flag .V) ∧
    branches (.bnvR d) s 2 (s.reg d) (!s.flag .V) ∧ branches (.bnvI32 v) s 5 v (!s.flag .V)

/-- `jmp` sets PC to its target and `nop` advances it by 1; nothing else changes (43_control.md R241; 44_stack_misc.md
R262). -/
def Obligations.JumpsAndNop : Prop :=
  ∀ (s : State) (d : Reg) (v : Word),
    (∃ t, exec (.jmpR d) s = .next t ∧ onlyPcChanges s t (s.reg d)) ∧
    (∃ t, exec (.jmpI32 v) s = .next t ∧ onlyPcChanges s t v) ∧
    (∃ t, exec .nop s = .next t ∧ onlyPcChanges s t (s.reg .PC + 1))

/-- The instruction pushes `v`, leaves PC at `target`, and changes no register but SP and PC. -/
def pushesAndGoes (i : Instr) (s : State) (v target : Word) : Prop :=
  stackWriteFatal s.cfg (s.reg .SP - 4) 4 = false →
    ∃ t, exec i s = .next t ∧ pushed s t v ∧ t.reg .PC = target ∧ registersSameBut s t [.SP, .PC]

/-- `push` pushes its operand as it was before SP changed; `call` pushes the address of the next instruction and goes to
its target, read before SP changed (44_stack_misc.md R260; 43_control.md R242; 40_cycle.md R133). -/
def Obligations.PushAndCall : Prop :=
  ∀ (s : State) (d : Reg) (v : Word),
    pushesAndGoes (.pushR d) s (s.reg d) (s.reg .PC + 2) ∧ pushesAndGoes (.pushI32 v) s v (s.reg .PC + 5) ∧
    pushesAndGoes (.callR d) s (s.reg .PC + 2) (s.reg d) ∧ pushesAndGoes (.callI32 v) s (s.reg .PC + 5) v

/-- `push` and `call` whose stack range touches the CPU window raise CpuWindowWrite before anything is written
(20_memory.md R61; 40_cycle.md R138; 60_exceptions.md R304). That the info's address is the first of the stack range is
the model's reading, log entry 7, and that a fatal condition is a next state its choice, log entry 6. -/
def Obligations.PushAndCallOntoCpuWindow : Prop :=
  ∀ (s : State) (d : Reg) (v : Word) (i : Instr), i = .pushR d ∨ i = .pushI32 v ∨ i = .callR d ∨ i = .callI32 v →
    stackWriteFatal s.cfg (s.reg .SP - 4) 4 = true →
    ∃ t, exec i s = .next t ∧ raisesOnly s t (.cpuWindowWrite (s.reg .PC) (s.reg .SP - 4))

/-- `pop d` reads the word at SP, adds 4 to SP, then writes `d`: into SP it overrides the increment, into PC it is a
jump, into FL it is a whole-FL write; `ret` pops PC. No flag is computed (44_stack_misc.md R261; 43_control.md R243;
40_cycle.md R134). -/
def Obligations.PopAndRet : Prop :=
  ∀ (s : State) (d : Reg),
    (∃ t, exec (.popR d) s = .next t ∧ t.reg d = (memRead (s.reg .SP) 4 s).1 ∧
      (d ≠ .SP → t.reg .SP = s.reg .SP + 4) ∧ (d ≠ .PC → t.reg .PC = s.reg .PC + 2) ∧
      registersSameBut s t [d, .SP, .PC] ∧ controlSame s t ∧ memorySame s t ∧
      devicesAsIn (memRead (s.reg .SP) 4 s).2 t) ∧
    (∃ t, exec .ret s = .next t ∧ t.reg .PC = (memRead (s.reg .SP) 4 s).1 ∧ t.reg .SP = s.reg .SP + 4 ∧
      registersSameBut s t [.SP, .PC] ∧ controlSame s t ∧ memorySame s t ∧
      devicesAsIn (memRead (s.reg .SP) 4 s).2 t)

/-- FL is popped whole, then PC, the second word being read at the SP the first pop left and in the state it left. -/
def returnsFromInterrupt (i : Instr) (s : State) : Prop :=
  ∃ t s1 s2 fl pc, memRead (s.reg .SP) 4 s = (fl, s1) ∧
    memRead (s.reg .SP + 4) 4 ((s1.setReg .SP (s.reg .SP + 4)).setReg .FL fl) = (pc, s2) ∧
    exec i s = .next t ∧ t.reg .FL = fl ∧ t.reg .PC = pc ∧ t.reg .SP = s.reg .SP + 8 ∧
    registersSameBut s t [.SP, .PC, .FL] ∧ controlSame s t ∧ memorySame s t ∧ devicesAsIn s2 t

/-- `iret` and `sret` have the same effect (43_control.md R244, R245). -/
def Obligations.ReturnsFromInterrupt : Prop :=
  ∀ s : State, returnsFromInterrupt .iret s ∧ returnsFromInterrupt .sret s

/-- `Pop32` undoes `Push32` where the 4 bytes are RAM: the value comes back and every register is as before
(40_cycle.md R134). -/
def Obligations.PopUndoesPush : Prop :=
  ∀ (s : State) (v : Word), allRam s.cfg (s.reg .SP - 4) 4 →
    (s.push32 v).pop32.1 = v ∧ ∀ r, (s.push32 v).pop32.2.reg r = s.reg r

/-! ### The text codec -/

/-- No row with a narrower immediate would do: the immediate's digits are those the assembler would choose
(30_encoding.md R92, R100). -/
def narrowest (i : Instr) : Bool :=
  i.operands.all (fun o =>
    match o with
    | .imm16 v => decide (2 ^ 8 ≤ v.toNat) || !(i.parts.1.shapes.contains [.reg, .imm8])
    | .imm32 v => decide (2 ^ 16 ≤ v.toNat) || !(i.parts.1.shapes.contains [.reg, .imm16])
    | _ => true)

/-- Assembling the canonical text of an instruction gives its bytes, when no narrower row would do (30_encoding.md R92,
R94, R96, R100). -/
def Obligations.AssemblerInvertsDisassembler : Prop :=
  ∀ i : Instr, narrowest i = true → encodeText defaultOpcodeMap i.text = .bytes (encode i)

/-- The disassembler shows, for the bytes of an instruction, its canonical text and its length, and outside the device
windows changes nothing (30_encoding.md R95, R96, R97). -/
def Obligations.DisassemblerShowsTheInstruction : Prop :=
  ∀ (s : State) (a : Word) (i : Instr) (bs : List Byte), s.cfg.opcodes.wf → noDevice s.cfg a i.length →
    encodeWith s.cfg.opcodes i = some bs → bytesAt s a i.length = bs →
    decodeAt a s = ((i.text, i.length), s)
end

