-- ==== Sys2Proof/Laws/State.lean ====
section
/-! SUPPORT. The small lemmas of State, of the register file and of the flags: one per field per update, so that no
later proof unfolds a record update. -/

namespace Sys2Proof.Machine

/-! ### The register file -/

@[simp] theorem Regs.get_set (x : Regs) (r q : Reg) (v : Word) :
    (x.set r v).get q = if q = r then v else x.get q := by
  cases r <;> cases q <;> rfl

theorem Regs.ext_get (x y : Regs) (h : ∀ r, x.get r = y.get r) : x = y := by
  cases x; cases y
  simp only [Regs.mk.injEq]
  exact ⟨h .A, h .B, h .C, h .D, h .E, h .F, h .G, h .H, h .I, h .J, h .K, h .L, h .FP, h .SP, h .PC, h .FL⟩

@[simp] theorem reg_setReg (s : State) (r q : Reg) (v : Word) :
    (s.setReg r v).reg q = if q = r then v else s.reg q := Regs.get_set s.regs r q v

/-! ### setReg -/

@[simp] theorem setReg_cfg (s : State) (r : Reg) (v : Word) : (s.setReg r v).cfg = s.cfg := rfl
@[simp] theorem setReg_mem (s : State) (r : Reg) (v : Word) : (s.setReg r v).mem = s.mem := rfl
@[simp] theorem setReg_pending (s : State) (r : Reg) (v : Word) : (s.setReg r v).pending = s.pending := rfl
@[simp] theorem setReg_signalled (s : State) (r : Reg) (v : Word) : (s.setReg r v).signalled = s.signalled := rfl
@[simp] theorem setReg_fault (s : State) (r : Reg) (v : Word) : (s.setReg r v).fault = s.fault := rfl
@[simp] theorem setReg_running (s : State) (r : Reg) (v : Word) : (s.setReg r v).running = s.running := rfl
@[simp] theorem setReg_devices (s : State) (r : Reg) (v : Word) : (s.setReg r v).devices = s.devices := rfl

/-! ### fatal -/

@[simp] theorem fatal_cfg (s : State) (m : FaultMark) : (s.fatal m).cfg = s.cfg := rfl
@[simp] theorem fatal_regs (s : State) (m : FaultMark) : (s.fatal m).regs = s.regs := rfl
@[simp] theorem fatal_mem (s : State) (m : FaultMark) : (s.fatal m).mem = s.mem := rfl
@[simp] theorem fatal_pending (s : State) (m : FaultMark) : (s.fatal m).pending = s.pending := rfl
@[simp] theorem fatal_signalled (s : State) (m : FaultMark) : (s.fatal m).signalled = [] := rfl
@[simp] theorem fatal_devices (s : State) (m : FaultMark) : (s.fatal m).devices = s.devices := rfl

@[simp] theorem fatal_fault (s : State) (m : FaultMark) : (s.fatal m).fault = some m := rfl
@[simp] theorem fatal_running (s : State) (m : FaultMark) : (s.fatal m).running = .stopped := rfl
@[simp] theorem fatal_reg (s : State) (m : FaultMark) (r : Reg) : (s.fatal m).reg r = s.reg r := rfl

/-! ### advance -/

@[simp] theorem advance_cfg (s : State) (n : Nat) : (s.advance n).cfg = s.cfg := rfl
@[simp] theorem advance_mem (s : State) (n : Nat) : (s.advance n).mem = s.mem := rfl
@[simp] theorem advance_pending (s : State) (n : Nat) : (s.advance n).pending = s.pending := rfl
@[simp] theorem advance_signalled (s : State) (n : Nat) : (s.advance n).signalled = s.signalled := rfl
@[simp] theorem advance_fault (s : State) (n : Nat) : (s.advance n).fault = s.fault := rfl
@[simp] theorem advance_running (s : State) (n : Nat) : (s.advance n).running = s.running := rfl
@[simp] theorem advance_devices (s : State) (n : Nat) : (s.advance n).devices = s.devices := rfl

/-! ### jump -/

@[simp] theorem jump_cfg (s : State) (v : Word) : (s.jump v).cfg = s.cfg := rfl
@[simp] theorem jump_mem (s : State) (v : Word) : (s.jump v).mem = s.mem := rfl
@[simp] theorem jump_pending (s : State) (v : Word) : (s.jump v).pending = s.pending := rfl
@[simp] theorem jump_signalled (s : State) (v : Word) : (s.jump v).signalled = s.signalled := rfl
@[simp] theorem jump_fault (s : State) (v : Word) : (s.jump v).fault = s.fault := rfl
@[simp] theorem jump_running (s : State) (v : Word) : (s.jump v).running = s.running := rfl
@[simp] theorem jump_devices (s : State) (v : Word) : (s.jump v).devices = s.devices := rfl

/-! ### setFlag -/

@[simp] theorem setFlag_cfg (s : State) (f : Flag) (b : Bool) : (s.setFlag f b).cfg = s.cfg := rfl
@[simp] theorem setFlag_mem (s : State) (f : Flag) (b : Bool) : (s.setFlag f b).mem = s.mem := rfl
@[simp] theorem setFlag_pending (s : State) (f : Flag) (b : Bool) : (s.setFlag f b).pending = s.pending := rfl
@[simp] theorem setFlag_signalled (s : State) (f : Flag) (b : Bool) : (s.setFlag f b).signalled = s.signalled := rfl
@[simp] theorem setFlag_fault (s : State) (f : Flag) (b : Bool) : (s.setFlag f b).fault = s.fault := rfl
@[simp] theorem setFlag_running (s : State) (f : Flag) (b : Bool) : (s.setFlag f b).running = s.running := rfl
@[simp] theorem setFlag_devices (s : State) (f : Flag) (b : Bool) : (s.setFlag f b).devices = s.devices := rfl

/-! ### setFlags -/

@[simp] theorem setFlags_cfg (s : State) (r : Word) (y v : Bool) : (s.setFlags r y v).cfg = s.cfg := rfl
@[simp] theorem setFlags_mem (s : State) (r : Word) (y v : Bool) : (s.setFlags r y v).mem = s.mem := rfl
@[simp] theorem setFlags_pending (s : State) (r : Word) (y v : Bool) : (s.setFlags r y v).pending = s.pending := rfl
@[simp] theorem setFlags_signalled (s : State) (r : Word) (y v : Bool) : (s.setFlags r y v).signalled = s.signalled := rfl
@[simp] theorem setFlags_fault (s : State) (r : Word) (y v : Bool) : (s.setFlags r y v).fault = s.fault := rfl
@[simp] theorem setFlags_running (s : State) (r : Word) (y v : Bool) : (s.setFlags r y v).running = s.running := rfl
@[simp] theorem setFlags_devices (s : State) (r : Word) (y v : Bool) : (s.setFlags r y v).devices = s.devices := rfl

@[simp] theorem advance_reg (s : State) (n : Nat) (q : Reg) :
    (s.advance n).reg q = if q = .PC then s.reg .PC + BitVec.ofNat 32 n else s.reg q := reg_setReg ..
@[simp] theorem jump_reg (s : State) (v : Word) (q : Reg) :
    (s.jump v).reg q = if q = .PC then v else s.reg q := reg_setReg ..
@[simp] theorem setFlag_reg (s : State) (f : Flag) (b : Bool) (q : Reg) :
    (s.setFlag f b).reg q = if q = .FL then putFlag (s.reg .FL) f b else s.reg q := reg_setReg ..
@[simp] theorem setFlags_reg (s : State) (r : Word) (y v : Bool) (q : Reg) :
    (s.setFlags r y v).reg q = if q = .FL then flagsAfter (s.reg .FL) r y v else s.reg q := reg_setReg ..

/-! ### dropLine and mergeSignals -/

@[simp] theorem dropLine_cfg (s : State) (i : Nat) : (s.dropLine i).cfg = s.cfg := rfl
@[simp] theorem dropLine_regs (s : State) (i : Nat) : (s.dropLine i).regs = s.regs := rfl
@[simp] theorem dropLine_mem (s : State) (i : Nat) : (s.dropLine i).mem = s.mem := rfl
@[simp] theorem dropLine_signalled (s : State) (i : Nat) : (s.dropLine i).signalled = s.signalled := rfl
@[simp] theorem dropLine_fault (s : State) (i : Nat) : (s.dropLine i).fault = s.fault := rfl
@[simp] theorem dropLine_running (s : State) (i : Nat) : (s.dropLine i).running = s.running := rfl
@[simp] theorem dropLine_devices (s : State) (i : Nat) : (s.dropLine i).devices = s.devices := rfl

@[simp] theorem mergeSignals_cfg (s : State) : (s.mergeSignals).cfg = s.cfg := rfl
@[simp] theorem mergeSignals_regs (s : State) : (s.mergeSignals).regs = s.regs := rfl
@[simp] theorem mergeSignals_mem (s : State) : (s.mergeSignals).mem = s.mem := rfl
@[simp] theorem mergeSignals_fault (s : State) : (s.mergeSignals).fault = s.fault := rfl
@[simp] theorem mergeSignals_running (s : State) : (s.mergeSignals).running = s.running := rfl
@[simp] theorem mergeSignals_devices (s : State) : (s.mergeSignals).devices = s.devices := rfl

@[simp] theorem dropLine_pending (s : State) (i : Nat) :
    (s.dropLine i).pending = s.pending.filter (fun j => j != i) := rfl
@[simp] theorem dropLine_reg (s : State) (i : Nat) (r : Reg) : (s.dropLine i).reg r = s.reg r := rfl
@[simp] theorem mergeSignals_pending (s : State) : s.mergeSignals.pending = insertLines s.signalled s.pending := rfl
@[simp] theorem mergeSignals_signalled (s : State) : s.mergeSignals.signalled = [] := rfl
@[simp] theorem mergeSignals_reg (s : State) (r : Reg) : s.mergeSignals.reg r = s.reg r := rfl

/-! ### writeResult -/

@[simp] theorem writeResult_cfg (s : State) (n : Nat) (d : Reg) (r : Word) (y v : Bool) :
    (s.writeResult n d r y v).cfg = s.cfg := by cases d <;> rfl
@[simp] theorem writeResult_mem (s : State) (n : Nat) (d : Reg) (r : Word) (y v : Bool) :
    (s.writeResult n d r y v).mem = s.mem := by cases d <;> rfl
@[simp] theorem writeResult_pending (s : State) (n : Nat) (d : Reg) (r : Word) (y v : Bool) :
    (s.writeResult n d r y v).pending = s.pending := by cases d <;> rfl
@[simp] theorem writeResult_signalled (s : State) (n : Nat) (d : Reg) (r : Word) (y v : Bool) :
    (s.writeResult n d r y v).signalled = s.signalled := by cases d <;> rfl
@[simp] theorem writeResult_fault (s : State) (n : Nat) (d : Reg) (r : Word) (y v : Bool) :
    (s.writeResult n d r y v).fault = s.fault := by cases d <;> rfl
@[simp] theorem writeResult_running (s : State) (n : Nat) (d : Reg) (r : Word) (y v : Bool) :
    (s.writeResult n d r y v).running = s.running := by cases d <;> rfl
@[simp] theorem writeResult_devices (s : State) (n : Nat) (d : Reg) (r : Word) (y v : Bool) :
    (s.writeResult n d r y v).devices = s.devices := by cases d <;> rfl

/-- Everything `writeResult` does to the registers (42_alu.md R180). -/
theorem writeResult_reg (s : State) (n : Nat) (d : Reg) (r : Word) (y v : Bool) (q : Reg) :
    (s.writeResult n d r y v).reg q =
      if q = d then r
      else if q = .PC then s.reg .PC + BitVec.ofNat 32 n
      else if q = .FL then flagsAfter (s.reg .FL) r y v
      else s.reg q := by
  cases d <;> cases q <;> rfl

/-! ### The bits of FL -/

theorem getLsbD_putBit (w : Word) (n m : Nat) (b : Bool) (hn : n < 32) :
    (putBit w n b).getLsbD m = if m = n then b else w.getLsbD m := by
  by_cases hm : m < 32
  · by_cases hmn : m = n
    · subst hmn
      cases b <;> simp [putBit, hm]
    · by_cases hlt : m < n
      · cases b <;> simp [putBit, hm, hmn, hlt]
      · have h0 : ¬ m - n = 0 := by omega
        cases b <;> simp [putBit, hm, hmn, hlt, h0]
  · have h1 : w.getLsbD m = false := BitVec.getLsbD_of_ge w m (by omega)
    rw [BitVec.getLsbD_of_ge _ _ (by omega), h1, if_neg (by omega)]

theorem flag_bit_lt (f : Flag) : f.bit < 32 := by cases f <;> decide

theorem flag_bit_inj (f g : Flag) : f.bit = g.bit ↔ f = g := by cases f <;> cases g <;> decide

@[simp] theorem flagOf_putFlag (w : Word) (f g : Flag) (b : Bool) :
    flagOf (putFlag w f b) g = if g = f then b else flagOf w g := by
  simp only [flagOf, putFlag, getLsbD_putBit _ _ _ _ (flag_bit_lt f), flag_bit_inj]

/-- A flag write changes no bit but its own. -/
theorem getLsbD_putFlag (w : Word) (f : Flag) (b : Bool) (m : Nat) :
    (putFlag w f b).getLsbD m = if m = f.bit then b else w.getLsbD m :=
  getLsbD_putBit _ _ _ _ (flag_bit_lt f)

/-- Every flag after `SetFlags` (40_cycle.md R130). -/
theorem flagOf_flagsAfter (w r : Word) (y v : Bool) (f : Flag) :
    flagOf (flagsAfter w r y v) f =
      match f with
      | .Y => y | .V => v | .Z => r == 0 | .S => r.msb | .P => evenParity r
      | f => flagOf w f := by
  cases f <;> simp [flagsAfter]

/-- `SetFlags` keeps every bit from 8 on (10_state.md R27). -/
theorem getLsbD_flagsAfter (w r : Word) (y v : Bool) (m : Nat) (h : 8 ≤ m) :
    (flagsAfter w r y v).getLsbD m = w.getLsbD m := by
  have key : ∀ f : Flag, ¬ m = f.bit := fun f => by cases f <;> simp only [Flag.bit] <;> omega
  simp only [flagsAfter, getLsbD_putFlag, if_neg (key _)]

theorem flag_setReg (s : State) (d : Reg) (v : Word) (f : Flag) :
    (s.setReg d v).flag f = if d = .FL then flagOf v f else s.flag f := by
  cases d <;> rfl

end Sys2Proof.Machine
end

