-- ==== Sys2Proof/Laws/Memory.lean ====
section
/-! SUPPORT. The RAM's contents: a read after a write, the frame of a write, and the canonical form, which every
memory operation keeps. -/

namespace Sys2Proof.Machine

theorem memGet_memErase (a x : Nat) (m : List Host.Cell) :
    memGet x (memErase a m) = if x = a then unlistedByte else memGet x m := by
  induction m with
  | nil => simp [memErase, memGet]
  | cons c cs ih =>
    simp only [memErase] at ih
    by_cases hc : c.1 = a
    · by_cases hx : x = a
      · subst hx; simpa [memErase, memGet, hc] using ih
      · simpa [memErase, memGet, hc, hx, show ¬ a = x from fun h => hx h.symm] using ih
    · by_cases hx : x = a
      · subst hx; simpa [memErase, memGet, hc] using ih
      · simp [memErase, memGet, hc, hx, ih]

theorem memGet_memInsert (a x : Nat) (b : Byte) (m : List Host.Cell)
    (h : ∀ c ∈ m, c.1 ≠ a) :
    memGet x (memInsert a b m) = if x = a then b else memGet x m := by
  induction m with
  | nil => simp [memInsert, memGet, eq_comm]
  | cons c cs ih =>
    have hc : c.1 ≠ a := h c (by simp)
    have ih' := ih (fun d hd => h d (by simp [hd]))
    by_cases hlt : a < c.1
    · simp [memInsert, hlt, memGet, eq_comm]
    · by_cases hx : x = a
      · subst hx; simp [memInsert, hlt, memGet, hc, ih']
      · simp [memInsert, hlt, memGet, hx, ih']

theorem memErase_keys (a : Nat) (m : List Host.Cell) : ∀ c ∈ memErase a m, c.1 ≠ a := by
  intro c hc
  simp [memErase] at hc
  exact hc.2

/-- Read after write, and the frame of a write, whatever form the list has (20_memory.md R58). -/
theorem memGet_memSet (a x : Nat) (b : Byte) (m : List Host.Cell) :
    memGet x (memSet a b m) = if x = a then b else memGet x m := by
  unfold memSet
  by_cases hb : b = unlistedByte
  · simp only [hb, if_true]; exact memGet_memErase a x m
  · rw [if_neg hb, memGet_memInsert a x b _ (memErase_keys a m), memGet_memErase]
    by_cases hx : x = a <;> simp [hx]

/-! ### The canonical form -/

theorem memWfFrom_mono (lo lo' : Nat) (m : List Host.Cell) (h : memWfFrom lo m = true) (hl : lo' ≤ lo) :
    memWfFrom lo' m = true := by
  cases m with
  | nil => rfl
  | cons c cs => simp [memWfFrom] at h ⊢; exact ⟨⟨by omega, h.1.2⟩, h.2⟩

theorem memWfFrom_memErase (a lo : Nat) (m : List Host.Cell) (h : memWfFrom lo m = true) :
    memWfFrom lo (memErase a m) = true := by
  induction m generalizing lo with
  | nil => rfl
  | cons c cs ih =>
    simp [memWfFrom] at h
    have h2 := ih (c.1 + 1) h.2
    by_cases hc : c.1 = a
    · simp only [memErase, List.filter_cons, hc, bne_self_eq_false, Bool.false_eq_true, if_false]
      exact memWfFrom_mono _ _ _ h2 (by omega)
    · simp only [memErase, List.filter_cons, bne_iff_ne, ne_eq, hc, not_false_eq_true, if_true, memWfFrom,
        Bool.and_eq_true, decide_eq_true_eq]
      exact ⟨⟨h.1.1, h.1.2⟩, h2⟩

theorem memWfFrom_memInsert (a lo : Nat) (b : Byte) (m : List Host.Cell) (hb : b ≠ unlistedByte) (hlo : lo ≤ a)
    (hk : ∀ c ∈ m, c.1 ≠ a) (h : memWfFrom lo m = true) : memWfFrom lo (memInsert a b m) = true := by
  induction m generalizing lo with
  | nil => simp [memInsert, memWfFrom, hb, hlo]
  | cons c cs ih =>
    have hc : c.1 ≠ a := hk c (by simp)
    simp only [memWfFrom, Bool.and_eq_true, decide_eq_true_eq] at h
    by_cases hlt : a < c.1
    · simp only [memInsert, hlt, if_true, memWfFrom, Bool.and_eq_true, decide_eq_true_eq]
      exact ⟨⟨hlo, hb⟩, ⟨by omega, h.1.2⟩, h.2⟩
    · simp only [memInsert, hlt, if_false, memWfFrom, Bool.and_eq_true, decide_eq_true_eq]
      exact ⟨h.1, ih (c.1 + 1) (by omega) (fun d hd => hk d (by simp [hd])) h.2⟩

/-- Every write keeps the canonical form. -/
theorem memory_wf_memSet (a : Nat) (b : Byte) (m : List Host.Cell) (h : Memory.wf m = true) :
    Memory.wf (memSet a b m) = true := by
  unfold memSet Memory.wf at *
  by_cases hb : b = unlistedByte
  · rw [if_pos hb]; exact memWfFrom_memErase a 0 m h
  · rw [if_neg hb]
    exact memWfFrom_memInsert a 0 b _ hb (by omega) (memErase_keys a m) (memWfFrom_memErase a 0 m h)

/-- The memory of the reset state has the canonical form. -/
theorem memory_wf_reset : Memory.wf State.reset.mem = true := rfl

/-- A write lists no address but the one written. -/
theorem mem_memSet (a : Nat) (b : Byte) (m : List Host.Cell) (c : Host.Cell) (h : c ∈ memSet a b m) :
    c.1 = a ∨ c ∈ m := by
  unfold memSet at h
  have insertCase : ∀ l : List Host.Cell, c ∈ memInsert a b l → c.1 = a ∨ c ∈ l := by
    intro l
    induction l with
    | nil => simp [memInsert]; rintro rfl; rfl
    | cons d ds ih =>
      intro hm
      by_cases hlt : a < d.1
      · simp [memInsert, hlt] at hm
        rcases hm with rfl | hm
        · exact .inl rfl
        · exact .inr (by simpa using hm)
      · simp [memInsert, hlt] at hm
        rcases hm with rfl | hm
        · exact .inr (by simp)
        · rcases ih hm with h1 | h1
          · exact .inl h1
          · exact .inr (by simp [h1])
  by_cases hb : b = unlistedByte
  · rw [if_pos hb] at h
    exact .inr ((List.mem_filter.mp h).1)
  · rw [if_neg hb] at h
    rcases insertCase _ h with h1 | h1
    · exact .inl h1
    · exact .inr ((List.mem_filter.mp h1).1)

end Sys2Proof.Machine
end

