-- ==== Sys2Proof/Laws/Bus.lean ====
section
/-! SUPPORT. The bus: what an access can do, said once for each of busGet, busSet, busGetArray, memRead, busSetArray
and memWrite. -/

namespace Sys2Proof.Machine

/-! ### Addresses -/

theorem add_ofNat_succ (a : Word) (k : Nat) : a + 1 + BitVec.ofNat 32 k = a + BitVec.ofNat 32 (k + 1) := by
  rw [BitVec.add_assoc]; congr 1
  apply BitVec.eq_of_toNat_eq; simp; omega

theorem add_ofNat_zero (a : Word) : a + BitVec.ofNat 32 0 = a := by simp

theorem add_ofNat_inj (a : Word) (j k : Nat) (hj : j < 2 ^ 32) (hk : k < 2 ^ 32)
    (h : a + BitVec.ofNat 32 j = a + BitVec.ofNat 32 k) : j = k := by
  have h2 := congrArg BitVec.toNat ((BitVec.add_right_inj a).mp h)
  simp at h2
  omega

theorem rangeTouches_false (f : Word → Bool) (a : Word) (n : Nat) :
    rangeTouches f a n = false ↔ ∀ k, k < n → f (a + BitVec.ofNat 32 k) = false := by
  simp [rangeTouches, List.any_eq_false]

theorem rangeTouches_true (f : Word → Bool) (a : Word) (n : Nat) :
    rangeTouches f a n = true ↔ ∃ k, k < n ∧ f (a + BitVec.ofNat 32 k) = true := by
  simp [rangeTouches, List.any_eq_true]

/-! ### Device accesses -/

@[simp] theorem deviceAccess_cfg (s : State) (n : Nat) (e : DeviceEvent) : (s.deviceAccess n e).cfg = s.cfg := rfl
@[simp] theorem deviceAccess_regs (s : State) (n : Nat) (e : DeviceEvent) : (s.deviceAccess n e).regs = s.regs := rfl
@[simp] theorem deviceAccess_mem (s : State) (n : Nat) (e : DeviceEvent) : (s.deviceAccess n e).mem = s.mem := rfl
@[simp] theorem deviceAccess_pending (s : State) (n : Nat) (e : DeviceEvent) :
    (s.deviceAccess n e).pending = s.pending := rfl
@[simp] theorem deviceAccess_fault (s : State) (n : Nat) (e : DeviceEvent) :
    (s.deviceAccess n e).fault = s.fault := rfl
@[simp] theorem deviceAccess_running (s : State) (n : Nat) (e : DeviceEvent) :
    (s.deviceAccess n e).running = s.running := rfl
@[simp] theorem deviceAccess_devices (s : State) (n : Nat) (e : DeviceEvent) :
    (s.deviceAccess n e).devices = e :: s.devices := rfl

/-- A device access signals the device's own line or nothing (60_exceptions.md R310). -/
theorem deviceAccess_signalled (s : State) (n : Nat) (e : DeviceEvent) :
    (s.deviceAccess n e).signalled = s.signalled ∨
      ∃ i, lineOf s.cfg n = some i ∧ (s.deviceAccess n e).signalled = insertLine i s.signalled := by
  simp only [State.deviceAccess, signalledAfter]
  cases h : lineOf s.cfg n with
  | none => exact .inl rfl
  | some i =>
    cases Config.deviceSignals (e :: s.devices) with
    | true => exact .inr ⟨i, rfl, rfl⟩
    | false => exact .inl rfl

/-! ### Sets of lines -/

theorem mem_insertLine (i j : Nat) (l : List Nat) : j ∈ insertLine i l ↔ j = i ∨ j ∈ l := by
  induction l with
  | nil => simp [insertLine]
  | cons k ks ih =>
    simp only [insertLine]
    split
    · simp
    · split
      · rename_i h; subst h; simp
      · simp [ih]; constructor <;> (intro h; rcases h with h | h | h <;> simp [h])

theorem risingFrom_mono (lo lo' : Nat) (l : List Nat) (h : risingFrom lo l = true) (hl : lo' ≤ lo) :
    risingFrom lo' l = true := by
  cases l with
  | nil => rfl
  | cons c cs => simp [risingFrom] at h ⊢; exact ⟨by omega, h.2⟩

theorem risingFrom_insertLine (lo i : Nat) (l : List Nat) (hi : lo ≤ i) (h : risingFrom lo l = true) :
    risingFrom lo (insertLine i l) = true := by
  induction l generalizing lo with
  | nil => simp [insertLine, risingFrom, hi]
  | cons k ks ih =>
    simp only [risingFrom, Bool.and_eq_true, decide_eq_true_eq] at h
    simp only [insertLine]
    split
    · simp only [risingFrom, Bool.and_eq_true, decide_eq_true_eq]; exact ⟨hi, by omega, h.2⟩
    · split
      · simp only [risingFrom, Bool.and_eq_true, decide_eq_true_eq]; exact h
      · simp only [risingFrom, Bool.and_eq_true, decide_eq_true_eq]; exact ⟨h.1, ih (k + 1) (by omega) h.2⟩

theorem linesOk_insertLine (c : Config) (i : Nat) (l : List Nat) (hi : i < c.nIrq) (h : linesOk c l = true) :
    linesOk c (insertLine i l) = true := by
  simp only [linesOk, Bool.and_eq_true, List.all_eq_true, decide_eq_true_eq] at *
  refine ⟨risingFrom_insertLine 0 i l (by omega) h.1, fun j hj => ?_⟩
  rcases (mem_insertLine i j l).mp hj with rfl | hj
  · exact hi
  · exact h.2 j hj

theorem mem_insertLines (is l : List Nat) (j : Nat) : j ∈ insertLines is l ↔ j ∈ is ∨ j ∈ l := by
  induction is with
  | nil => simp [insertLines]
  | cons k ks ih =>
    simp only [insertLines, List.foldr_cons] at *
    rw [mem_insertLine, ih]; simp [or_assoc]

theorem linesOk_insertLines (c : Config) (is l : List Nat) (hi : ∀ i ∈ is, i < c.nIrq) (h : linesOk c l = true) :
    linesOk c (insertLines is l) = true := by
  induction is with
  | nil => exact h
  | cons k ks ih =>
    exact linesOk_insertLine c k _ (hi k (by simp)) (ih (fun i h' => hi i (by simp [h'])))

theorem risingFrom_filter (lo : Nat) (p : Nat → Bool) (l : List Nat) (h : risingFrom lo l = true) :
    risingFrom lo (l.filter p) = true := by
  induction l generalizing lo with
  | nil => rfl
  | cons k ks ih =>
    simp only [risingFrom, Bool.and_eq_true, decide_eq_true_eq] at h
    by_cases hk : p k = true
    · simp only [List.filter_cons, hk, if_true, risingFrom, Bool.and_eq_true, decide_eq_true_eq]
      exact ⟨h.1, ih (k + 1) h.2⟩
    · simp only [List.filter_cons, hk]
      exact risingFrom_mono _ _ _ (ih (k + 1) h.2) (by omega)

theorem linesOk_filter (c : Config) (p : Nat → Bool) (l : List Nat) (h : linesOk c l = true) :
    linesOk c (l.filter p) = true := by
  simp only [linesOk, Bool.and_eq_true, List.all_eq_true, decide_eq_true_eq] at *
  exact ⟨risingFrom_filter 0 p l h.1, fun j hj => h.2 j (List.mem_filter.mp hj).1⟩

/-! ### Reading a byte -/

@[simp] theorem busGet_cfg (a : Word) (s : State) : (busGet a s).2.cfg = s.cfg := by
  unfold busGet; split <;> simp
@[simp] theorem busGet_regs (a : Word) (s : State) : (busGet a s).2.regs = s.regs := by
  unfold busGet; split <;> simp
@[simp] theorem busGet_mem (a : Word) (s : State) : (busGet a s).2.mem = s.mem := by
  unfold busGet; split <;> simp
@[simp] theorem busGet_pending (a : Word) (s : State) : (busGet a s).2.pending = s.pending := by
  unfold busGet; split <;> simp
@[simp] theorem busGet_fault (a : Word) (s : State) : (busGet a s).2.fault = s.fault := by
  unfold busGet; split <;> simp
@[simp] theorem busGet_running (a : Word) (s : State) : (busGet a s).2.running = s.running := by
  unfold busGet; split <;> simp

/-- A read outside the device windows has no effect (20_memory.md R58, R60). -/
theorem busGet_noDevice (a : Word) (s : State) (h : isDeviceByte s.cfg a = false) :
    busGet a s = (readByte s a, s) := by
  unfold readByte busGet
  unfold isDeviceByte at h
  split <;> simp_all

theorem readByte_ram (s : State) (a : Word) (h : route s.cfg a = .ram) : readByte s a = memGet a.toNat s.mem := by
  simp [readByte, busGet, h]
theorem readByte_unmapped (s : State) (a : Word) (h : route s.cfg a = .unmapped) : readByte s a = 0 := by
  simp [readByte, busGet, h]
theorem readByte_cpu (s : State) (a : Word) (o : Nat) (h : route s.cfg a = .cpu o) : readByte s a = s.cpuGet o := by
  simp [readByte, busGet, h]

/-- What a byte of memory reads as depends on the configuration and the RAM alone. -/
theorem readByte_memory (s t : State) (a : Word) (hc : t.cfg = s.cfg) (hm : t.mem = s.mem) (h : isMemory s.cfg a) :
    readByte t a = readByte s a := by
  rcases h with h | h
  · rw [readByte_ram s a h, readByte_ram t a (hc ▸ h), hm]
  · rw [readByte_unmapped s a h, readByte_unmapped t a (hc ▸ h)]

theorem memorySame_of_mem (s t : State) (hc : t.cfg = s.cfg) (hm : t.mem = s.mem) : memorySame s t :=
  fun x hx => readByte_memory s t x hc hm hx

/-! ### Reading several bytes -/

theorem busGetArray_succ (n : Nat) (a : Word) (s : State) :
    busGetArray (n + 1) a s =
      ((busGet a s).1 :: (busGetArray n (a + 1) (busGet a s).2).1, (busGetArray n (a + 1) (busGet a s).2).2) := rfl

@[simp] theorem busGetArray_cfg (n : Nat) (a : Word) (s : State) : (busGetArray n a s).2.cfg = s.cfg := by
  induction n generalizing a s with
  | zero => rfl
  | succ n ih => rw [busGetArray_succ]; simp [ih]
@[simp] theorem busGetArray_regs (n : Nat) (a : Word) (s : State) : (busGetArray n a s).2.regs = s.regs := by
  induction n generalizing a s with
  | zero => rfl
  | succ n ih => rw [busGetArray_succ]; simp [ih]
@[simp] theorem busGetArray_mem (n : Nat) (a : Word) (s : State) : (busGetArray n a s).2.mem = s.mem := by
  induction n generalizing a s with
  | zero => rfl
  | succ n ih => rw [busGetArray_succ]; simp [ih]
@[simp] theorem busGetArray_pending (n : Nat) (a : Word) (s : State) :
    (busGetArray n a s).2.pending = s.pending := by
  induction n generalizing a s with
  | zero => rfl
  | succ n ih => rw [busGetArray_succ]; simp [ih]
@[simp] theorem busGetArray_fault (n : Nat) (a : Word) (s : State) : (busGetArray n a s).2.fault = s.fault := by
  induction n generalizing a s with
  | zero => rfl
  | succ n ih => rw [busGetArray_succ]; simp [ih]
@[simp] theorem busGetArray_running (n : Nat) (a : Word) (s : State) :
    (busGetArray n a s).2.running = s.running := by
  induction n generalizing a s with
  | zero => rfl
  | succ n ih => rw [busGetArray_succ]; simp [ih]

theorem bytesAt_succ (s : State) (a : Word) (n : Nat) : bytesAt s a (n + 1) = readByte s a :: bytesAt s (a + 1) n := by
  simp only [bytesAt, List.range_succ_eq_map, List.map_cons, List.map_map, add_ofNat_zero, List.cons.injEq, true_and]
  apply List.map_congr_left
  intro k _
  simp only [Function.comp, add_ofNat_succ, Nat.succ_eq_add_one]

/-- Outside the device windows, a read of several bytes gives the bytes as they stand and has no effect
(20_memory.md R55). -/
theorem busGetArray_noDevice (n : Nat) (a : Word) (s : State) (h : noDevice s.cfg a n) :
    busGetArray n a s = (bytesAt s a n, s) := by
  induction n generalizing a with
  | zero => rfl
  | succ n ih =>
    have h' := (rangeTouches_false _ _ _).mp h
    have h0 : isDeviceByte s.cfg a = false := by simpa using h' 0 (by omega)
    have h1 : noDevice s.cfg (a + 1) n := (rangeTouches_false _ _ _).mpr fun k hk => by
      rw [add_ofNat_succ]; exact h' (k + 1) (by omega)
    rw [busGetArray_succ, busGet_noDevice a s h0, ih (a + 1) h1, bytesAt_succ]

theorem memRead_def (a : Word) (n : Nat) (s : State) :
    memRead a n s = (littleEndian (busGetArray n a s).1, (busGetArray n a s).2) := rfl

@[simp] theorem memRead_cfg (a : Word) (n : Nat) (s : State) : (memRead a n s).2.cfg = s.cfg := busGetArray_cfg ..
@[simp] theorem memRead_regs (a : Word) (n : Nat) (s : State) : (memRead a n s).2.regs = s.regs := busGetArray_regs ..
@[simp] theorem memRead_mem (a : Word) (n : Nat) (s : State) : (memRead a n s).2.mem = s.mem := busGetArray_mem ..
@[simp] theorem memRead_pending (a : Word) (n : Nat) (s : State) : (memRead a n s).2.pending = s.pending :=
  busGetArray_pending ..
@[simp] theorem memRead_fault (a : Word) (n : Nat) (s : State) : (memRead a n s).2.fault = s.fault :=
  busGetArray_fault ..
@[simp] theorem memRead_running (a : Word) (n : Nat) (s : State) : (memRead a n s).2.running = s.running :=
  busGetArray_running ..
@[simp] theorem memRead_reg (a : Word) (n : Nat) (s : State) (r : Reg) : (memRead a n s).2.reg r = s.reg r := by
  simp [State.reg]

/-- Outside the device windows, `MemRead` gives the little-endian value of the bytes as they stand and has no effect
(20_memory.md R55). -/
theorem memRead_noDevice (a : Word) (n : Nat) (s : State) (h : noDevice s.cfg a n) :
    memRead a n s = (littleEndian (bytesAt s a n), s) := by
  rw [memRead_def, busGetArray_noDevice n a s h]

theorem littleEndian_cons (b : Byte) (bs : List Byte) :
    littleEndian (b :: bs) = b.setWidth 32 ||| (littleEndian bs <<< 8) := rfl

/-- Byte `k` of a little-endian value is the list's (20_memory.md R55). -/
theorem byteOf_littleEndian (bs : List Byte) (k : Nat) (hk : k < bs.length) (h4 : k < 4) :
    byteOf (littleEndian bs) k = bs[k] := by
  induction bs generalizing k with
  | nil => simp at hk
  | cons b bs ih =>
    apply BitVec.eq_of_getLsbD_eq
    intro i hi
    simp only [byteOf, littleEndian_cons, BitVec.getLsbD_extractLsb', BitVec.getLsbD_or, BitVec.getLsbD_setWidth,
      BitVec.getLsbD_shiftLeft, hi, decide_true, Bool.true_and]
    cases k with
    | zero => simp [hi, show i < 32 by omega]
    | succ k =>
      have hk' : k < bs.length := by simpa using hk
      have := ih k hk' (by omega)
      have hb := congrArg (fun x => x.getLsbD i) this
      simp only [byteOf, BitVec.getLsbD_extractLsb', hi, decide_true, Bool.true_and] at hb
      rw [List.getElem_cons_succ, ← hb]
      rw [BitVec.getLsbD_of_ge b _ (by omega)]
      have e : 8 * (k + 1) + i - 8 = 8 * k + i := by omega
      simp only [Bool.and_false, Bool.false_or, e]
      have h1 : 8 * (k + 1) + i < 32 := by omega
      have h2 : ¬ (8 * (k + 1) + i < 8) := by omega
      simp [h1, h2]

/-- A word is its bytes. -/
theorem eq_of_byteOf (v w : Word) (h : ∀ k, k < 4 → byteOf v k = byteOf w k) : v = w := by
  apply BitVec.eq_of_getLsbD_eq
  intro i hi
  have hk : i / 8 < 4 := by omega
  have hb := congrArg (fun x => x.getLsbD (i % 8)) (h (i / 8) hk)
  have h8 : i % 8 < 8 := Nat.mod_lt _ (by omega)
  simp only [byteOf, BitVec.getLsbD_extractLsb', h8, decide_true, Bool.true_and] at hb
  have e : 8 * (i / 8) + i % 8 = i := Nat.div_add_mod i 8
  rwa [e] at hb

theorem bytesAt_length (s : State) (a : Word) (n : Nat) : (bytesAt s a n).length = n := by simp [bytesAt]

/-- A little-endian value of `n` bytes has no bit from `8n` on. -/
theorem littleEndian_high (bs : List Byte) (i : Nat) (h : 8 * bs.length ≤ i) : (littleEndian bs).getLsbD i = false := by
  induction bs generalizing i with
  | nil => simp [littleEndian]
  | cons b bs ih =>
    simp only [List.length_cons] at h
    rw [littleEndian_cons, BitVec.getLsbD_or, BitVec.getLsbD_setWidth, BitVec.getLsbD_shiftLeft,
      ih (i - 8) (by omega), BitVec.getLsbD_of_ge b i (by omega)]
    simp

theorem busGetArray_length (n : Nat) (a : Word) (s : State) : (busGetArray n a s).1.length = n := by
  induction n generalizing a s with
  | zero => rfl
  | succ n ih => rw [busGetArray_succ]; simp [ih]

/-- `MemRead(a, w)` has no bit outside its low `w` bytes. -/
theorem lowPart_memRead (a : Word) (w : Nat) (s : State) : lowPart w (memRead a w s).1 = (memRead a w s).1 := by
  apply BitVec.eq_of_getLsbD_eq
  intro i hi
  simp only [lowPart, BitVec.getLsbD_setWidth, hi, decide_true, Bool.true_and]
  by_cases h : i < 8 * w
  · simp [h]
  · have : (memRead a w s).1.getLsbD i = false := by
      rw [memRead_def]
      exact littleEndian_high _ _ (by rw [busGetArray_length]; omega)
    simp [h, this]

theorem lowPart_four (v : Word) : lowPart 4 v = v := by
  apply BitVec.eq_of_getLsbD_eq
  intro i hi
  simp [lowPart, hi]

end Sys2Proof.Machine
end

