-- ==== Sys2Proof/Laws/Write.lean ====
section
/-! SUPPORT. Writes on the bus and the stack: what a write can do, said once for each of cpuSet, busSet, busSetArray,
memWrite, push32 and pop32. -/

namespace Sys2Proof.Machine

/-! ### Bytes of a word -/

theorem byteOf_replaceByte (v : Word) (j k : Nat) (b : Byte) (hk : k < 4) :
    byteOf (replaceByte v k b) j = if j = k then b else byteOf v j := by
  apply BitVec.eq_of_getLsbD_eq
  intro i hi
  by_cases hjk : j = k
  · subst hjk
    rw [if_pos rfl]
    simp only [byteOf, replaceByte, BitVec.getLsbD_extractLsb', hi, decide_true, Bool.true_and, BitVec.getLsbD_or,
      BitVec.getLsbD_and, BitVec.getLsbD_not, BitVec.getLsbD_shiftLeft, BitVec.getLsbD_setWidth]
    have h1 : 8 * j + i < 32 := by omega
    have h2 : ¬ (8 * j + i < 8 * j) := by omega
    have e : 8 * j + i - 8 * j = i := by omega
    have hff : (0xFF : Word).getLsbD i = true := by
      have : i = 0 ∨ i = 1 ∨ i = 2 ∨ i = 3 ∨ i = 4 ∨ i = 5 ∨ i = 6 ∨ i = 7 := by omega
      rcases this with h | h | h | h | h | h | h | h <;> subst h <;> decide
    simp only [h1, h2, e, hff, decide_true, decide_false, Bool.true_and, Bool.not_true, Bool.not_false, Bool.and_false,
      Bool.false_or, Bool.and_true, show i < 32 by omega]
  · rw [if_neg hjk]
    simp only [byteOf, replaceByte, BitVec.getLsbD_extractLsb', hi, decide_true, Bool.true_and, BitVec.getLsbD_or,
      BitVec.getLsbD_and, BitVec.getLsbD_not, BitVec.getLsbD_shiftLeft, BitVec.getLsbD_setWidth]
    by_cases h1 : 8 * j + i < 32
    · by_cases h2 : 8 * j + i < 8 * k
      · simp [h1, h2]
      · have h3 : 8 ≤ 8 * j + i - 8 * k := by omega
        have hb : b.getLsbD (8 * j + i - 8 * k) = false := BitVec.getLsbD_of_ge _ _ h3
        have hff : (255#32 : Word).getLsbD (8 * j + i - 8 * k) = false := by
          have e : (255#32 : Word) = (255#8 : Byte).setWidth 32 := by decide
          rw [e, BitVec.getLsbD_setWidth, BitVec.getLsbD_of_ge _ _ h3]; simp
        simp [h1, h2, hb, hff]
    · rw [BitVec.getLsbD_of_ge v _ (by omega)]
      simp [h1]

theorem byteOf_shift (v : Word) (k : Nat) : byteOf (v >>> 8) k = byteOf v (k + 1) := by
  apply BitVec.eq_of_getLsbD_eq
  intro i hi
  simp only [byteOf, BitVec.getLsbD_extractLsb', hi, decide_true, Bool.true_and, BitVec.getLsbD_ushiftRight]
  congr 1; omega

theorem byteOf_zero (v : Word) : byteOf v 0 = v.setWidth 8 := by
  apply BitVec.eq_of_getLsbD_eq
  intro i hi
  simp [byteOf, hi]

/-! ### The CPU window -/

theorem ofNumber_number (r : Reg) : Reg.ofNumber r.number = some r := by cases r <;> rfl

theorem ofNumber_eq (n : Nat) (r : Reg) (h : Reg.ofNumber n = some r) : n = r.number := by
  unfold Reg.ofNumber at h
  split at h <;> first
    | (injection h with h; subst h; rfl)
    | contradiction

theorem ofNumber_isSome (n : Nat) : (Reg.ofNumber n).isSome = true ↔ n < 16 := by
  constructor
  · intro h
    obtain ⟨r, hr⟩ := Option.isSome_iff_exists.mp h
    rw [ofNumber_eq n r hr]; cases r <;> decide
  · intro h
    have : n = 0 ∨ n = 1 ∨ n = 2 ∨ n = 3 ∨ n = 4 ∨ n = 5 ∨ n = 6 ∨ n = 7 ∨ n = 8 ∨ n = 9 ∨ n = 10 ∨ n = 11 ∨ n = 12 ∨
      n = 13 ∨ n = 14 ∨ n = 15 := by omega
    rcases this with h|h|h|h|h|h|h|h|h|h|h|h|h|h|h|h <;> subst h <;> rfl

theorem number_lt (r : Reg) : r.number < 16 := by cases r <;> decide

theorem number_inj (r q : Reg) : r.number = q.number ↔ r = q := by
  constructor
  · intro h
    have h1 := ofNumber_number r
    rw [h, ofNumber_number] at h1
    injection h1 with h1
    exact h1.symm
  · rintro rfl; rfl

theorem inWindow_iff (w : Window) (a : Word) :
    inWindow w a = true ↔ w.base.toNat ≤ a.toNat ∧ a.toNat < w.base.toNat + w.size := by
  simp [inWindow]

theorem route_cpu_lt (c : Config) (a : Word) (o : Nat) (h : route c a = .cpu o) :
    o < 64 ∧ a.toNat = c.cpuBase.toNat + o := by
  unfold route at h
  split at h
  · contradiction
  · split at h
    · rename_i _ h2
      have h3 : c.cpuBase.toNat ≤ a.toNat ∧ a.toNat < c.cpuBase.toNat + 64 := by
        simpa [Config.cpuWindow] using (inWindow_iff _ _).mp h2
      injection h with h
      omega
    · exfalso
      generalize c.devices = ds at h
      generalize hn : (0 : Nat) = n at h
      clear hn
      induction ds generalizing n with
      | nil => simp [routeDevices] at h
      | cons d ds ih =>
        simp only [routeDevices] at h
        split at h
        · contradiction
        · exact ih _ h

theorem cpuSet_reg (s : State) (o : Nat) (b : Byte) (r : Reg) :
    (s.cpuSet o b).reg r = if o / 4 = r.number then replaceByte (s.reg r) (o % 4) b else s.reg r := by
  unfold State.cpuSet
  cases h : Reg.ofNumber (o / 4) with
  | none =>
    have : ¬ o / 4 = r.number := by
      intro e; rw [e, ofNumber_number] at h; contradiction
    simp [this]
  | some q =>
    have hq := ofNumber_eq _ _ h
    simp only [reg_setReg, hq, number_inj]
    by_cases hr : q = r
    · subst hr; simp
    · simp [hr, show ¬ r = q from fun e => hr e.symm]

@[simp] theorem cpuSet_cfg (s : State) (o : Nat) (b : Byte) : (s.cpuSet o b).cfg = s.cfg := by
  unfold State.cpuSet; split <;> rfl
@[simp] theorem cpuSet_mem (s : State) (o : Nat) (b : Byte) : (s.cpuSet o b).mem = s.mem := by
  unfold State.cpuSet; split <;> rfl
@[simp] theorem cpuSet_pending (s : State) (o : Nat) (b : Byte) : (s.cpuSet o b).pending = s.pending := by
  unfold State.cpuSet; split <;> rfl
@[simp] theorem cpuSet_signalled (s : State) (o : Nat) (b : Byte) : (s.cpuSet o b).signalled = s.signalled := by
  unfold State.cpuSet; split <;> rfl
@[simp] theorem cpuSet_fault (s : State) (o : Nat) (b : Byte) : (s.cpuSet o b).fault = s.fault := by
  unfold State.cpuSet; split <;> rfl
@[simp] theorem cpuSet_running (s : State) (o : Nat) (b : Byte) : (s.cpuSet o b).running = s.running := by
  unfold State.cpuSet; split <;> rfl
@[simp] theorem cpuSet_devices (s : State) (o : Nat) (b : Byte) : (s.cpuSet o b).devices = s.devices := by
  unfold State.cpuSet; split <;> rfl

/-- A byte of the CPU window is the byte of the register it shows (20_memory.md R59). -/
theorem cpuGet_eq (s : State) (r : Reg) (k : Nat) (hk : k < 4) : s.cpuGet (4 * r.number + k) = byteOf (s.reg r) k := by
  unfold State.cpuGet
  rw [show (4 * r.number + k) / 4 = r.number by omega, show (4 * r.number + k) % 4 = k by omega, ofNumber_number]

/-- Read after write in the CPU window, and its frame (20_memory.md R60, R61). -/
theorem cpuGet_cpuSet (s : State) (o x : Nat) (b : Byte) (ho : o < 64) :
    (s.cpuSet o b).cpuGet x = if x = o then b else s.cpuGet x := by
  have h16 : o / 4 < 16 := by omega
  obtain ⟨r, hr⟩ := Option.isSome_iff_exists.mp ((ofNumber_isSome _).mpr h16)
  have hq := ofNumber_eq _ _ hr
  simp only [State.cpuGet, cpuSet_reg]
  cases hx : Reg.ofNumber (x / 4) with
  | none =>
    have : ¬ x = o := by rintro rfl; rw [hr] at hx; contradiction
    simp [this]
  | some q =>
    have hqx := ofNumber_eq _ _ hx
    simp only []
    by_cases he : o / 4 = q.number
    · rw [if_pos he, byteOf_replaceByte _ _ _ _ (by omega)]
      by_cases hm : x % 4 = o % 4
      · rw [if_pos hm, if_pos (by omega)]
      · rw [if_neg hm, if_neg (by rintro rfl; exact hm rfl)]
    · rw [if_neg he, if_neg (by rintro rfl; exact he hqx)]

/-! ### Writing a byte -/

@[simp] theorem busSet_cfg (a : Word) (b : Byte) (s : State) : (busSet a b s).cfg = s.cfg := by
  unfold busSet; split <;> simp
@[simp] theorem busSet_pending (a : Word) (b : Byte) (s : State) : (busSet a b s).pending = s.pending := by
  unfold busSet; split <;> simp
@[simp] theorem busSet_fault (a : Word) (b : Byte) (s : State) : (busSet a b s).fault = s.fault := by
  unfold busSet; split <;> simp
@[simp] theorem busSet_running (a : Word) (b : Byte) (s : State) : (busSet a b s).running = s.running := by
  unfold busSet; split <;> simp

/-- Read after write on the bus, and the frame of a write: outside the device windows a byte written reads as written,
unless it is unmapped, and every other byte reads as before (20_memory.md R53 to R61). -/
theorem readByte_busSet (s : State) (a x : Word) (b : Byte) (hx : isDeviceByte s.cfg x = false) :
    readByte (busSet a b s) x = if x = a ∧ route s.cfg a ≠ .unmapped then b else readByte s x := by
  have hcfg : (busSet a b s).cfg = s.cfg := busSet_cfg a b s
  cases hrx : route s.cfg x with
  | device n o => simp [isDeviceByte, hrx] at hx
  | unmapped =>
    rw [readByte_unmapped s x hrx, readByte_unmapped _ x (hcfg ▸ hrx), if_neg]
    rintro ⟨rfl, h⟩; exact h hrx
  | ram =>
    rw [readByte_ram s x hrx, readByte_ram _ x (hcfg ▸ hrx)]
    cases hra : route s.cfg a with
    | ram =>
      simp only [busSet, hra, memGet_memSet, BitVec.toNat_inj]
      simp
    | cpu o =>
      rw [if_neg (by rintro ⟨rfl, _⟩; rw [hrx] at hra; contradiction)]
      simp [busSet, hra]
    | device n o =>
      rw [if_neg (by rintro ⟨rfl, _⟩; rw [hrx] at hra; contradiction)]
      simp [busSet, hra]
    | unmapped => simp [busSet, hra]
  | cpu o =>
    rw [readByte_cpu s x o hrx, readByte_cpu _ x o (hcfg ▸ hrx)]
    cases hra : route s.cfg a with
    | ram =>
      rw [if_neg (by rintro ⟨rfl, _⟩; rw [hrx] at hra; contradiction)]
      simp [busSet, hra, State.cpuGet, State.reg]
    | cpu p =>
      have h1 := route_cpu_lt _ _ _ hrx
      have h2 := route_cpu_lt _ _ _ hra
      simp only [busSet, hra, cpuGet_cpuSet s p o b h2.1]
      by_cases hop : o = p
      · have : x = a := BitVec.eq_of_toNat_eq (by omega)
        simp [hop, this]
      · have : ¬ x = a := by rintro rfl; omega
        simp [hop, this]
    | device n o' =>
      rw [if_neg (by rintro ⟨rfl, _⟩; rw [hrx] at hra; contradiction)]
      simp [busSet, hra, State.cpuGet, State.reg]
    | unmapped => simp [busSet, hra]

/-- A write outside the register's slot leaves the register (20_memory.md R61). -/
theorem busSet_reg (s : State) (a : Word) (b : Byte) (r : Reg)
    (h : ∀ o, route s.cfg a = .cpu o → o / 4 ≠ r.number) : (busSet a b s).reg r = s.reg r := by
  cases hra : route s.cfg a with
  | cpu o => simp only [busSet, hra, cpuSet_reg, if_neg (h o hra)]
  | ram => simp [busSet, hra, State.reg]
  | device n o => simp [busSet, hra, State.reg]
  | unmapped => simp [busSet, hra]

theorem busSet_devices (s : State) (a : Word) (b : Byte) (h : isDeviceByte s.cfg a = false) :
    (busSet a b s).devices = s.devices ∧ (busSet a b s).signalled = s.signalled := by
  cases hra : route s.cfg a <;> simp_all [busSet, isDeviceByte]

/-- What the devices see of a write depends on the configuration and on what they saw before, alone. -/
theorem busSet_devices_congr (s t : State) (a : Word) (b : Byte) (hc : t.cfg = s.cfg) (h : devicesAsIn s t) :
    devicesAsIn (busSet a b s) (busSet a b t) := by
  obtain ⟨h1, h2⟩ := h
  cases hra : route s.cfg a with
  | device n o => simp [busSet, hc, hra, State.deviceAccess, devicesAsIn, h1, h2]
  | _ => simpa [busSet, hc, hra, devicesAsIn] using ⟨h1, h2⟩

theorem busSet_wf (s : State) (a : Word) (b : Byte) (h : Memory.wf s.mem = true) :
    Memory.wf (busSet a b s).mem = true := by
  cases hra : route s.cfg a with
  | ram => simp only [busSet, hra]; exact memory_wf_memSet _ _ _ h
  | cpu o => simpa [busSet, hra] using h
  | device n o => simpa [busSet, hra] using h
  | unmapped => simpa [busSet, hra] using h

/-! ### Writing several bytes -/

@[simp] theorem busSetArray_cfg (bs : List Byte) (a : Word) (s : State) : (busSetArray bs a s).cfg = s.cfg := by
  induction bs generalizing a s with
  | nil => rfl
  | cons b bs ih => rw [busSetArray, ih, busSet_cfg]
@[simp] theorem busSetArray_pending (bs : List Byte) (a : Word) (s : State) :
    (busSetArray bs a s).pending = s.pending := by
  induction bs generalizing a s with
  | nil => rfl
  | cons b bs ih => rw [busSetArray, ih, busSet_pending]
@[simp] theorem busSetArray_fault (bs : List Byte) (a : Word) (s : State) : (busSetArray bs a s).fault = s.fault := by
  induction bs generalizing a s with
  | nil => rfl
  | cons b bs ih => rw [busSetArray, ih, busSet_fault]
@[simp] theorem busSetArray_running (bs : List Byte) (a : Word) (s : State) :
    (busSetArray bs a s).running = s.running := by
  induction bs generalizing a s with
  | nil => rfl
  | cons b bs ih => rw [busSetArray, ih, busSet_running]

theorem busSetArray_wf (bs : List Byte) (a : Word) (s : State) (h : Memory.wf s.mem = true) :
    Memory.wf (busSetArray bs a s).mem = true := by
  induction bs generalizing a s with
  | nil => exact h
  | cons b bs ih => exact ih (a + 1) _ (busSet_wf s a b h)

/-- The frame of a write of several bytes. -/
theorem readByte_busSetArray_outside (bs : List Byte) (a x : Word) (s : State) (hx : isDeviceByte s.cfg x = false)
    (h : outside a bs.length x) : readByte (busSetArray bs a s) x = readByte s x := by
  induction bs generalizing a s with
  | nil => rfl
  | cons b bs ih =>
    have h0 : x ≠ a := by simpa using h 0 (by simp)
    have h1 : outside (a + 1) bs.length x := fun k hk => by
      rw [add_ofNat_succ]; exact h (k + 1) (by simpa using hk)
    rw [busSetArray, ih (a + 1) (busSet a b s) (by simpa using hx) h1, readByte_busSet s a x b hx, if_neg]
    rintro ⟨rfl, _⟩; exact h0 rfl

/-- Read after write of several bytes. -/
theorem readByte_busSetArray_inside (bs : List Byte) (a : Word) (s : State) (k : Nat) (hk : k < bs.length)
    (hlen : bs.length ≤ 2 ^ 32) (hd : isDeviceByte s.cfg (a + BitVec.ofNat 32 k) = false)
    (hu : route s.cfg (a + BitVec.ofNat 32 k) ≠ .unmapped) :
    readByte (busSetArray bs a s) (a + BitVec.ofNat 32 k) = bs[k] := by
  induction bs generalizing a s k with
  | nil => simp at hk
  | cons b bs ih =>
    simp only [List.length_cons] at hk hlen
    cases k with
    | zero =>
      have ho : outside (a + 1) bs.length (a + BitVec.ofNat 32 0) := fun j hj e => by
        rw [add_ofNat_succ] at e
        have := add_ofNat_inj a 0 (j + 1) (by omega) (by omega) e
        omega
      rw [busSetArray, readByte_busSetArray_outside bs (a + 1) _ _ (by simpa using hd) ho,
        readByte_busSet s a _ b hd, if_pos]
      · rfl
      · exact ⟨by simp, by simpa using hu⟩
    | succ k =>
      rw [busSetArray, ← add_ofNat_succ]
      rw [ih (a + 1) (busSet a b s) k (by omega) (by omega)]
      · rfl
      · rw [busSet_cfg, add_ofNat_succ]; exact hd
      · rw [busSet_cfg, add_ofNat_succ]; exact hu

/-- A register none of whose bytes is written keeps its value. -/
theorem busSetArray_reg (bs : List Byte) (a : Word) (s : State) (r : Reg)
    (h : ∀ k, k < bs.length → ∀ o, route s.cfg (a + BitVec.ofNat 32 k) = .cpu o → o / 4 ≠ r.number) :
    (busSetArray bs a s).reg r = s.reg r := by
  induction bs generalizing a s with
  | nil => rfl
  | cons b bs ih =>
    rw [busSetArray, ih, busSet_reg]
    · intro o ho; exact h 0 (by simp) o (by simpa using ho)
    · intro k hk o ho
      rw [busSet_cfg, add_ofNat_succ] at ho
      exact h (k + 1) (by simpa using hk) o ho

theorem busSetArray_devices (bs : List Byte) (a : Word) (s : State) (h : noDevice s.cfg a bs.length) :
    (busSetArray bs a s).devices = s.devices ∧ (busSetArray bs a s).signalled = s.signalled := by
  induction bs generalizing a s with
  | nil => exact ⟨rfl, rfl⟩
  | cons b bs ih =>
    have h' := (rangeTouches_false _ _ _).mp h
    have h0 := busSet_devices s a b (by simpa using h' 0 (by simp))
    have h1 := ih (a + 1) (busSet a b s) ((rangeTouches_false _ _ _).mpr fun k hk => by
      rw [busSet_cfg, add_ofNat_succ]; exact h' (k + 1) (by simpa using hk))
    exact ⟨h1.1.trans h0.1, h1.2.trans h0.2⟩

theorem busSetArray_devices_congr (bs : List Byte) (s t : State) (a : Word) (hc : t.cfg = s.cfg)
    (h : devicesAsIn s t) : devicesAsIn (busSetArray bs a s) (busSetArray bs a t) := by
  induction bs generalizing a s t with
  | nil => exact h
  | cons b bs ih => exact ih _ _ _ (by simp [hc]) (busSet_devices_congr s t a b hc h)

/-! ### MemWrite -/

theorem lowBytes_length (n : Nat) (v : Word) : (lowBytes n v).length = n := by
  induction n generalizing v with
  | zero => rfl
  | succ n ih => simp [lowBytes, ih]

theorem lowBytes_get (n : Nat) (v : Word) (k : Nat) (hk : k < (lowBytes n v).length) : (lowBytes n v)[k] = byteOf v k := by
  induction n generalizing v k with
  | zero => simp [lowBytes] at hk
  | succ n ih =>
    cases k with
    | zero => simp [lowBytes, byteOf_zero]
    | succ k =>
      simp only [lowBytes, List.getElem_cons_succ]
      rw [ih, byteOf_shift]

@[simp] theorem memWrite_cfg (a : Word) (n : Nat) (v : Word) (s : State) : (memWrite a n v s).cfg = s.cfg :=
  busSetArray_cfg ..
@[simp] theorem memWrite_pending (a : Word) (n : Nat) (v : Word) (s : State) : (memWrite a n v s).pending = s.pending :=
  busSetArray_pending ..
@[simp] theorem memWrite_fault (a : Word) (n : Nat) (v : Word) (s : State) : (memWrite a n v s).fault = s.fault :=
  busSetArray_fault ..
@[simp] theorem memWrite_running (a : Word) (n : Nat) (v : Word) (s : State) : (memWrite a n v s).running = s.running :=
  busSetArray_running ..

theorem memWrite_wf (a : Word) (n : Nat) (v : Word) (s : State) (h : Memory.wf s.mem = true) :
    Memory.wf (memWrite a n v s).mem = true := busSetArray_wf _ _ _ h

/-- The frame of `MemWrite` (20_memory.md R56). -/
theorem readByte_memWrite_outside (a x : Word) (n : Nat) (v : Word) (s : State) (hx : isDeviceByte s.cfg x = false)
    (h : outside a n x) : readByte (memWrite a n v s) x = readByte s x :=
  readByte_busSetArray_outside _ a x s hx (by rw [lowBytes_length]; exact h)

/-- Read after `MemWrite` (20_memory.md R56). -/
theorem readByte_memWrite_inside (a : Word) (n : Nat) (v : Word) (s : State) (k : Nat) (hk : k < n) (hn : n ≤ 2 ^ 32)
    (hd : isDeviceByte s.cfg (a + BitVec.ofNat 32 k) = false) (hu : route s.cfg (a + BitVec.ofNat 32 k) ≠ .unmapped) :
    readByte (memWrite a n v s) (a + BitVec.ofNat 32 k) = byteOf v k := by
  unfold memWrite
  rw [readByte_busSetArray_inside _ a s k (by rw [lowBytes_length]; exact hk) (by rw [lowBytes_length]; exact hn) hd hu,
    lowBytes_get]

theorem memWrite_reg (a : Word) (n : Nat) (v : Word) (s : State) (r : Reg)
    (h : ∀ k, k < n → ∀ o, route s.cfg (a + BitVec.ofNat 32 k) = .cpu o → o / 4 ≠ r.number) :
    (memWrite a n v s).reg r = s.reg r :=
  busSetArray_reg _ a s r (by rw [lowBytes_length]; exact h)

theorem memWrite_devices (a : Word) (n : Nat) (v : Word) (s : State) (h : noDevice s.cfg a n) :
    devicesSame s (memWrite a n v s) := busSetArray_devices _ a s (by rw [lowBytes_length]; exact h)

/-- What the devices see of `MemWrite` depends on the configuration and on what they saw before, alone. -/
theorem memWrite_devices_congr (a : Word) (n : Nat) (v : Word) (s t : State) (hc : t.cfg = s.cfg)
    (h : devicesAsIn s t) : devicesAsIn (memWrite a n v s) (memWrite a n v t) :=
  busSetArray_devices_congr _ s t a hc h

/-- A write that touches no byte of the CPU window leaves every register (20_memory.md R61). -/
theorem memWrite_regs_of_stack (a : Word) (n : Nat) (v : Word) (s : State) (h : stackWriteFatal s.cfg a n = false) (r : Reg) :
    (memWrite a n v s).reg r = s.reg r := by
  refine memWrite_reg a n v s r fun k hk o ho => ?_
  have := (rangeTouches_false _ _ _).mp h k hk
  simp [isCpuByte, ho] at this

/-- A write that touches neither the PC nor the FL slot leaves PC and FL (20_memory.md R61). -/
theorem memWrite_pc_fl (a : Word) (n : Nat) (v : Word) (s : State) (h : dataWriteFatal s.cfg a n = false) (r : Reg)
    (hr : r = .PC ∨ r = .FL) : (memWrite a n v s).reg r = s.reg r := by
  refine memWrite_reg a n v s r fun k hk o ho => ?_
  have := (rangeTouches_false _ _ _).mp h k hk
  simp [isPcOrFlByte, ho] at this
  rcases hr with rfl | rfl <;> simp [Reg.number] <;> omega

/-! ### The stack -/

theorem push32_def (s : State) (v : Word) :
    s.push32 v = memWrite (s.reg .SP - 4) 4 v (s.setReg .SP (s.reg .SP - 4)) := by
  simp [State.push32]

@[simp] theorem push32_cfg (s : State) (v : Word) : (s.push32 v).cfg = s.cfg := by rw [push32_def]; simp
@[simp] theorem push32_pending (s : State) (v : Word) : (s.push32 v).pending = s.pending := by rw [push32_def]; simp
@[simp] theorem push32_fault (s : State) (v : Word) : (s.push32 v).fault = s.fault := by rw [push32_def]; simp
@[simp] theorem push32_running (s : State) (v : Word) : (s.push32 v).running = s.running := by rw [push32_def]; simp

/-- What a push that passed `CheckWrites` does to the registers: SP alone changes (40_cycle.md R133). -/
theorem push32_reg (s : State) (v : Word) (h : stackWriteFatal s.cfg (s.reg .SP - 4) 4 = false) (r : Reg) :
    (s.push32 v).reg r = if r = .SP then s.reg .SP - 4 else s.reg r := by
  rw [push32_def, memWrite_regs_of_stack _ _ _ _ (by simpa using h), reg_setReg]

theorem readByte_setReg (s : State) (d : Reg) (v : Word) (x : Word) (h : isMemory s.cfg x) :
    readByte (s.setReg d v) x = readByte s x := readByte_memory s _ x rfl rfl h

theorem not_device_of_memory (c : Config) (x : Word) (h : isMemory c x) : isDeviceByte c x = false := by
  rcases h with h | h <;> simp [isDeviceByte, h]

/-- The frame of a push (40_cycle.md R133). -/
theorem push32_memory (s : State) (v : Word) : memorySameOutside s (s.push32 v) (s.reg .SP - 4) 4 := by
  intro x hx ho
  rw [push32_def, readByte_memWrite_outside _ x 4 v (s.setReg .SP (s.reg .SP - 4)) (not_device_of_memory _ _ hx) ho,
    readByte_setReg s _ _ x hx]

/-- What a push leaves in the RAM (40_cycle.md R133). -/
theorem push32_holds (s : State) (v : Word) : ramHolds (s.push32 v) (s.reg .SP - 4) 4 v := by
  intro k hk hr
  rw [push32_cfg] at hr
  rw [push32_def]
  refine readByte_memWrite_inside _ 4 v _ k hk (by omega) ?_ ?_
  · show isDeviceByte s.cfg _ = false
    unfold isDeviceByte; rw [hr]
  · show route s.cfg _ ≠ .unmapped
    rw [hr]; exact fun h => nomatch h

/-- What the devices see of a push is what they see of its write (40_cycle.md R133). -/
theorem push32_devicesAsIn (s : State) (v : Word) : devicesAsIn (memWrite (s.reg .SP - 4) 4 v s) (s.push32 v) := by
  rw [push32_def]
  exact memWrite_devices_congr _ 4 v s (s.setReg .SP (s.reg .SP - 4)) rfl ⟨rfl, rfl⟩

theorem push32_devices (s : State) (v : Word) (h : noDevice s.cfg (s.reg .SP - 4) 4) : devicesSame s (s.push32 v) := by
  rw [push32_def]
  exact memWrite_devices _ _ _ _ (by simpa using h)

theorem pop32_def (s : State) :
    s.pop32 = ((memRead (s.reg .SP) 4 s).1,
      (memRead (s.reg .SP) 4 s).2.setReg .SP (s.reg .SP + 4)) := by
  simp [State.pop32]

end Sys2Proof.Machine
end

