-- ==== Sys2Proof/Laws/Frames.lean ====
section
/-! SUPPORT. The shared operations of an instruction: what a value read, a register result, a store, a push, a pop and
the return from an interrupt can do, said once for each. -/

namespace Sys2Proof.Machine

/-! ### States that differ in what the devices saw -/

/-- Only what the opaque devices saw and signalled differs. -/
def sameButDevices (s t : State) : Prop :=
  t.cfg = s.cfg ∧ t.regs = s.regs ∧ t.mem = s.mem ∧ t.pending = s.pending ∧ t.fault = s.fault ∧ t.running = s.running

theorem sameButDevices_refl (s : State) : sameButDevices s s := ⟨rfl, rfl, rfl, rfl, rfl, rfl⟩

theorem sameButDevices_reg (s t : State) (h : sameButDevices s t) (r : Reg) : t.reg r = s.reg r := by
  simp [State.reg, h.2.1]

theorem memRead_sameButDevices (a : Word) (n : Nat) (s : State) : sameButDevices s (memRead a n s).2 :=
  ⟨memRead_cfg .., memRead_regs .., memRead_mem .., memRead_pending .., memRead_fault .., memRead_running ..⟩

/-- Reading an operand changes nothing of the core (40_cycle.md R123). -/
theorem valueOf_sameButDevices (o : Operand) (w : Nat) (s : State) : sameButDevices s (valueOf o w s).2 := by
  cases o
  case ind r => exact memRead_sameButDevices _ _ _
  case abs p => exact memRead_sameButDevices _ _ _
  all_goals exact sameButDevices_refl s

@[simp] theorem valueOf_reg (r : Reg) (w : Nat) (s : State) : valueOf (.reg r) w s = (s.reg r, s) := rfl
@[simp] theorem valueOf_imm8 (v : Byte) (w : Nat) (s : State) : valueOf (.imm8 v) w s = (v.setWidth 32, s) := rfl
@[simp] theorem valueOf_imm16 (v : Half) (w : Nat) (s : State) : valueOf (.imm16 v) w s = (v.setWidth 32, s) := rfl
@[simp] theorem valueOf_imm32 (v : Word) (w : Nat) (s : State) : valueOf (.imm32 v) w s = (v, s) := rfl
@[simp] theorem valueOf_ind (r : Reg) (w : Nat) (s : State) : valueOf (.ind r) w s = memRead (s.reg r) w s := rfl
@[simp] theorem valueOf_abs (p : Word) (w : Nat) (s : State) : valueOf (.abs p) w s = memRead p w s := rfl

/-- Zero extension, as the statements write it (30_encoding.md R83). -/
theorem setWidth_eq_ofNat (n : Nat) (v : BitVec n) : v.setWidth 32 = BitVec.ofNat 32 v.toNat := by
  apply BitVec.eq_of_toNat_eq; simp

/-- The low `w` bytes of a value, as the statements write them (41_move.md R150). -/
theorem lowPart_eq (w : Nat) (v : Word) : lowPart w v = BitVec.ofNat 32 (v.toNat % 2 ^ (8 * w)) := by
  apply BitVec.eq_of_toNat_eq; simp [lowPart]

/-! ### Flags -/

theorem flag_def (s : State) (f : Flag) : s.flag f = flagOf (s.reg .FL) f := rfl

/-- What `SetFlags` computes (40_cycle.md R130). -/
theorem flagsOfResult_of (t : State) (w r : Word) (y v : Bool) (h : t.reg .FL = flagsAfter w r y v) :
    flagsOfResult t r y v := by
  refine ⟨?_, ?_, ?_, ?_, ?_⟩ <;> rw [flag_def, h, flagOf_flagsAfter]
  · rfl
  · simp [BitVec.msb_eq_getLsbD_last]
  · simp only [evenParity]
    have e : r.setWidth 8 = r.extractLsb' 0 8 := by
      apply BitVec.eq_of_getLsbD_eq; intro i hi; simp [hi]
    rw [e]; rfl

/-- `Ycarry` (40_cycle.md R132). -/
theorem carryOut_iff (z : Int) : carryOut z = true ↔ z < 0 ∨ 2 ^ 32 ≤ z := by
  unfold carryOut
  rw [Bool.or_eq_true, decide_eq_true_iff, decide_eq_true_iff]

/-- `Vover` (40_cycle.md R132). -/
theorem overflows_iff (z : Int) : overflows z = true ↔ z < -(2 ^ 31) ∨ 2 ^ 31 ≤ z := by
  unfold overflows
  rw [Bool.or_eq_true, decide_eq_true_iff, decide_eq_true_iff]

theorem extractHigh_eq (v w : Word) (h : ∀ m, 8 ≤ m → v.getLsbD m = w.getLsbD m) :
    v.extractLsb' 8 24 = w.extractLsb' 8 24 := by
  apply BitVec.eq_of_getLsbD_eq
  intro i hi
  simp only [BitVec.getLsbD_extractLsb', hi, decide_true, Bool.true_and]
  exact h _ (by omega)

/-- What `SetFlags` keeps (40_cycle.md R130). -/
theorem otherFlagsSame_of (s t : State) (r : Word) (y v : Bool) (h : t.reg .FL = flagsAfter (s.reg .FL) r y v) :
    otherFlagsSame s t := by
  refine ⟨?_, ?_, ?_, ?_⟩
  · rw [flag_def, h, flagOf_flagsAfter]; rfl
  · rw [flag_def, h, flagOf_flagsAfter]; rfl
  · rw [flag_def, h, flagOf_flagsAfter]; rfl
  · rw [h]; exact extractHigh_eq _ _ fun m hm => getLsbD_flagsAfter _ _ _ _ m hm

/-! ### Register results -/

/-- Everything the end of an instruction with a register destination does (42_alu.md R180; 40_cycle.md R126 to R128). -/
theorem writeResult_spec (s s1 : State) (h : sameButDevices s s1) (len : Nat) (d : Reg) (r : Word) (y v : Bool) :
    writesRegister s (s1.writeResult len d r y v) len d r y v ∧ devicesAsIn s1 (s1.writeResult len d r y v) := by
  have hr := sameButDevices_reg s s1 h
  obtain ⟨h1, h2, h3, h4, h5, h6⟩ := h
  refine ⟨⟨?_, ?_, ?_, ?_, ?_, ?_⟩, ?_⟩
  · rw [writeResult_reg, if_pos rfl]
  · intro hd
    have e : (s1.writeResult len d r y v).reg .FL = flagsAfter (s.reg .FL) r y v := by
      rw [writeResult_reg, if_neg (fun e => hd e.symm), if_neg (by decide), if_pos rfl, hr]
    exact ⟨flagsOfResult_of _ _ _ _ _ e, otherFlagsSame_of _ _ _ _ _ e⟩
  · intro hd
    rw [writeResult_reg, if_neg (fun e => hd e.symm), if_pos rfl, hr]
  · intro q hq
    simp only [List.mem_cons, List.not_mem_nil, or_false, not_or] at hq
    rw [writeResult_reg, if_neg hq.1, if_neg hq.2.1, if_neg hq.2.2, hr]
  · exact ⟨by simp [h1], by simp [h4], by simp [h5], by simp [h6]⟩
  · exact memorySame_of_mem _ _ (by simp [h1]) (by simp [h3])
  · exact ⟨by simp, by simp⟩

/-- Everything a two-operand ALU instruction does (42_alu.md R180). -/
theorem aluTwo_spec (f : Word → Word → AluResult) (len : Nat) (d : Reg) (src : Operand) (s : State) :
    writesRegister s (aluTwo f len d src s) len d (f (s.reg d) (valueOf src 4 s).1).r
      (f (s.reg d) (valueOf src 4 s).1).y (f (s.reg d) (valueOf src 4 s).1).v ∧
    devicesAsIn (valueOf src 4 s).2 (aluTwo f len d src s) :=
  writeResult_spec s _ (valueOf_sameButDevices src 4 s) ..

/-- Everything a one-operand ALU instruction does (42_alu.md R180). -/
theorem aluOne_spec (f : Word → AluResult) (d : Reg) (s : State) :
    writesRegister s (aluOne f d s) 2 d (f (s.reg d)).r (f (s.reg d)).y (f (s.reg d)).v ∧
    devicesSame s (aluOne f d s) :=
  writeResult_spec s s (sameButDevices_refl s) ..

/-- Everything a move into a register does (41_move.md R151 to R156). -/
theorem moveToReg_spec (len w : Nat) (d : Reg) (src : Operand) (s : State) :
    writesRegister s (moveToReg len w d src s) len d (lowPart w (valueOf src w s).1) false false ∧
    devicesAsIn (valueOf src w s).2 (moveToReg len w d src s) :=
  writeResult_spec s _ (valueOf_sameButDevices src w s) ..

/-! ### Fatal conditions -/

/-- Everything a fatal condition does (60_exceptions.md R305). -/
theorem fatal_spec (s : State) (m : FaultMark) : raisesOnly s (s.fatal m) m :=
  ⟨rfl, rfl, rfl, rfl, rfl, rfl, rfl, rfl⟩

/-! ### Stores -/

/-- A move into memory that `CheckWrites` turns away (40_cycle.md R138). -/
theorem moveToMem_fatal (len w : Nat) (ea : Word) (src : Operand) (s : State) (h : dataWriteFatal s.cfg ea w = true) :
    moveToMem len w ea src s = s.fatal (.cpuWindowWrite (s.reg .PC) ea) := by
  simp [moveToMem, h]

theorem moveToMem_ok (len w : Nat) (ea : Word) (src : Operand) (s : State) (h : dataWriteFatal s.cfg ea w = false) :
    moveToMem len w ea src s =
      ((memWrite ea w (valueOf src w s).1 (valueOf src w s).2).setFlags (lowPart w (valueOf src w s).1) false
        false).advance len := by
  simp [moveToMem, h]

/-- What a byte reads as depends on the configuration, the registers and the RAM alone, outside the device windows. -/
theorem readByte_congr (s t : State) (x : Word) (hc : t.cfg = s.cfg) (hm : t.mem = s.mem)
    (hr : ∀ o, route s.cfg x = .cpu o → t.cpuGet o = s.cpuGet o) (h : isDeviceByte s.cfg x = false) :
    readByte t x = readByte s x := by
  cases e : route s.cfg x with
  | ram => exact readByte_memory s t x hc hm (.inl e)
  | unmapped => exact readByte_memory s t x hc hm (.inr e)
  | cpu o => rw [readByte_cpu s x o e, readByte_cpu t x o (hc ▸ e), hr o e]
  | device n o => simp [isDeviceByte, e] at h

/-- A register write leaves the CPU window's bytes outside its slot (20_memory.md R59). -/
theorem cpuGet_setReg (s : State) (r : Reg) (v : Word) (o : Nat) (h : o / 4 ≠ r.number) :
    (s.setReg r v).cpuGet o = s.cpuGet o := by
  unfold State.cpuGet
  cases e : Reg.ofNumber (o / 4) with
  | none => rfl
  | some q =>
    have := ofNumber_eq _ _ e
    simp only [reg_setReg]
    rw [if_neg]
    rintro rfl; exact h this

/-- Flags and the PC advance leave every byte but those of the PC and FL slots. -/
theorem readByte_setFlags_advance (s : State) (r : Word) (y v : Bool) (len : Nat) (x : Word)
    (hd : isDeviceByte s.cfg x = false) (hc : ∀ o, route s.cfg x = .cpu o → o < 56) :
    readByte ((s.setFlags r y v).advance len) x = readByte s x := by
  refine readByte_congr s _ x rfl rfl (fun o ho => ?_) hd
  have := hc o ho
  unfold State.advance State.setFlags
  rw [cpuGet_setReg _ _ _ _ (by simp [Reg.number]; omega), cpuGet_setReg _ _ _ _ (by simp [Reg.number]; omega)]

/-- The registers after a move into memory: FL takes the flags, PC is advanced, any other register keeps its value
unless its slot is stored to (20_memory.md R61). -/
theorem moveToMem_regs (len w : Nat) (ea : Word) (src : Operand) (s : State) (h : dataWriteFatal s.cfg ea w = false) :
    (moveToMem len w ea src s).reg .PC = s.reg .PC + BitVec.ofNat 32 len ∧
    (moveToMem len w ea src s).reg .FL = flagsAfter (s.reg .FL) (lowPart w (valueOf src w s).1) false false ∧
    ∀ r, r ≠ .PC → r ≠ .FL →
      (∀ k, k < w → ∀ o, route s.cfg (ea + BitVec.ofNat 32 k) = .cpu o → o / 4 ≠ r.number) →
      (moveToMem len w ea src s).reg r = s.reg r := by
  have hs := valueOf_sameButDevices src w s
  have hr := sameButDevices_reg s _ hs
  have hc : (valueOf src w s).2.cfg = s.cfg := hs.1
  rw [moveToMem_ok _ _ _ _ _ h]
  refine ⟨?_, ?_, ?_⟩
  · simp [memWrite_pc_fl ea w _ (valueOf src w s).2 (by rw [hc]; exact h) .PC (.inl rfl), hr]
  · simp [memWrite_pc_fl ea w _ (valueOf src w s).2 (by rw [hc]; exact h) .FL (.inr rfl), hr]
  · intro r h1 h2 h3
    simp only [advance_reg, setFlags_reg, if_neg h1, if_neg h2]
    rw [memWrite_reg _ _ _ _ _ (by rw [hc]; exact h3), hr]

/-- Everything a move into memory does that `CheckWrites` lets pass (41_move.md R150, R152 to R155). -/
theorem moveToMem_spec (len w : Nat) (ea : Word) (src : Operand) (s : State) (hw : w ≤ 2 ^ 32)
    (h : dataWriteFatal s.cfg ea w = false) :
    storesBytes s (moveToMem len w ea src s) (valueOf src w s).2 len w ea (valueOf src w s).1 := by
  have hs := valueOf_sameButDevices src w s
  obtain ⟨hpc, hfl, hrest⟩ := moveToMem_regs len w ea src s h
  have hregs := sameButDevices_reg s _ hs
  obtain ⟨h1, h2, h3, h4, h5, h6⟩ := hs
  have hsame : ∀ x, isDeviceByte s.cfg x = false → readByte (valueOf src w s).2 x = readByte s x := fun x hx =>
    readByte_congr s _ x h1 h3 (fun o _ => by simp [State.cpuGet, hregs]) hx
  have hread : ∀ x, isDeviceByte s.cfg x = false → (∀ o, route s.cfg x = .cpu o → o < 56) →
      readByte (moveToMem len w ea src s) x = readByte (memWrite ea w (valueOf src w s).1 (valueOf src w s).2) x := by
    intro x hx ho
    rw [moveToMem_ok _ _ _ _ _ h]
    exact readByte_setFlags_advance _ _ _ _ _ x (by simpa [h1] using hx) (by simpa [h1] using ho)
  have hout : ∀ x, isDeviceByte s.cfg x = false → (∀ o, route s.cfg x = .cpu o → o < 56) → outside ea w x →
      readByte (moveToMem len w ea src s) x = readByte s x := by
    intro x hx ho hx'
    rw [hread x hx ho, readByte_memWrite_outside _ _ _ _ _ (by simpa [h1] using hx) hx', hsame x hx]
  refine ⟨?_, ?_, ?_, ?_, ?_, ?_, hpc, ?_, ?_, ?_⟩
  · intro k hk hd hu
    have hf := (rangeTouches_false _ _ _).mp h k hk
    rw [hread _ hd (fun o ho => by simpa [isPcOrFlByte, ho] using hf)]
    exact readByte_memWrite_inside ea w _ _ k hk hw (by simpa [h1] using hd) (by simpa [h1] using hu)
  · intro x hx ho
    refine hout x (not_device_of_memory _ _ hx) (fun o hr => ?_) ho
    rcases hx with hx | hx <;> rw [hx] at hr <;> contradiction
  · intro x o hr ho hx
    exact hout x (by simp [isDeviceByte, hr]) (fun o' hr' => by rw [hr] at hr'; injection hr'; omega) hx
  · exact hrest
  · rw [← lowPart_eq]; exact flagsOfResult_of _ _ _ _ _ hfl
  · exact otherFlagsSame_of _ _ _ _ _ hfl
  · rw [moveToMem_ok _ _ _ _ _ h]
    exact ⟨by simp [h1], by simp [h4], by simp [h5], by simp [h6]⟩
  · rw [moveToMem_ok _ _ _ _ _ h]
    exact ⟨rfl, rfl⟩
  · intro hd
    rw [moveToMem_ok _ _ _ _ _ h]
    exact memWrite_devices ea w _ _ (by simpa [h1] using hd)

/-! ### Comparison, division, branches -/

/-- Everything `cmp` does: no register but PC and FL, no memory (42_alu.md R189). -/
theorem compare_spec (len : Nat) (d : Reg) (src : Operand) (s : State) :
    (∀ r, (compare len d src s).reg r =
      if r = .PC then s.reg .PC + BitVec.ofNat 32 len
      else if r = .FL then
        putFlag (putFlag (flagsAfter (s.reg .FL) (aluSub (s.reg d) (valueOf src 4 s).1).r
          (aluSub (s.reg d) (valueOf src 4 s).1).y (aluSub (s.reg d) (valueOf src 4 s).1).v)
          .GT (greater s.cfg.cmpMode (s.reg d) (valueOf src 4 s).1)) .LT
          (less s.cfg.cmpMode (s.reg d) (valueOf src 4 s).1)
      else s.reg r) ∧
    controlSame s (compare len d src s) ∧ (compare len d src s).mem = s.mem ∧
    devicesAsIn (valueOf src 4 s).2 (compare len d src s) := by
  have hs := valueOf_sameButDevices src 4 s
  have hr := sameButDevices_reg s _ hs
  obtain ⟨h1, h2, h3, h4, h5, h6⟩ := hs
  refine ⟨fun r => ?_, ⟨?_, ?_, ?_, ?_⟩, ?_, ?_, ?_⟩
  · cases r <;> simp [compare, hr]
  · simp [compare, h1]
  · simp [compare, h4]
  · simp [compare, h5]
  · simp [compare, h6]
  · simp [compare, h3]
  · simp [compare]
  · simp [compare]

/-- A division by 0 (42_alu.md R191, R192). -/
theorem divide_zero (n : Mnemonic) (f : Signedness → Word → Word → AluResult) (len : Nat) (d : Reg) (src : Operand)
    (s : State) (h : (valueOf src 4 s).1 = 0) :
    divide n f len d src s =
      (valueOf src 4 s).2.fatal (.divideByZero (s.reg .PC) (currentOpcode s.cfg n d src)) := by
  unfold divide; exact if_pos h

/-- A division by a divisor that is not 0 has the frame of the other ALU instructions (42_alu.md R180). -/
theorem divide_nonzero (n : Mnemonic) (f : Signedness → Word → Word → AluResult) (len : Nat) (d : Reg)
    (src : Operand) (s : State) (h : (valueOf src 4 s).1 ≠ 0) :
    divide n f len d src s = aluTwo (f s.cfg.divMode) len d src s := by
  unfold divide; exact if_neg h

/-- Everything the PC advance does, and everything a jump does (40_cycle.md R126, R127). -/
theorem jump_spec (s : State) (v : Word) : onlyPcChanges s (s.jump v) v := by
  refine ⟨by simp, fun r hr => ?_, ⟨rfl, rfl, rfl, rfl⟩, memorySame_of_mem _ _ rfl rfl, rfl, rfl⟩
  simp at hr
  simp [hr]

/-- Everything a conditional branch does to a register or immediate target (43_control.md R230). -/
theorem branch_spec (f : Flag) (wanted : Bool) (len : Nat) (t : Operand) (s : State) (v : Word)
    (h : valueOf t 4 s = (v, s)) :
    branch f wanted len t s = s.jump (if s.flag f = wanted then v else s.reg .PC + BitVec.ofNat 32 len) := by
  simp only [branch, h]
  split <;> rfl

/-! ### The stack -/

/-- Everything a push that passed `CheckWrites` does (40_cycle.md R133). -/
theorem push32_spec (s : State) (v : Word) (h : stackWriteFatal s.cfg (s.reg .SP - 4) 4 = false) :
    pushed s (s.push32 v) v ∧ registersSameBut s (s.push32 v) [.SP] := by
  refine ⟨⟨by simp [push32_reg s v h], push32_holds s v, push32_memory s v, ⟨by simp, by simp, by simp, by simp⟩,
    push32_devicesAsIn s v, push32_devices s v⟩, fun r hr => ?_⟩
  simp at hr
  simp [push32_reg s v h, hr]

/-- Setting PC after a push keeps what the push did. -/
theorem pushed_setPC (s t : State) (v w : Word) (h : pushed s t v) : pushed s (t.setReg .PC w) v := by
  obtain ⟨h1, h2, h3, ⟨hc, h4⟩, h5⟩ := h
  refine ⟨by simp [h1], fun k hk hr => ?_, fun x hx ho => ?_, ⟨hc, h4⟩, h5⟩
  · rw [readByte_memory t (t.setReg .PC w) _ rfl rfl (.inl hr)]; exact h2 k hk hr
  · rw [readByte_memory t (t.setReg .PC w) _ rfl rfl (hc ▸ hx)]; exact h3 x hx ho

/-- `push` that `CheckWrites` turns away (40_cycle.md R138). -/
theorem pushValue_fatal (len : Nat) (src : Operand) (s : State) (h : stackWriteFatal s.cfg (s.reg .SP - 4) 4 = true) :
    pushValue len src s = s.fatal (.cpuWindowWrite (s.reg .PC) (s.reg .SP - 4)) := by
  unfold pushValue; exact if_pos h

/-- `call` that `CheckWrites` turns away (40_cycle.md R138). -/
theorem callTo_fatal (len : Nat) (src : Operand) (s : State) (h : stackWriteFatal s.cfg (s.reg .SP - 4) 4 = true) :
    callTo len src s = s.fatal (.cpuWindowWrite (s.reg .PC) (s.reg .SP - 4)) := by
  unfold callTo; exact if_pos h

theorem pushValue_ok (len : Nat) (src : Operand) (s : State) (v : Word) (hv : valueOf src 4 s = (v, s))
    (h : stackWriteFatal s.cfg (s.reg .SP - 4) 4 = false) : pushValue len src s = (s.push32 v).advance len := by
  unfold pushValue; rw [if_neg (by rw [h]; exact Bool.false_ne_true), hv]

theorem callTo_ok (len : Nat) (src : Operand) (s : State) (v : Word) (hv : valueOf src 4 s = (v, s))
    (h : stackWriteFatal s.cfg (s.reg .SP - 4) 4 = false) :
    callTo len src s = (s.push32 (s.reg .PC + BitVec.ofNat 32 len)).jump v := by
  unfold callTo; rw [if_neg (by rw [h]; exact Bool.false_ne_true), hv]

/-- Everything a pop does to the registers (40_cycle.md R134). -/
theorem pop32_reg (s : State) (r : Reg) :
    s.pop32.2.reg r = if r = .SP then s.reg .SP + 4 else s.reg r := by
  rw [pop32_def]; simp

/-- What a pop gives, and what it leaves alone (40_cycle.md R134). -/
theorem pop32_spec (s : State) :
    s.pop32.1 = (memRead (s.reg .SP) 4 s).1 ∧ s.pop32.2.cfg = s.cfg ∧ s.pop32.2.mem = s.mem ∧
    s.pop32.2.pending = s.pending ∧ s.pop32.2.fault = s.fault ∧ s.pop32.2.running = s.running ∧
    devicesAsIn (memRead (s.reg .SP) 4 s).2 s.pop32.2 := by
  rw [pop32_def]
  refine ⟨by simp, by simp, by simp, by simp, by simp, by simp, ?_, ?_⟩ <;> simp

theorem popInto_def (d : Reg) (s : State) :
    popInto d s = if d = .PC then s.pop32.2.jump s.pop32.1 else (s.pop32.2.setReg d s.pop32.1).advance 2 := by
  unfold popInto
  generalize s.pop32 = p
  cases d <;> rfl

/-- Everything `pop d` does to the registers (44_stack_misc.md R261). -/
theorem popInto_reg (d : Reg) (s : State) (r : Reg) :
    (popInto d s).reg r =
      if r = d then (memRead (s.reg .SP) 4 s).1
      else if r = .PC then s.reg .PC + 2
      else if r = .SP then s.reg .SP + 4
      else s.reg r := by
  rw [popInto_def, ← (pop32_spec s).1]
  by_cases hd : d = .PC
  · rw [if_pos hd, hd, jump_reg, pop32_reg]
    by_cases hr : r = .PC <;> simp [hr]
  · rw [if_neg hd, advance_reg, reg_setReg, reg_setReg, pop32_reg, pop32_reg]
    by_cases hr : r = .PC
    · subst hr; simp [show ¬ Reg.PC = d from fun e => hd e.symm]
    · simp [hr]

/-- What `pop d` leaves alone (44_stack_misc.md R261). -/
theorem popInto_frame (d : Reg) (s : State) :
    (popInto d s).mem = s.mem ∧ controlSame s (popInto d s) ∧ devicesAsIn (memRead (s.reg .SP) 4 s).2 (popInto d s) := by
  obtain ⟨-, h1, h2, h3, h4, h5, h6, h7⟩ := pop32_spec s
  rw [popInto_def]
  generalize memRead (s.reg .SP) 4 s = x at h6 h7 ⊢
  generalize s.pop32 = p at *
  split
  · exact ⟨h2, ⟨h1, h3, h4, h5⟩, h6, h7⟩
  · exact ⟨h2, ⟨h1, h3, h4, h5⟩, h6, h7⟩

/-- The return from an interrupt as its two pops (43_control.md R244). -/
theorem returnFromInterrupt_def (s : State) :
    s.returnFromInterrupt = (s.pop32.2.setReg .FL s.pop32.1).pop32.2.jump (s.pop32.2.setReg .FL s.pop32.1).pop32.1 := by
  unfold State.returnFromInterrupt
  generalize s.pop32 = p
  obtain ⟨fl, s1⟩ := p
  simp only []

/-- Everything the return from an interrupt does to the registers (43_control.md R244). -/
theorem returnFromInterrupt_reg (s : State) (r : Reg) :
    s.returnFromInterrupt.reg r =
      if r = .PC then (s.pop32.2.setReg .FL s.pop32.1).pop32.1
      else if r = .SP then s.reg .SP + 4 + 4
      else if r = .FL then (memRead (s.reg .SP) 4 s).1
      else s.reg r := by
  rw [returnFromInterrupt_def]
  simp only [jump_reg, pop32_reg, reg_setReg]
  rw [← (pop32_spec s).1]
  by_cases h1 : r = .PC
  · simp [h1]
  · by_cases h2 : r = .SP
    · simp [h2]
    · by_cases h3 : r = .FL <;> simp [h1, h2, h3]

end Sys2Proof.Machine
end

