-- ==== Sys2Proof/Laws/Config.lean ====
section
/-! SUPPORT. What a well-formed configuration gives, part by part, and where the vector table lies. -/

namespace Sys2Proof

/-- The two ways a check ends. -/
theorem check_nil (b : Bool) (e : ConfigError) : (if b then [] else [e]) = [] ↔ b = true := by
  cases b <;> simp

/-- A well-formed opcode map, check by check (log entry 2). -/
theorem opcodeMap_wf_iff (m : OpcodeMap) : m.wf ↔
    m.lookup 1 = some ⟨.mov, [.reg, .reg]⟩ ∧ pairwise (fun x y => x.1 != y.1) m = true ∧
    pairwise (fun x y => x.2 != y.2) m = true ∧ ∀ x ∈ m, x.2.known = true := by
  unfold OpcodeMap.wf OpcodeMap.errors
  simp only [List.append_eq_nil_iff, check_nil]
  simp only [beq_iff_eq, List.all_eq_true, and_assoc]

/-- A well-formed configuration, check by check (20_memory.md R51, R52, R68; 60_exceptions.md R308). -/
theorem config_wf_iff (c : Config) : c.wf ↔
    (∀ w ∈ c.windows, 1 ≤ w.size) ∧ (∀ w ∈ c.windows, w.base.toNat + w.size ≤ 2 ^ 32) ∧
    pairwise Window.disjoint c.windows = true ∧ 1 ≤ c.nIrq ∧
    (c.ramBase.toNat ≤ c.ivtBase.toNat ∧ c.ivtBase.toNat + 4 * c.nIrq ≤ c.ramBase.toNat + c.ramSize) ∧
    (∀ l ∈ c.lines, l < c.nIrq) ∧ pairwise (fun x y => x != y) c.lines = true ∧ c.opcodes.wf := by
  unfold Config.wf Config.errors
  simp only [List.append_eq_nil_iff, check_nil]
  simp only [List.all_eq_true, and_assoc, Window.fits, Bool.and_eq_true, decide_eq_true_eq]

/-- Two members of a pairwise list at different places. -/
theorem pairwise_get {α : Type} (f : α → α → Bool) (hf : ∀ x y, f x y = f y x) (l : List α)
    (h : pairwise f l = true) (j k : Nat) (x y : α) (hjk : j ≠ k) (hj : l[j]? = some x) (hk : l[k]? = some y) :
    f x y = true := by
  induction l generalizing j k with
  | nil => simp at hj
  | cons a l ih =>
    simp only [pairwise, Bool.and_eq_true, List.all_eq_true] at h
    cases j with
    | zero =>
      cases k with
      | zero => exact absurd rfl hjk
      | succ k =>
        simp at hj hk; subst hj
        exact h.1 y (List.mem_of_getElem? hk)
    | succ j =>
      cases k with
      | zero =>
        simp at hj hk; subst hk
        rw [hf]; exact h.1 x (List.mem_of_getElem? hj)
      | succ k => exact ih h.2 j k (by omega) (by simpa using hj) (by simpa using hk)

/-- Disjoint windows share no address (20_memory.md R52). -/
theorem disjoint_no_shared (u w : Window) (h : u.disjoint w = true) (a : Word) :
    ¬ (Machine.inWindow u a = true ∧ Machine.inWindow w a = true) := by
  simp only [Window.disjoint, Bool.or_eq_true, decide_eq_true_eq] at h
  rw [Machine.inWindow_iff, Machine.inWindow_iff]
  omega

theorem disjoint_symm (u w : Window) : u.disjoint w = w.disjoint u := by
  simp only [Window.disjoint]; exact Bool.or_comm _ _

/-- The window of a lookup: the map's own entry. -/
theorem lookup_mem (m : OpcodeMap) (op : Byte) (r : Row) (h : m.lookup op = some r) : (op, r) ∈ m := by
  induction m with
  | nil => simp at h
  | cons x xs ih =>
    obtain ⟨o, r'⟩ := x
    simp only [List.lookup_cons] at h
    split at h
    · rename_i e; injection h with h; subst h
      have : op = o := by simpa using e
      subst this; exact List.mem_cons_self
    · exact List.mem_cons_of_mem _ (ih h)

/-- In a well-formed map the opcode of a row and the row of an opcode say the same thing (30_encoding.md R80). -/
theorem opcodeOf_iff_lookup (m : OpcodeMap) (hm : m.wf) (op : Byte) (r : Row) :
    m.opcodeOf r = some op ↔ m.lookup op = some r := by
  obtain ⟨-, h1, h2, -⟩ := (opcodeMap_wf_iff m).mp hm
  clear hm
  unfold OpcodeMap.opcodeOf
  induction m with
  | nil => simp
  | cons x xs ih =>
    obtain ⟨o, r'⟩ := x
    simp only [pairwise, Bool.and_eq_true, List.all_eq_true, bne_iff_ne] at h1 h2
    have ih := ih h1.2 h2.2
    simp only [List.lookup_cons, List.find?_cons]
    by_cases hr : r' = r
    · subst hr
      simp only [beq_self_eq_true, Option.map_some, Option.some.injEq]
      constructor
      · rintro rfl; simp
      · intro h
        split at h
        · rename_i e; have : op = o := by simpa using e
          exact this.symm
        · exact absurd rfl (h2.1 _ (lookup_mem _ _ _ h))
    · rw [show (r' == r) = false by simpa using hr]
      simp only []
      rw [ih]
      by_cases ho : op = o
      · subst ho
        simp only [beq_self_eq_true, Option.some.injEq, hr, iff_false]
        intro h
        exact absurd rfl (h1.1 _ (lookup_mem _ _ _ h))
      · rw [show (op == o) = false by simpa using ho]

end Sys2Proof

namespace Sys2Proof.Machine

/-- A RAM address, by its number (20_memory.md R58). -/
theorem route_ram_iff (c : Config) (a : Word) :
    route c a = .ram ↔ c.ramBase.toNat ≤ a.toNat ∧ a.toNat < c.ramBase.toNat + c.ramSize := by
  have hd : ∀ (ds : List Device) (n : Nat), routeDevices a n ds ≠ .ram := by
    intro ds
    induction ds with
    | nil => intro n h; simp [routeDevices] at h
    | cons d ds ih =>
      intro n h
      simp only [routeDevices] at h
      split at h
      · contradiction
      · exact ih _ h
  have hw := inWindow_iff c.ramWindow a
  simp only [Config.ramWindow] at hw
  unfold route
  constructor
  · intro h
    split at h
    · rename_i e; exact hw.mp e
    · split at h
      · contradiction
      · exact absurd h (hd _ _)
  · intro h
    rw [if_pos (by exact hw.mpr h)]

/-- In a well-formed configuration the vector of an existing line lies in the RAM (20_memory.md R68). -/
theorem vector_allRam (c : Config) (h : c.wf) (i : Nat) (hi : i < c.nIrq) :
    allRam c (c.ivtBase + BitVec.ofNat 32 (4 * i)) 4 := by
  obtain ⟨-, h2, -, -, h5, -⟩ := (config_wf_iff c).mp h
  have h2 := h2 c.ramWindow (by simp [Config.windows])
  simp only [Config.ramWindow] at h2
  intro k hk
  rw [route_ram_iff]
  have e : (c.ivtBase + BitVec.ofNat 32 (4 * i) + BitVec.ofNat 32 k).toNat = c.ivtBase.toNat + 4 * i + k := by
    simp only [BitVec.toNat_add, BitVec.toNat_ofNat]; omega
  rw [e]; omega

/-- The address of a vector, as the statements write it (60_exceptions.md R318). -/
theorem vectorAddress_eq (c : Config) (i : Nat) : vectorAddress c i = c.ivtBase + BitVec.ofNat 32 (4 * i) := by
  unfold vectorAddress
  congr 1
  apply BitVec.eq_of_toNat_eq; simp

end Sys2Proof.Machine
end

