-- ==== Sys2Proof/Laws/Interrupt.lean ====
section
/-! SUPPORT. Interrupt entry, InterruptCheck and the end of a step: what each can do, said once. -/

namespace Sys2Proof.Machine

theorem toNat_four : (4 : Word).toNat = 4 := rfl
theorem toNat_eight : (8 : Word).toNat = 8 := rfl

/-- A range of 8 bytes is two ranges of 4. -/
theorem rangeTouches_split (f : Word → Bool) (a : Word) (h : rangeTouches f (a - 8) 8 = false) :
    rangeTouches f (a - 4) 4 = false ∧ rangeTouches f (a - 4 - 4) 4 = false := by
  have h := (rangeTouches_false _ _ _).mp h
  constructor
  · refine (rangeTouches_false _ _ _).mpr fun k hk => ?_
    have e : a - 4 + BitVec.ofNat 32 k = a - 8 + BitVec.ofNat 32 (k + 4) := by
      apply BitVec.eq_of_toNat_eq
      simp only [BitVec.toNat_add, BitVec.toNat_sub, BitVec.toNat_ofNat, toNat_four, toNat_eight]; omega
    rw [e]; exact h (k + 4) (by omega)
  · refine (rangeTouches_false _ _ _).mpr fun k hk => ?_
    have e : a - 4 - 4 = a - 8 := by bv_omega
    rw [e]; exact h k (by omega)

theorem stackWriteFatal_split (c : Config) (a : Word) (h : stackWriteFatal c (a - 8) 8 = false) :
    stackWriteFatal c (a - 4) 4 = false ∧ stackWriteFatal c (a - 4 - 4) 4 = false := rangeTouches_split _ _ h

/-- The state of an entry on line `i` once PC and FL are pushed and T is clear (60_exceptions.md R316). -/
def entryPushed (s : State) (i : Nat) : State :=
  (((s.dropLine i).push32 (s.reg .PC)).push32 (s.reg .FL)).setFlag .T false

/-- Interrupt entry that `CheckWrites` turns away (60_exceptions.md R304, R316). -/
theorem enterInterrupt_fatal (s : State) (i : Nat) (h : stackWriteFatal s.cfg (s.reg .SP - 8) 8 = true) :
    s.enterInterrupt i = s.fatal (.cpuWindowWrite (s.reg .PC) (s.reg .SP - 8)) := by
  unfold State.enterInterrupt; exact if_pos h

/-- Interrupt entry that `CheckWrites` lets pass (60_exceptions.md R316). -/
theorem enterInterrupt_ok (s : State) (i : Nat) (h : stackWriteFatal s.cfg (s.reg .SP - 8) 8 = false) :
    s.enterInterrupt i =
      (memRead (vectorAddress s.cfg i) 4 (entryPushed s i)).2.jump
        (memRead (vectorAddress s.cfg i) 4 (entryPushed s i)).1 := by
  have h1 := (stackWriteFatal_split _ _ h).1
  have e : ((s.dropLine i).push32 (s.reg .PC)).reg .FL = s.reg .FL := by
    rw [push32_reg (s.dropLine i) _ h1]; simp
  unfold State.enterInterrupt entryPushed
  rw [if_neg (by rw [h]; exact Bool.false_ne_true)]
  simp only [e, setFlag_cfg, push32_cfg, dropLine_cfg]

theorem entryPushed_cfg (s : State) (i : Nat) : (entryPushed s i).cfg = s.cfg := by simp [entryPushed]
theorem entryPushed_pending (s : State) (i : Nat) :
    (entryPushed s i).pending = s.pending.filter (fun j => j != i) := by simp [entryPushed]
theorem entryPushed_fault (s : State) (i : Nat) : (entryPushed s i).fault = s.fault := by simp [entryPushed]
theorem entryPushed_running (s : State) (i : Nat) : (entryPushed s i).running = s.running := by simp [entryPushed]

/-- The registers after the pushes of an entry (60_exceptions.md R316). -/
theorem entryPushed_reg (s : State) (i : Nat) (h : stackWriteFatal s.cfg (s.reg .SP - 8) 8 = false) (r : Reg) :
    (entryPushed s i).reg r =
      if r = .FL then putFlag (s.reg .FL) .T false else if r = .SP then s.reg .SP - 8 else s.reg r := by
  obtain ⟨h1, h2⟩ := stackWriteFatal_split _ _ h
  have g1 := push32_reg (s.dropLine i) (s.reg .PC) h1
  have hsp : ((s.dropLine i).push32 (s.reg .PC)).reg .SP = s.reg .SP - 4 := by rw [g1]; simp
  have g2 := push32_reg ((s.dropLine i).push32 (s.reg .PC)) (s.reg .FL) (by rw [hsp, push32_cfg]; exact h2)
  have e : s.reg .SP - 4 - 4 = s.reg .SP - 8 := by bv_omega
  unfold entryPushed
  rw [setFlag_reg, g2, g2, hsp, e]
  by_cases hf : r = .FL
  · subst hf; simp [g1]
  · by_cases hs : r = .SP
    · simp [hs]
    · simp [hf, hs, g1]

/-- The words an entry leaves on a stack that is RAM (60_exceptions.md R316). -/
theorem entryPushed_holds (s : State) (i : Nat) (h : stackWriteFatal s.cfg (s.reg .SP - 8) 8 = false) :
    ramHolds (entryPushed s i) (s.reg .SP - 4) 4 (s.reg .PC) ∧
    ramHolds (entryPushed s i) (s.reg .SP - 8) 4 (s.reg .FL) ∧
    memorySameOutside s (entryPushed s i) (s.reg .SP - 8) 8 := by
  obtain ⟨h1, h2⟩ := stackWriteFatal_split _ _ h
  have g1 := push32_reg (s.dropLine i) (s.reg .PC) h1
  have hsp : ((s.dropLine i).push32 (s.reg .PC)).reg .SP = s.reg .SP - 4 := by rw [g1]; simp
  have e : s.reg .SP - 4 - 4 = s.reg .SP - 8 := by bv_omega
  have m2 := push32_memory ((s.dropLine i).push32 (s.reg .PC)) (s.reg .FL)
  have v2 := push32_holds ((s.dropLine i).push32 (s.reg .PC)) (s.reg .FL)
  have m1 := push32_memory (s.dropLine i) (s.reg .PC)
  have v1 := push32_holds (s.dropLine i) (s.reg .PC)
  rw [hsp, e] at m2 v2
  simp only [dropLine_reg] at m1 v1
  have hT : ∀ x, isMemory s.cfg x → readByte (entryPushed s i) x =
      readByte (((s.dropLine i).push32 (s.reg .PC)).push32 (s.reg .FL)) x := fun x hx =>
    readByte_setReg _ _ _ x (by simpa using hx)
  refine ⟨fun k hk hr => ?_, fun k hk hr => ?_, fun x hx ho => ?_⟩
  · rw [entryPushed_cfg] at hr
    rw [hT _ (.inl hr), m2 _ (.inl (by simpa using hr)) ?_]
    · exact v1 k hk (by simpa using hr)
    · intro j hj hx
      have := congrArg BitVec.toNat hx
      simp only [BitVec.toNat_add, BitVec.toNat_sub, BitVec.toNat_ofNat, toNat_four, toNat_eight] at this
      omega
  · rw [entryPushed_cfg] at hr
    rw [hT _ (.inl hr)]
    exact v2 k hk (by simpa using hr)
  · have o1 : outside (s.reg .SP - 4) 4 x := by
      intro k hk hx
      refine ho (k + 4) (by omega) ?_
      rw [hx]; apply BitVec.eq_of_toNat_eq
      simp only [BitVec.toNat_add, BitVec.toNat_sub, BitVec.toNat_ofNat, toNat_four, toNat_eight]; omega
    have o2 : outside (s.reg .SP - 8) 4 x := fun k hk hx => ho k (by omega) hx
    rw [hT x hx, m2 x (by simpa [isMemory] using hx) o2, m1 x hx o1]
    exact readByte_memory s _ x rfl rfl hx

/-- What the devices see of the pushes of an entry (60_exceptions.md R316). -/
theorem entryPushed_devicesAsIn (s : State) (i : Nat) (h : stackWriteFatal s.cfg (s.reg .SP - 8) 8 = false) :
    devicesAsIn (memWrite (s.reg .SP - 8) 4 (s.reg .FL) (memWrite (s.reg .SP - 4) 4 (s.reg .PC) s))
      (entryPushed s i) := by
  have h1 := (stackWriteFatal_split _ _ h).1
  have hsp : ((s.dropLine i).push32 (s.reg .PC)).reg .SP = s.reg .SP - 4 := by
    rw [push32_reg (s.dropLine i) _ h1]; simp
  have e : s.reg .SP - 4 - 4 = s.reg .SP - 8 := by bv_omega
  have g1 := push32_devicesAsIn (s.dropLine i) (s.reg .PC)
  have g1' := memWrite_devices_congr (s.reg .SP - 4) 4 (s.reg .PC) s (s.dropLine i) rfl ⟨rfl, rfl⟩
  have g2 := push32_devicesAsIn ((s.dropLine i).push32 (s.reg .PC)) (s.reg .FL)
  have g2' := memWrite_devices_congr (s.reg .SP - 8) 4 (s.reg .FL) (memWrite (s.reg .SP - 4) 4 (s.reg .PC) s)
    ((s.dropLine i).push32 (s.reg .PC)) (by simp) ⟨g1.1.trans g1'.1, g1.2.trans g1'.2⟩
  rw [hsp, e] at g2
  unfold devicesAsIn at *
  unfold entryPushed
  rw [setFlag_devices, setFlag_signalled]
  with_reducible exact ⟨g2.1.trans g2'.1, g2.2.trans g2'.2⟩

theorem entryPushed_devices (s : State) (i : Nat) (h : stackWriteFatal s.cfg (s.reg .SP - 8) 8 = false)
    (hd : noDevice s.cfg (s.reg .SP - 8) 8) : devicesSame s (entryPushed s i) := by
  obtain ⟨h1, h2⟩ := stackWriteFatal_split _ _ h
  obtain ⟨d1, d2⟩ := rangeTouches_split _ _ hd
  have g1 := push32_reg (s.dropLine i) (s.reg .PC) h1
  have hsp : ((s.dropLine i).push32 (s.reg .PC)).reg .SP = s.reg .SP - 4 := by rw [g1]; simp
  have d1 : noDevice s.cfg (s.reg .SP - 4) 4 := d1
  have d2 : noDevice s.cfg (s.reg .SP - 4 - 4) 4 := d2
  obtain ⟨e1, e1'⟩ := push32_devices (s.dropLine i) (s.reg .PC) d1
  obtain ⟨e2, e2'⟩ := push32_devices ((s.dropLine i).push32 (s.reg .PC)) (s.reg .FL)
    (by rw [hsp, push32_cfg]; exact d2)
  unfold devicesSame entryPushed
  rw [setFlag_devices, setFlag_signalled, e2, e2', e1, e1']
  exact ⟨rfl, rfl⟩

/-- InterruptCheck, case by case (60_exceptions.md R314, R315). -/
theorem interruptCheck_cases (s : State) :
    ((s.flag .T = false ∨ s.mergeSignals.pending.min? = none) ∧ s.interruptCheck = s.mergeSignals) ∨
    (∃ i, s.flag .T = true ∧ s.mergeSignals.pending.min? = some i ∧
      s.interruptCheck = (s.mergeSignals.enterInterrupt i).mergeSignals) := by
  unfold State.interruptCheck
  have e : s.mergeSignals.flag .T = s.flag .T := rfl
  cases hT : s.flag .T with
  | false => exact .inl ⟨.inl rfl, by simp [e, hT]⟩
  | true =>
    cases hm : s.mergeSignals.pending.min? with
    | none => exact .inl ⟨.inr rfl, by simp only [e, hT, if_true, hm]⟩
    | some i => exact .inr ⟨i, rfl, rfl, by simp only [e, hT, if_true, hm]⟩

/-- With no signal left from the step, merging does nothing. -/
theorem mergeSignals_nil (s : State) (h : s.signalled = []) : s.mergeSignals = s := by
  cases s; simp only at h; subst h; rfl

/-- The end of a step that raised no fatal condition (40_cycle.md R120). -/
theorem finishStep_none (s : State) (h : s.fault = none) : s.finishStep = s.interruptCheck := by
  simp [State.finishStep, h]

/-- The end of a step that raised a fatal condition: nothing (40_cycle.md R120). -/
theorem finishStep_some (s : State) (m : FaultMark) (h : s.fault = some m) : s.finishStep = s := by
  simp [State.finishStep, h]

/-- The lines that InterruptCheck finds pending (60_exceptions.md R310). -/
theorem mem_mergeSignals (s : State) (j : Nat) : j ∈ s.mergeSignals.pending ↔ waits s j := by
  rw [mergeSignals_pending, mem_insertLines]; exact or_comm

/-- The line that InterruptCheck takes is the lowest it finds pending (60_exceptions.md R315). -/
theorem lowestWaiting_iff (s : State) (i : Nat) : lowestWaiting s i ↔ s.mergeSignals.pending.min? = some i := by
  rw [List.min?_eq_some_iff]
  simp only [lowestWaiting, mem_mergeSignals]

/-- The end of a step that enters the interrupt of the lowest line (60_exceptions.md R314 to R316). -/
theorem finishStep_enters (s : State) (i : Nat) (hf : s.fault = none) (hT : s.flag .T = true) (hi : lowestWaiting s i) :
    s.finishStep = (s.mergeSignals.enterInterrupt i).mergeSignals := by
  have hi := (lowestWaiting_iff s i).mp hi
  rw [finishStep_none s hf]
  rcases interruptCheck_cases s with ⟨h, -⟩ | ⟨j, -, h2, h3⟩
  · rw [hT, hi] at h; rcases h with h | h <;> contradiction
  · rw [hi] at h2; rw [h3, Option.some.inj h2]

/-- The least pending line is a pending line. -/
theorem min_mem (l : List Nat) (i : Nat) (h : l.min? = some i) : i ∈ l := List.min?_mem h

/-- The least of a strictly rising list is its first member. -/
theorem min_rising (i : Nat) (is : List Nat) (h : risingFrom 0 (i :: is) = true) :
    (i :: is).min? = some i ∧ ∀ j ∈ is, i < j := by
  have key : ∀ (l : List Nat) (lo : Nat), risingFrom lo l = true → ∀ j ∈ l, lo ≤ j := by
    intro l
    induction l with
    | nil => intro lo _ j hj; simp at hj
    | cons a l ih =>
      intro lo h j hj
      simp only [risingFrom, Bool.and_eq_true, decide_eq_true_eq] at h
      rcases List.mem_cons.mp hj with rfl | hj
      · exact h.1
      · exact Nat.le_trans (by omega) (ih (a + 1) h.2 j hj)
  simp only [risingFrom, Bool.and_eq_true] at h
  have hlt : ∀ j ∈ is, i < j := fun j hj => key is (i + 1) h.2 j hj
  refine ⟨List.min?_eq_some_iff.mpr ⟨List.mem_cons_self, fun j hj => ?_⟩, hlt⟩
  rcases List.mem_cons.mp hj with rfl | hj
  · exact Nat.le_refl _
  · exact Nat.le_of_lt (hlt j hj)

end Sys2Proof.Machine
end

