-- ==== Sys2Proof/Laws/Carry.lean ====
section
/-! SUPPORT. What every operation of a step carries over: the configuration, the pending set, the canonical form of the
RAM and the lines signalled; and what Fetch and Decode can do. -/

namespace Sys2Proof.Machine

/-- `t` carries over from `s` what the invariant of the machine asks of the bus and of the devices. -/
structure Carries (s t : State) : Prop where
  cfg       : t.cfg = s.cfg
  pending   : t.pending = s.pending
  memory    : Memory.wf s.mem = true → Memory.wf t.mem = true
  inRam     : memoryInRam s = true → memoryInRam t = true
  signalled : s.cfg.wf → linesOk s.cfg s.signalled = true → linesOk s.cfg t.signalled = true

theorem carries_refl (s : State) : Carries s s := ⟨rfl, rfl, id, id, fun _ => id⟩

theorem carries_trans (s t u : State) (h : Carries s t) (g : Carries t u) : Carries s u where
  cfg := g.cfg.trans h.cfg
  pending := g.pending.trans h.pending
  memory := g.memory ∘ h.memory
  inRam := g.inRam ∘ h.inRam
  signalled := fun hw hs => by
    have := g.signalled (h.cfg ▸ hw) (h.cfg ▸ h.signalled hw hs)
    rwa [h.cfg] at this

/-- An update of the registers, the fault mark and the run mode alone. -/
theorem carries_of_eq (s t : State) (h1 : t.cfg = s.cfg) (h2 : t.pending = s.pending) (h3 : t.mem = s.mem)
    (h4 : t.signalled = s.signalled) : Carries s t where
  cfg := h1
  pending := h2
  memory := fun h => h3 ▸ h
  inRam := fun h => by unfold memoryInRam at *; rw [h3, h1]; exact h
  signalled := fun _ h => h4 ▸ h

theorem carries_setReg (s : State) (r : Reg) (v : Word) : Carries s (s.setReg r v) := carries_of_eq _ _ rfl rfl rfl rfl
theorem carries_fatal (s : State) (m : FaultMark) : Carries s (s.fatal m) where
  cfg := rfl
  pending := rfl
  memory := id
  inRam := id
  signalled := fun _ _ => rfl
theorem carries_advance (s : State) (n : Nat) : Carries s (s.advance n) := carries_of_eq _ _ rfl rfl rfl rfl
theorem carries_jump (s : State) (v : Word) : Carries s (s.jump v) := carries_of_eq _ _ rfl rfl rfl rfl
theorem carries_setFlag (s : State) (f : Flag) (b : Bool) : Carries s (s.setFlag f b) := carries_of_eq _ _ rfl rfl rfl rfl
theorem carries_setFlags (s : State) (r : Word) (y v : Bool) : Carries s (s.setFlags r y v) :=
  carries_of_eq _ _ rfl rfl rfl rfl
theorem carries_writeResult (s : State) (n : Nat) (d : Reg) (r : Word) (y v : Bool) :
    Carries s (s.writeResult n d r y v) := carries_of_eq _ _ (by simp) (by simp) (by simp) (by simp)

/-- A device's own line exists in a well-formed configuration (60_exceptions.md R308). -/
theorem lineOf_lt (c : Config) (h : c.wf) (n i : Nat) (hi : lineOf c n = some i) : i < c.nIrq := by
  obtain ⟨-, -, -, -, -, h6, -⟩ := (config_wf_iff c).mp h
  refine h6 i ?_
  unfold lineOf at hi
  cases e : c.devices[n]? with
  | none => rw [e] at hi; contradiction
  | some d =>
    rw [e] at hi
    exact List.mem_filterMap.mpr ⟨d, List.mem_of_getElem? e, hi⟩

theorem carries_deviceAccess (s : State) (n : Nat) (e : DeviceEvent) : Carries s (s.deviceAccess n e) where
  cfg := rfl
  pending := rfl
  memory := id
  inRam := id
  signalled := fun hw h => by
    rcases deviceAccess_signalled s n e with h' | ⟨i, hi, h'⟩
    · rw [h']; exact h
    · rw [h']; exact linesOk_insertLine _ _ _ (lineOf_lt _ hw _ _ hi) h

theorem carries_busGet (a : Word) (s : State) : Carries s (busGet a s).2 := by
  unfold busGet
  split
  · exact carries_refl s
  · exact carries_refl s
  · exact carries_deviceAccess ..
  · exact carries_refl s

/-- Every memory operation keeps the canonical form: a byte written. -/
theorem carries_busSet (a : Word) (b : Byte) (s : State) : Carries s (busSet a b s) := by
  unfold busSet
  split
  · rename_i hr
    refine ⟨rfl, rfl, fun h => memory_wf_memSet _ _ _ h, fun h => ?_, fun _ h => h⟩
    unfold memoryInRam at *
    simp only [List.all_eq_true, Bool.and_eq_true, decide_eq_true_eq] at *
    intro x hx
    rcases mem_memSet _ _ _ _ hx with e | hx
    · rw [e]; exact (route_ram_iff _ _).mp hr
    · exact h x hx
  · exact carries_of_eq _ _ (by simp) (by simp) (by simp) (by simp)
  · exact carries_deviceAccess ..
  · exact carries_refl s

theorem carries_busGetArray (n : Nat) (a : Word) (s : State) : Carries s (busGetArray n a s).2 := by
  induction n generalizing a s with
  | zero => exact carries_refl s
  | succ n ih => rw [busGetArray_succ]; exact carries_trans _ _ _ (carries_busGet a s) (ih _ _)

theorem carries_busSetArray (bs : List Byte) (a : Word) (s : State) : Carries s (busSetArray bs a s) := by
  induction bs generalizing a s with
  | nil => exact carries_refl s
  | cons b bs ih => exact carries_trans _ _ _ (carries_busSet a b s) (ih _ _)

theorem carries_memRead (a : Word) (n : Nat) (s : State) : Carries s (memRead a n s).2 := carries_busGetArray n a s

theorem carries_memWrite (a : Word) (n : Nat) (v : Word) (s : State) : Carries s (memWrite a n v s) :=
  carries_busSetArray _ a s

theorem carries_valueOf (o : Operand) (w : Nat) (s : State) : Carries s (valueOf o w s).2 := by
  cases o
  case ind r => exact carries_memRead ..
  case abs p => exact carries_memRead ..
  all_goals exact carries_refl s

theorem carries_push32 (s : State) (v : Word) : Carries s (s.push32 v) := by
  rw [push32_def]; exact carries_trans _ _ _ (carries_setReg ..) (carries_memWrite ..)

theorem carries_pop32 (s : State) : Carries s s.pop32.2 := by
  rw [pop32_def]; exact carries_trans _ _ _ (carries_memRead ..) (carries_setReg ..)

theorem carries_moveToReg (len w : Nat) (d : Reg) (src : Operand) (s : State) : Carries s (moveToReg len w d src s) :=
  carries_trans _ _ _ (carries_valueOf src w s) (carries_writeResult ..)

theorem carries_moveToMem (len w : Nat) (ea : Word) (src : Operand) (s : State) :
    Carries s (moveToMem len w ea src s) := by
  cases h : dataWriteFatal s.cfg ea w with
  | true => rw [moveToMem_fatal _ _ _ _ _ h]; exact carries_fatal ..
  | false =>
    rw [moveToMem_ok _ _ _ _ _ h]
    exact carries_trans _ _ _ (carries_valueOf src w s) (carries_trans _ _ _ (carries_memWrite ..)
      (carries_trans _ _ _ (carries_setFlags ..) (carries_advance ..)))

theorem carries_aluTwo (f : Word → Word → AluResult) (len : Nat) (d : Reg) (src : Operand) (s : State) :
    Carries s (aluTwo f len d src s) := carries_trans _ _ _ (carries_valueOf src 4 s) (carries_writeResult ..)

theorem carries_aluOne (f : Word → AluResult) (d : Reg) (s : State) : Carries s (aluOne f d s) :=
  carries_writeResult ..

theorem carries_compare (len : Nat) (d : Reg) (src : Operand) (s : State) : Carries s (compare len d src s) := by
  obtain ⟨-, ⟨h1, h2, -⟩, h3, -, h4⟩ := compare_spec len d src s
  obtain ⟨g1, -, g3, g2, -⟩ := valueOf_sameButDevices src 4 s
  exact carries_trans _ _ _ (carries_valueOf src 4 s)
    (carries_of_eq _ _ (h1.trans g1.symm) (h2.trans g2.symm) (h3.trans g3.symm) h4)

theorem carries_divide (n : Mnemonic) (f : Signedness → Word → Word → AluResult) (len : Nat) (d : Reg) (src : Operand)
    (s : State) : Carries s (divide n f len d src s) := by
  by_cases h : (valueOf src 4 s).1 = 0
  · rw [divide_zero _ _ _ _ _ _ h]; exact carries_trans _ _ _ (carries_valueOf src 4 s) (carries_fatal ..)
  · rw [divide_nonzero _ _ _ _ _ _ h]; exact carries_aluTwo ..

theorem carries_branch (f : Flag) (wanted : Bool) (len : Nat) (t : Operand) (s : State) :
    Carries s (branch f wanted len t s) := by
  refine carries_trans _ _ _ (carries_valueOf t 4 s) ?_
  unfold branch
  simp only []
  split
  · exact carries_jump ..
  · exact carries_advance ..

theorem carries_jumpTo (t : Operand) (s : State) : Carries s (jumpTo t s) :=
  carries_trans _ _ _ (carries_valueOf t 4 s) (carries_jump ..)

theorem carries_callTo (len : Nat) (t : Operand) (s : State) : Carries s (callTo len t s) := by
  cases h : stackWriteFatal s.cfg (s.reg .SP - 4) 4 with
  | true => rw [callTo_fatal _ _ _ h]; exact carries_fatal ..
  | false =>
    unfold callTo
    rw [if_neg (by rw [h]; exact Bool.false_ne_true)]
    exact carries_trans _ _ _ (carries_valueOf t 4 s) (carries_trans _ _ _ (carries_push32 ..) (carries_jump ..))

theorem carries_pushValue (len : Nat) (t : Operand) (s : State) : Carries s (pushValue len t s) := by
  cases h : stackWriteFatal s.cfg (s.reg .SP - 4) 4 with
  | true => rw [pushValue_fatal _ _ _ h]; exact carries_fatal ..
  | false =>
    unfold pushValue
    rw [if_neg (by rw [h]; exact Bool.false_ne_true)]
    exact carries_trans _ _ _ (carries_valueOf t 4 s) (carries_trans _ _ _ (carries_push32 ..) (carries_advance ..))

theorem carries_returnFromCall (s : State) : Carries s (returnFromCall s) :=
  carries_trans _ _ _ (carries_pop32 s) (carries_jump ..)

theorem carries_popInto (d : Reg) (s : State) : Carries s (popInto d s) := by
  rw [popInto_def]
  split
  · exact carries_trans _ _ _ (carries_pop32 s) (carries_jump ..)
  · exact carries_trans _ _ _ (carries_pop32 s) (carries_trans _ _ _ (carries_setReg ..) (carries_advance ..))

theorem carries_returnFromInterrupt (s : State) : Carries s s.returnFromInterrupt := by
  rw [returnFromInterrupt_def]
  exact carries_trans _ _ _ (carries_pop32 s) (carries_trans _ _ _ (carries_setReg ..)
    (carries_trans _ _ _ (carries_pop32 _) (carries_jump ..)))

/-! ### Fetch and Decode -/

/-- Fetch and Decode read the bus and change nothing of the core (40_cycle.md R120). -/
theorem fetchDecode_instr (s s1 : State) (i : Instr) (h : fetchDecode s = .instr i s1) :
    sameButDevices s s1 ∧ Carries s s1 := by
  have key : ∀ n a, sameButDevices s (busGetArray n a (busGet (s.reg .PC) s).2).2 ∧
      Carries s (busGetArray n a (busGet (s.reg .PC) s).2).2 := fun n a =>
    ⟨⟨by simp, by simp, by simp, by simp, by simp, by simp⟩,
      carries_trans _ _ _ (carries_busGet _ s) (carries_busGetArray n a _)⟩
  unfold fetchDecode at h
  simp only at h
  split at h
  · contradiction
  · split at h
    · injection h with _ h; rw [← h]; exact key _ _
    · contradiction
    · contradiction
    · contradiction

/-- Fetch and Decode that end in a fatal condition leave the core as it was (40_cycle.md R120, R137). -/
theorem fetchDecode_fatal (s s1 : State) (m : FaultMark) (h : fetchDecode s = .fatal m s1) :
    sameButDevices s s1 ∧ Carries s s1 := by
  have key : ∀ n a, sameButDevices s (busGetArray n a (busGet (s.reg .PC) s).2).2 ∧
      Carries s (busGetArray n a (busGet (s.reg .PC) s).2).2 := fun n a =>
    ⟨⟨by simp, by simp, by simp, by simp, by simp, by simp⟩,
      carries_trans _ _ _ (carries_busGet _ s) (carries_busGetArray n a _)⟩
  unfold fetchDecode at h
  simp only at h
  split at h
  · injection h with _ h; rw [← h]; exact key 0 0
  · split at h
    · contradiction
    · injection h with _ h; rw [← h]; exact key _ _
    · injection h with _ h; rw [← h]; exact key _ _
    · injection h with _ h; rw [← h]; exact key _ _

/-- Everything a step can do (40_cycle.md R120): it is not enabled, or it ends in a fatal condition of Fetch or Decode,
or it runs an instruction. -/
theorem step_cases (s : State) :
    (∃ m, s.fault = some m ∧ step s = .fault (.halted m)) ∨
    (∃ m s1, s.fault = none ∧ fetchDecode s = .fatal m s1 ∧ step s = .next (s1.fatal m)) ∨
    (∃ i s1, s.fault = none ∧ fetchDecode s = .instr i s1 ∧
      step s = match exec i s1 with
        | .next t => .next t.finishStep
        | .fault f => .fault f
        | .refused r => .refused r) := by
  unfold step
  cases hf : s.fault with
  | some m => exact .inl ⟨m, rfl, rfl⟩
  | none =>
    cases hd : fetchDecode s with
    | fatal m s1 => exact .inr (.inl ⟨m, s1, rfl, rfl, rfl⟩)
    | instr i s1 => exact .inr (.inr ⟨i, s1, rfl, rfl, rfl⟩)

end Sys2Proof.Machine
end

