-- ==== Sys2Proof/Laws/PerInstr.lean ====
section
/-! SUPPORT. Statements made per instruction: the family RowOfInstruction says that the mnemonic and the operands of an
instruction name a row of 30_encoding.md R86 and give the instruction back. -/

namespace Sys2Proof.Laws

/-- The instruction's row is one of 30_encoding.md R86, and the row's mnemonic with the instruction's operands is the
instruction. -/
def RowOfInstruction.Statement (i : Instr) : Prop :=
  i.row.known = true ∧ Instr.ofParts i.parts.1 i.operands = some i

theorem RowOfInstruction.movRR (d : Reg) (r : Reg) : RowOfInstruction.Statement (.movRR d r) := ⟨rfl, rfl⟩
theorem RowOfInstruction.movRI8 (d : Reg) (v : Byte) : RowOfInstruction.Statement (.movRI8 d v) := ⟨rfl, rfl⟩
theorem RowOfInstruction.movRI16 (d : Reg) (v : Half) : RowOfInstruction.Statement (.movRI16 d v) := ⟨rfl, rfl⟩
theorem RowOfInstruction.movRI32 (d : Reg) (v : Word) : RowOfInstruction.Statement (.movRI32 d v) := ⟨rfl, rfl⟩
theorem RowOfInstruction.movbRMr (d : Reg) (r : Reg) : RowOfInstruction.Statement (.movbRMr d r) := ⟨rfl, rfl⟩
theorem RowOfInstruction.movbRMa (d : Reg) (q : Word) : RowOfInstruction.Statement (.movbRMa d q) := ⟨rfl, rfl⟩
theorem RowOfInstruction.movbMrR (d : Reg) (r : Reg) : RowOfInstruction.Statement (.movbMrR d r) := ⟨rfl, rfl⟩
theorem RowOfInstruction.movbMrI8 (d : Reg) (v : Byte) : RowOfInstruction.Statement (.movbMrI8 d v) := ⟨rfl, rfl⟩
theorem RowOfInstruction.movbMrMr (d : Reg) (r : Reg) : RowOfInstruction.Statement (.movbMrMr d r) := ⟨rfl, rfl⟩
theorem RowOfInstruction.movbMrMa (d : Reg) (q : Word) : RowOfInstruction.Statement (.movbMrMa d q) := ⟨rfl, rfl⟩
theorem RowOfInstruction.movbMaR (p : Word) (r : Reg) : RowOfInstruction.Statement (.movbMaR p r) := ⟨rfl, rfl⟩
theorem RowOfInstruction.movbMaI8 (p : Word) (v : Byte) : RowOfInstruction.Statement (.movbMaI8 p v) := ⟨rfl, rfl⟩
theorem RowOfInstruction.movbMaMr (p : Word) (r : Reg) : RowOfInstruction.Statement (.movbMaMr p r) := ⟨rfl, rfl⟩
theorem RowOfInstruction.movbMaMa (p : Word) (q : Word) : RowOfInstruction.Statement (.movbMaMa p q) := ⟨rfl, rfl⟩
theorem RowOfInstruction.movwRMr (d : Reg) (r : Reg) : RowOfInstruction.Statement (.movwRMr d r) := ⟨rfl, rfl⟩
theorem RowOfInstruction.movwRMa (d : Reg) (q : Word) : RowOfInstruction.Statement (.movwRMa d q) := ⟨rfl, rfl⟩
theorem RowOfInstruction.movwMrR (d : Reg) (r : Reg) : RowOfInstruction.Statement (.movwMrR d r) := ⟨rfl, rfl⟩
theorem RowOfInstruction.movwMrI16 (d : Reg) (v : Half) : RowOfInstruction.Statement (.movwMrI16 d v) := ⟨rfl, rfl⟩
theorem RowOfInstruction.movwMrMr (d : Reg) (r : Reg) : RowOfInstruction.Statement (.movwMrMr d r) := ⟨rfl, rfl⟩
theorem RowOfInstruction.movwMrMa (d : Reg) (q : Word) : RowOfInstruction.Statement (.movwMrMa d q) := ⟨rfl, rfl⟩
theorem RowOfInstruction.movwMaR (p : Word) (r : Reg) : RowOfInstruction.Statement (.movwMaR p r) := ⟨rfl, rfl⟩
theorem RowOfInstruction.movwMaI16 (p : Word) (v : Half) : RowOfInstruction.Statement (.movwMaI16 p v) := ⟨rfl, rfl⟩
theorem RowOfInstruction.movwMaMr (p : Word) (r : Reg) : RowOfInstruction.Statement (.movwMaMr p r) := ⟨rfl, rfl⟩
theorem RowOfInstruction.movwMaMa (p : Word) (q : Word) : RowOfInstruction.Statement (.movwMaMa p q) := ⟨rfl, rfl⟩
theorem RowOfInstruction.movdRMr (d : Reg) (r : Reg) : RowOfInstruction.Statement (.movdRMr d r) := ⟨rfl, rfl⟩
theorem RowOfInstruction.movdRMa (d : Reg) (q : Word) : RowOfInstruction.Statement (.movdRMa d q) := ⟨rfl, rfl⟩
theorem RowOfInstruction.movdMrR (d : Reg) (r : Reg) : RowOfInstruction.Statement (.movdMrR d r) := ⟨rfl, rfl⟩
theorem RowOfInstruction.movdMrI32 (d : Reg) (v : Word) : RowOfInstruction.Statement (.movdMrI32 d v) := ⟨rfl, rfl⟩
theorem RowOfInstruction.movdMrMr (d : Reg) (r : Reg) : RowOfInstruction.Statement (.movdMrMr d r) := ⟨rfl, rfl⟩
theorem RowOfInstruction.movdMrMa (d : Reg) (q : Word) : RowOfInstruction.Statement (.movdMrMa d q) := ⟨rfl, rfl⟩
theorem RowOfInstruction.movdMaR (p : Word) (r : Reg) : RowOfInstruction.Statement (.movdMaR p r) := ⟨rfl, rfl⟩
theorem RowOfInstruction.movdMaI32 (p : Word) (v : Word) : RowOfInstruction.Statement (.movdMaI32 p v) := ⟨rfl, rfl⟩
theorem RowOfInstruction.movdMaMr (p : Word) (r : Reg) : RowOfInstruction.Statement (.movdMaMr p r) := ⟨rfl, rfl⟩
theorem RowOfInstruction.movdMaMa (p : Word) (q : Word) : RowOfInstruction.Statement (.movdMaMa p q) := ⟨rfl, rfl⟩
theorem RowOfInstruction.orRR (d : Reg) (r : Reg) : RowOfInstruction.Statement (.orRR d r) := ⟨rfl, rfl⟩
theorem RowOfInstruction.orRI8 (d : Reg) (v : Byte) : RowOfInstruction.Statement (.orRI8 d v) := ⟨rfl, rfl⟩
theorem RowOfInstruction.orRI16 (d : Reg) (v : Half) : RowOfInstruction.Statement (.orRI16 d v) := ⟨rfl, rfl⟩
theorem RowOfInstruction.orRI32 (d : Reg) (v : Word) : RowOfInstruction.Statement (.orRI32 d v) := ⟨rfl, rfl⟩
theorem RowOfInstruction.xorRR (d : Reg) (r : Reg) : RowOfInstruction.Statement (.xorRR d r) := ⟨rfl, rfl⟩
theorem RowOfInstruction.xorRI8 (d : Reg) (v : Byte) : RowOfInstruction.Statement (.xorRI8 d v) := ⟨rfl, rfl⟩
theorem RowOfInstruction.xorRI16 (d : Reg) (v : Half) : RowOfInstruction.Statement (.xorRI16 d v) := ⟨rfl, rfl⟩
theorem RowOfInstruction.xorRI32 (d : Reg) (v : Word) : RowOfInstruction.Statement (.xorRI32 d v) := ⟨rfl, rfl⟩
theorem RowOfInstruction.andRR (d : Reg) (r : Reg) : RowOfInstruction.Statement (.andRR d r) := ⟨rfl, rfl⟩
theorem RowOfInstruction.andRI8 (d : Reg) (v : Byte) : RowOfInstruction.Statement (.andRI8 d v) := ⟨rfl, rfl⟩
theorem RowOfInstruction.andRI16 (d : Reg) (v : Half) : RowOfInstruction.Statement (.andRI16 d v) := ⟨rfl, rfl⟩
theorem RowOfInstruction.andRI32 (d : Reg) (v : Word) : RowOfInstruction.Statement (.andRI32 d v) := ⟨rfl, rfl⟩
theorem RowOfInstruction.shlRR (d : Reg) (r : Reg) : RowOfInstruction.Statement (.shlRR d r) := ⟨rfl, rfl⟩
theorem RowOfInstruction.shlRI8 (d : Reg) (v : Byte) : RowOfInstruction.Statement (.shlRI8 d v) := ⟨rfl, rfl⟩
theorem RowOfInstruction.shrRR (d : Reg) (r : Reg) : RowOfInstruction.Statement (.shrRR d r) := ⟨rfl, rfl⟩
theorem RowOfInstruction.shrRI8 (d : Reg) (v : Byte) : RowOfInstruction.Statement (.shrRI8 d v) := ⟨rfl, rfl⟩
theorem RowOfInstruction.notR (d : Reg) : RowOfInstruction.Statement (.notR d) := ⟨rfl, rfl⟩
theorem RowOfInstruction.addRR (d : Reg) (r : Reg) : RowOfInstruction.Statement (.addRR d r) := ⟨rfl, rfl⟩
theorem RowOfInstruction.addRI8 (d : Reg) (v : Byte) : RowOfInstruction.Statement (.addRI8 d v) := ⟨rfl, rfl⟩
theorem RowOfInstruction.addRI16 (d : Reg) (v : Half) : RowOfInstruction.Statement (.addRI16 d v) := ⟨rfl, rfl⟩
theorem RowOfInstruction.addRI32 (d : Reg) (v : Word) : RowOfInstruction.Statement (.addRI32 d v) := ⟨rfl, rfl⟩
theorem RowOfInstruction.subRR (d : Reg) (r : Reg) : RowOfInstruction.Statement (.subRR d r) := ⟨rfl, rfl⟩
theorem RowOfInstruction.subRI8 (d : Reg) (v : Byte) : RowOfInstruction.Statement (.subRI8 d v) := ⟨rfl, rfl⟩
theorem RowOfInstruction.subRI16 (d : Reg) (v : Half) : RowOfInstruction.Statement (.subRI16 d v) := ⟨rfl, rfl⟩
theorem RowOfInstruction.subRI32 (d : Reg) (v : Word) : RowOfInstruction.Statement (.subRI32 d v) := ⟨rfl, rfl⟩
theorem RowOfInstruction.cmpRR (d : Reg) (r : Reg) : RowOfInstruction.Statement (.cmpRR d r) := ⟨rfl, rfl⟩
theorem RowOfInstruction.cmpRI8 (d : Reg) (v : Byte) : RowOfInstruction.Statement (.cmpRI8 d v) := ⟨rfl, rfl⟩
theorem RowOfInstruction.cmpRI16 (d : Reg) (v : Half) : RowOfInstruction.Statement (.cmpRI16 d v) := ⟨rfl, rfl⟩
theorem RowOfInstruction.cmpRI32 (d : Reg) (v : Word) : RowOfInstruction.Statement (.cmpRI32 d v) := ⟨rfl, rfl⟩
theorem RowOfInstruction.mulRR (d : Reg) (r : Reg) : RowOfInstruction.Statement (.mulRR d r) := ⟨rfl, rfl⟩
theorem RowOfInstruction.mulRI8 (d : Reg) (v : Byte) : RowOfInstruction.Statement (.mulRI8 d v) := ⟨rfl, rfl⟩
theorem RowOfInstruction.mulRI16 (d : Reg) (v : Half) : RowOfInstruction.Statement (.mulRI16 d v) := ⟨rfl, rfl⟩
theorem RowOfInstruction.mulRI32 (d : Reg) (v : Word) : RowOfInstruction.Statement (.mulRI32 d v) := ⟨rfl, rfl⟩
theorem RowOfInstruction.idivRR (d : Reg) (r : Reg) : RowOfInstruction.Statement (.idivRR d r) := ⟨rfl, rfl⟩
theorem RowOfInstruction.idivRI8 (d : Reg) (v : Byte) : RowOfInstruction.Statement (.idivRI8 d v) := ⟨rfl, rfl⟩
theorem RowOfInstruction.idivRI16 (d : Reg) (v : Half) : RowOfInstruction.Statement (.idivRI16 d v) := ⟨rfl, rfl⟩
theorem RowOfInstruction.idivRI32 (d : Reg) (v : Word) : RowOfInstruction.Statement (.idivRI32 d v) := ⟨rfl, rfl⟩
theorem RowOfInstruction.modRR (d : Reg) (r : Reg) : RowOfInstruction.Statement (.modRR d r) := ⟨rfl, rfl⟩
theorem RowOfInstruction.modRI8 (d : Reg) (v : Byte) : RowOfInstruction.Statement (.modRI8 d v) := ⟨rfl, rfl⟩
theorem RowOfInstruction.modRI16 (d : Reg) (v : Half) : RowOfInstruction.Statement (.modRI16 d v) := ⟨rfl, rfl⟩
theorem RowOfInstruction.modRI32 (d : Reg) (v : Word) : RowOfInstruction.Statement (.modRI32 d v) := ⟨rfl, rfl⟩
theorem RowOfInstruction.incR (d : Reg) : RowOfInstruction.Statement (.incR d) := ⟨rfl, rfl⟩
theorem RowOfInstruction.decR (d : Reg) : RowOfInstruction.Statement (.decR d) := ⟨rfl, rfl⟩
theorem RowOfInstruction.bzR (d : Reg) : RowOfInstruction.Statement (.bzR d) := ⟨rfl, rfl⟩
theorem RowOfInstruction.bzI32 (v : Word) : RowOfInstruction.Statement (.bzI32 v) := ⟨rfl, rfl⟩
theorem RowOfInstruction.bnzR (d : Reg) : RowOfInstruction.Statement (.bnzR d) := ⟨rfl, rfl⟩
theorem RowOfInstruction.bnzI32 (v : Word) : RowOfInstruction.Statement (.bnzI32 v) := ⟨rfl, rfl⟩
theorem RowOfInstruction.bnegR (d : Reg) : RowOfInstruction.Statement (.bnegR d) := ⟨rfl, rfl⟩
theorem RowOfInstruction.bnegI32 (v : Word) : RowOfInstruction.Statement (.bnegI32 v) := ⟨rfl, rfl⟩
theorem RowOfInstruction.bposR (d : Reg) : RowOfInstruction.Statement (.bposR d) := ⟨rfl, rfl⟩
theorem RowOfInstruction.bposI32 (v : Word) : RowOfInstruction.Statement (.bposI32 v) := ⟨rfl, rfl⟩
theorem RowOfInstruction.bgtR (d : Reg) : RowOfInstruction.Statement (.bgtR d) := ⟨rfl, rfl⟩
theorem RowOfInstruction.bgtI32 (v : Word) : RowOfInstruction.Statement (.bgtI32 v) := ⟨rfl, rfl⟩
theorem RowOfInstruction.bgteR (d : Reg) : RowOfInstruction.Statement (.bgteR d) := ⟨rfl, rfl⟩
theorem RowOfInstruction.bgteI32 (v : Word) : RowOfInstruction.Statement (.bgteI32 v) := ⟨rfl, rfl⟩
theorem RowOfInstruction.bltR (d : Reg) : RowOfInstruction.Statement (.bltR d) := ⟨rfl, rfl⟩
theorem RowOfInstruction.bltI32 (v : Word) : RowOfInstruction.Statement (.bltI32 v) := ⟨rfl, rfl⟩
theorem RowOfInstruction.blteR (d : Reg) : RowOfInstruction.Statement (.blteR d) := ⟨rfl, rfl⟩
theorem RowOfInstruction.blteI32 (v : Word) : RowOfInstruction.Statement (.blteI32 v) := ⟨rfl, rfl⟩
theorem RowOfInstruction.bvR (d : Reg) : RowOfInstruction.Statement (.bvR d) := ⟨rfl, rfl⟩
theorem RowOfInstruction.bvI32 (v : Word) : RowOfInstruction.Statement (.bvI32 v) := ⟨rfl, rfl⟩
theorem RowOfInstruction.bnvR (d : Reg) : RowOfInstruction.Statement (.bnvR d) := ⟨rfl, rfl⟩
theorem RowOfInstruction.bnvI32 (v : Word) : RowOfInstruction.Statement (.bnvI32 v) := ⟨rfl, rfl⟩
theorem RowOfInstruction.jmpR (d : Reg) : RowOfInstruction.Statement (.jmpR d) := ⟨rfl, rfl⟩
theorem RowOfInstruction.jmpI32 (v : Word) : RowOfInstruction.Statement (.jmpI32 v) := ⟨rfl, rfl⟩
theorem RowOfInstruction.callR (d : Reg) : RowOfInstruction.Statement (.callR d) := ⟨rfl, rfl⟩
theorem RowOfInstruction.callI32 (v : Word) : RowOfInstruction.Statement (.callI32 v) := ⟨rfl, rfl⟩
theorem RowOfInstruction.ret : RowOfInstruction.Statement (.ret) := ⟨rfl, rfl⟩
theorem RowOfInstruction.iret : RowOfInstruction.Statement (.iret) := ⟨rfl, rfl⟩
theorem RowOfInstruction.sret : RowOfInstruction.Statement (.sret) := ⟨rfl, rfl⟩
theorem RowOfInstruction.pushR (d : Reg) : RowOfInstruction.Statement (.pushR d) := ⟨rfl, rfl⟩
theorem RowOfInstruction.pushI32 (v : Word) : RowOfInstruction.Statement (.pushI32 v) := ⟨rfl, rfl⟩
theorem RowOfInstruction.popR (d : Reg) : RowOfInstruction.Statement (.popR d) := ⟨rfl, rfl⟩
theorem RowOfInstruction.nop : RowOfInstruction.Statement (.nop) := ⟨rfl, rfl⟩

end Sys2Proof.Laws
end

