-- ==== Sys2Proof/Laws/Encode.lean ====
section
/-! SUPPORT. The codec on bytes, operand by operand: an operand's bytes decode to it, and only they do. -/

namespace Sys2Proof

/-- A word from its bytes (30_encoding.md R81, R83). -/
theorem wordOf_wordBytes (v : Word) :
    wordOf (v.extractLsb' 0 8) (v.extractLsb' 8 8) (v.extractLsb' 16 8) (v.extractLsb' 24 8) = v := by
  apply BitVec.eq_of_getLsbD_eq
  intro i hi
  simp only [wordOf, BitVec.getLsbD_append, BitVec.getLsbD_extractLsb']
  by_cases h1 : i < 8
  · simp [h1]
  · by_cases h2 : i - 8 < 8
    · simp [h1, h2]; congr 1; omega
    · by_cases h3 : i - 8 - 8 < 8
      · simp [h1, h2, h3]; congr 1; omega
      · have h4 : i - 8 - 8 - 8 < 8 := by omega
        simp [h1, h2, h3, h4]; congr 1; omega

/-- The bytes of a word from bytes (30_encoding.md R81, R83). -/
theorem wordBytes_wordOf (b0 b1 b2 b3 : Byte) : wordBytes (wordOf b0 b1 b2 b3) = [b0, b1, b2, b3] := by
  unfold wordBytes
  simp only [List.cons.injEq, and_true]
  refine ⟨?_, ?_, ?_, ?_⟩ <;>
  · apply BitVec.eq_of_getLsbD_eq
    intro i hi
    simp only [wordOf, BitVec.getLsbD_append, BitVec.getLsbD_extractLsb', hi, decide_true, Bool.true_and]
    simp only [show ¬ (8 + i < 8) by omega, show ¬ (16 + i < 8) by omega, show ¬ (24 + i < 8) by omega,
      show ¬ (16 + i - 8 < 8) by omega, show ¬ (24 + i - 8 < 8) by omega, show ¬ (24 + i - 8 - 8 < 8) by omega,
      show 8 + i - 8 = i by omega, show 16 + i - 8 - 8 = i by omega, show 24 + i - 8 - 8 - 8 = i by omega,
      show 0 + i = i by omega, hi, if_true, if_false]

/-- A half word from its bytes (30_encoding.md R81, R83). -/
theorem halfOf_halfBytes (v : Half) : halfOf (v.extractLsb' 0 8) (v.extractLsb' 8 8) = v := by
  apply BitVec.eq_of_getLsbD_eq
  intro i hi
  simp only [halfOf, BitVec.getLsbD_append, BitVec.getLsbD_extractLsb']
  by_cases h1 : i < 8
  · simp [h1]
  · have h2 : i - 8 < 8 := by omega
    simp [h1, h2]; congr 1; omega

/-- The bytes of a half word from bytes (30_encoding.md R81, R83). -/
theorem halfBytes_halfOf (b0 b1 : Byte) : halfBytes (halfOf b0 b1) = [b0, b1] := by
  unfold halfBytes
  simp only [List.cons.injEq, and_true]
  refine ⟨?_, ?_⟩ <;>
  · apply BitVec.eq_of_getLsbD_eq
    intro i hi
    simp only [halfOf, BitVec.getLsbD_append, BitVec.getLsbD_extractLsb', hi, decide_true, Bool.true_and]
    simp only [show ¬ (8 + i < 8) by omega, show 8 + i - 8 = i by omega, show 0 + i = i by omega, hi, if_true, if_false]

/-- A register's byte names it (30_encoding.md R82). -/
theorem ofNumber_byte (r : Reg) : Reg.ofNumber (BitVec.ofNat 8 r.number).toNat = some r := by cases r <;> rfl

/-- A byte that names a register is its index (30_encoding.md R82). -/
theorem byte_of_ofNumber (b : Byte) (r : Reg) (h : Reg.ofNumber b.toNat = some r) : BitVec.ofNat 8 r.number = b := by
  have := Machine.ofNumber_eq _ _ h
  rw [← this]; simp

/-- Everything the decoder does with an operand's bytes (30_encoding.md R81 to R83). -/
theorem decodeOperand_bytes (o : Operand) (rest : List Byte) :
    decodeOperand o.kind (o.bytes ++ rest) = .ok o rest := by
  cases o with
  | reg r =>
    show decodeReg _ (BitVec.ofNat 8 r.number :: rest) = _
    simp only [decodeReg, ofNumber_byte]
  | ind r =>
    show decodeReg _ (BitVec.ofNat 8 r.number :: rest) = _
    simp only [decodeReg, ofNumber_byte]
  | imm8 v => rfl
  | imm16 v => simp [Operand.kind, Operand.bytes, decodeOperand, halfBytes, halfOf_halfBytes]
  | imm32 v => simp [Operand.kind, Operand.bytes, decodeOperand, decodeWord, wordBytes, wordOf_wordBytes]
  | abs v => simp [Operand.kind, Operand.bytes, decodeOperand, decodeWord, wordBytes, wordOf_wordBytes]

theorem decodeReg_inv (f : Reg → Operand) (bs rest : List Byte) (o : Operand) (h : decodeReg f bs = .ok o rest) :
    ∃ r, o = f r ∧ bs = BitVec.ofNat 8 r.number :: rest := by
  unfold decodeReg at h
  split at h
  · contradiction
  · split at h
    · rename_i r hr
      injection h with h1 h2
      exact ⟨r, h1.symm, by rw [byte_of_ofNumber _ _ hr, h2]⟩
    · contradiction

theorem decodeWord_inv (f : Word → Operand) (bs rest : List Byte) (o : Operand) (h : decodeWord f bs = .ok o rest) :
    ∃ v, o = f v ∧ bs = wordBytes v ++ rest := by
  unfold decodeWord at h
  split at h
  · injection h with h1 h2
    exact ⟨_, h1.symm, by rw [wordBytes_wordOf, h2]; rfl⟩
  · contradiction

/-- Only an operand's bytes decode to it (30_encoding.md R81 to R83). -/
theorem decodeOperand_inv (k : OperandKind) (bs rest : List Byte) (o : Operand) (h : decodeOperand k bs = .ok o rest) :
    o.kind = k ∧ bs = o.bytes ++ rest := by
  cases k with
  | reg => obtain ⟨r, rfl, rfl⟩ := decodeReg_inv _ _ _ _ h; exact ⟨rfl, rfl⟩
  | ind => obtain ⟨r, rfl, rfl⟩ := decodeReg_inv _ _ _ _ h; exact ⟨rfl, rfl⟩
  | imm32 => obtain ⟨v, rfl, rfl⟩ := decodeWord_inv _ _ _ _ h; exact ⟨rfl, rfl⟩
  | abs => obtain ⟨v, rfl, rfl⟩ := decodeWord_inv _ _ _ _ h; exact ⟨rfl, rfl⟩
  | imm8 =>
    cases bs with
    | nil => simp [decodeOperand] at h
    | cons b bs => simp only [decodeOperand] at h; injection h with h1 h2; subst h1 h2; exact ⟨rfl, rfl⟩
  | imm16 =>
    cases bs with
    | nil => simp [decodeOperand] at h
    | cons b bs =>
      cases bs with
      | nil => simp [decodeOperand] at h
      | cons b' bs =>
        simp only [decodeOperand] at h; injection h with h1 h2; subst h1 h2
        exact ⟨rfl, by simp [Operand.bytes, halfBytes_halfOf]⟩

/-- An operand takes as many bytes as its kind says (30_encoding.md R81). -/
theorem operand_bytes_length (o : Operand) : o.bytes.length = o.kind.size := by cases o <;> rfl

/-- Everything the decoder does with the bytes of operands (40_cycle.md R122). -/
theorem decodeOperands_bytes (os : List Operand) (rest : List Byte) :
    decodeOperands (os.map Operand.kind) (os.flatMap Operand.bytes ++ rest) = .ok os rest := by
  induction os generalizing rest with
  | nil => rfl
  | cons o os ih =>
    simp only [List.map_cons, List.flatMap_cons, List.append_assoc, decodeOperands, decodeOperand_bytes, ih]

/-- Only the bytes of operands decode to them (40_cycle.md R122). -/
theorem decodeOperands_inv (ks : List OperandKind) (bs rest : List Byte) (os : List Operand)
    (h : decodeOperands ks bs = .ok os rest) : os.map Operand.kind = ks ∧ bs = os.flatMap Operand.bytes ++ rest := by
  induction ks generalizing bs os with
  | nil => simp only [decodeOperands] at h; injection h with h1 h2; subst h1 h2; exact ⟨rfl, rfl⟩
  | cons k ks ih =>
    simp only [decodeOperands] at h
    split at h
    · contradiction
    · contradiction
    · rename_i o r ho
      split at h
      · rename_i os' r' hos
        injection h with h1 h2; subst h1 h2
        obtain ⟨g1, g2⟩ := decodeOperand_inv _ _ _ _ ho
        obtain ⟨g3, g4⟩ := ih _ _ hos
        exact ⟨by rw [List.map_cons, g1, g3], by rw [g2, g4, List.flatMap_cons, List.append_assoc]⟩
      · rename_i hne; exact absurd h (hne _ _)

/-- The operands' bytes are as many as the row says (30_encoding.md R80). -/
theorem operands_bytes_length (os : List Operand) :
    (os.flatMap Operand.bytes).length = ((os.map Operand.kind).map OperandKind.size).sum := by
  induction os with
  | nil => rfl
  | cons o os ih => simp [List.flatMap_cons, operand_bytes_length, ih]

/-- What the parts of an instruction are, from its mnemonic and operands. -/
theorem ofParts_parts (n : Mnemonic) (os : List Operand) (i : Instr) (h : Instr.ofParts n os = some i) :
    i.parts = (n, os) := by
  cases n <;> simp only [Instr.ofParts] at h <;> (split at h <;> first
    | contradiction
    | (injection h with h; subst h; rfl))

end Sys2Proof
end

