-- ==== Sys2Proof/Tests/Slice0.lean ====
section
/-! SUPPORT. The model's own tests. Expected values come from 95_test_vectors.md (the vector's name stands beside each) and
from 30_encoding.md R85, R86. The last part shows, for each statement with hypotheses, operands and a state that meet
them. -/

namespace Sys2Proof.Tests

set_option Elab.async false

open Sys2Proof Sys2Proof.Machine

/-! ### Ill-formed configurations and opcode maps -/

/-- The smallest opcode map (00_scope.md R7: opcode 0x01 is fixed). -/
def oneRow : OpcodeMap := [(0x01, ⟨.mov, [.reg, .reg]⟩)]

/-- The example configuration with these devices and the smallest opcode map. -/
def withDevices (ds : List Device) : Config := { exampleConfig with devices := ds, opcodes := oneRow }

/-- A device with a window and a line. -/
def dev (base : Word) (size : Nat) (line : Option Nat) : Device := ⟨['d'], base, size, line, []⟩

theorem test_default_opcode_map_wf : OpcodeMap.wf defaultOpcodeMap := by decide +kernel
theorem test_example_config_wf : exampleConfig.wf := by decide +kernel
theorem test_wf_empty_window : (withDevices [dev 0x20000 0 none]).errors = [.emptyWindow] := by decide +kernel
theorem test_wf_window_wraps : (withDevices [dev 0xFFFFFFFF 2 none]).errors = [.windowWraps] := by decide +kernel
theorem test_wf_window_to_the_top : (withDevices [dev 0xFFFFFFFF 1 none]).wf := by decide +kernel
theorem test_wf_windows_overlap : (withDevices [dev 0xFFFF 1 none]).errors = [.windowsOverlap] := by decide +kernel
theorem test_wf_windows_adjacent : (withDevices [dev 0x10000 16 none, dev 0xF0000040 4 none]).wf := by decide +kernel
theorem test_wf_no_lines : ({ withDevices [] with nIrq := 0 } : Config).errors = [.noLines] := by decide +kernel
theorem test_wf_table_outside_ram :
    ({ withDevices [] with nIrq := 257 } : Config).errors = [.tableOutsideRam] := by decide +kernel
theorem test_wf_line_out_of_range :
    (withDevices [dev 0x20000 4 (some 256)]).errors = [.lineOutOfRange] := by decide +kernel
theorem test_wf_line_shared :
    (withDevices [dev 0x20000 4 (some 3), dev 0x20004 4 (some 3)]).errors = [.lineShared] := by decide +kernel
theorem test_wf_opcode_one :
    OpcodeMap.errors [(0x02, ⟨.mov, [.reg, .reg]⟩)] = [.opcodeOneNotMov] := by decide +kernel
theorem test_wf_opcode_twice :
    OpcodeMap.errors [(0x01, ⟨.mov, [.reg, .reg]⟩), (0x01, ⟨.nop, []⟩)] = [.opcodeTwice] := by decide +kernel
theorem test_wf_row_twice :
    OpcodeMap.errors [(0x01, ⟨.mov, [.reg, .reg]⟩), (0x02, ⟨.mov, [.reg, .reg]⟩)] = [.rowTwice] := by decide +kernel
theorem test_wf_unknown_row :
    OpcodeMap.errors [(0x01, ⟨.mov, [.reg, .reg]⟩), (0x02, ⟨.mov, [.reg, .ind]⟩)] = [.unknownRow] := by decide +kernel
theorem test_wf_instruction_without_a_row :
    ¬ Instr.wf [(0x01, ⟨.mov, [.reg, .reg]⟩)] .nop := by decide +kernel
theorem test_wf_create_refuses : State.create (withDevices [dev 0 1 none]) = none := by decide +kernel
theorem test_wf_attach_refuses :
    (withDevices []).attach (dev 0xFFFF 1 none) = .error .windowsOverlap := by rfl

/-! ### Decoding: a word of every row of 30_encoding.md R86, written out by R81 to R85 -/

/-- The bytes decode to the instruction, and nothing is left. -/
def decodes (bs : List Byte) (i : Instr) : Prop := decode defaultOpcodeMap bs = .ok i []

theorem test_decode_mov :
    decodes [0x01, 0x03, 0x0F] (.movRR .D .FL) ∧
    decodes [0x02, 0x03, 0x9A] (.movRI8 .D 0x9A) ∧
    decodes [0x03, 0x03, 0x34, 0x12] (.movRI16 .D 0x1234) ∧
    decodes [0x04, 0x03, 0xEF, 0xCD, 0xAB, 0x89] (.movRI32 .D 0x89ABCDEF) := by
  unfold decodes; decide +kernel
theorem test_decode_movb :
    decodes [0x05, 0x03, 0x0F] (.movbRMr .D .FL) ∧
    decodes [0x06, 0x03, 0xEF, 0xCD, 0xAB, 0x89] (.movbRMa .D 0x89ABCDEF) ∧
    decodes [0x07, 0x03, 0x0F] (.movbMrR .D .FL) ∧
    decodes [0x08, 0x03, 0x9A] (.movbMrI8 .D 0x9A) ∧
    decodes [0x09, 0x03, 0x0F] (.movbMrMr .D .FL) ∧
    decodes [0x0A, 0x03, 0xEF, 0xCD, 0xAB, 0x89] (.movbMrMa .D 0x89ABCDEF) ∧
    decodes [0x0B, 0x78, 0x56, 0x34, 0x12, 0x0F] (.movbMaR 0x12345678 .FL) ∧
    decodes [0x0C, 0x78, 0x56, 0x34, 0x12, 0x9A] (.movbMaI8 0x12345678 0x9A) ∧
    decodes [0x0D, 0x78, 0x56, 0x34, 0x12, 0x0F] (.movbMaMr 0x12345678 .FL) ∧
    decodes [0x0E, 0x78, 0x56, 0x34, 0x12, 0xEF, 0xCD, 0xAB, 0x89] (.movbMaMa 0x12345678 0x89ABCDEF) := by
  unfold decodes; decide +kernel
theorem test_decode_movw :
    decodes [0x0F, 0x03, 0x0F] (.movwRMr .D .FL) ∧
    decodes [0x10, 0x03, 0xEF, 0xCD, 0xAB, 0x89] (.movwRMa .D 0x89ABCDEF) ∧
    decodes [0x11, 0x03, 0x0F] (.movwMrR .D .FL) ∧
    decodes [0x12, 0x03, 0x34, 0x12] (.movwMrI16 .D 0x1234) ∧
    decodes [0x13, 0x03, 0x0F] (.movwMrMr .D .FL) ∧
    decodes [0x14, 0x03, 0xEF, 0xCD, 0xAB, 0x89] (.movwMrMa .D 0x89ABCDEF) ∧
    decodes [0x15, 0x78, 0x56, 0x34, 0x12, 0x0F] (.movwMaR 0x12345678 .FL) ∧
    decodes [0x16, 0x78, 0x56, 0x34, 0x12, 0x34, 0x12] (.movwMaI16 0x12345678 0x1234) ∧
    decodes [0x17, 0x78, 0x56, 0x34, 0x12, 0x0F] (.movwMaMr 0x12345678 .FL) ∧
    decodes [0x18, 0x78, 0x56, 0x34, 0x12, 0xEF, 0xCD, 0xAB, 0x89] (.movwMaMa 0x12345678 0x89ABCDEF) := by
  unfold decodes; decide +kernel
theorem test_decode_movd :
    decodes [0x19, 0x03, 0x0F] (.movdRMr .D .FL) ∧
    decodes [0x1A, 0x03, 0xEF, 0xCD, 0xAB, 0x89] (.movdRMa .D 0x89ABCDEF) ∧
    decodes [0x1B, 0x03, 0x0F] (.movdMrR .D .FL) ∧
    decodes [0x1C, 0x03, 0xEF, 0xCD, 0xAB, 0x89] (.movdMrI32 .D 0x89ABCDEF) ∧
    decodes [0x1D, 0x03, 0x0F] (.movdMrMr .D .FL) ∧
    decodes [0x1E, 0x03, 0xEF, 0xCD, 0xAB, 0x89] (.movdMrMa .D 0x89ABCDEF) ∧
    decodes [0x1F, 0x78, 0x56, 0x34, 0x12, 0x0F] (.movdMaR 0x12345678 .FL) ∧
    decodes [0x20, 0x78, 0x56, 0x34, 0x12, 0xEF, 0xCD, 0xAB, 0x89] (.movdMaI32 0x12345678 0x89ABCDEF) ∧
    decodes [0x21, 0x78, 0x56, 0x34, 0x12, 0x0F] (.movdMaMr 0x12345678 .FL) ∧
    decodes [0x22, 0x78, 0x56, 0x34, 0x12, 0xEF, 0xCD, 0xAB, 0x89] (.movdMaMa 0x12345678 0x89ABCDEF) := by
  unfold decodes; decide +kernel
theorem test_decode_or :
    decodes [0x23, 0x03, 0x0F] (.orRR .D .FL) ∧
    decodes [0x24, 0x03, 0x9A] (.orRI8 .D 0x9A) ∧
    decodes [0x25, 0x03, 0x34, 0x12] (.orRI16 .D 0x1234) ∧
    decodes [0x26, 0x03, 0xEF, 0xCD, 0xAB, 0x89] (.orRI32 .D 0x89ABCDEF) := by
  unfold decodes; decide +kernel
theorem test_decode_xor :
    decodes [0x27, 0x03, 0x0F] (.xorRR .D .FL) ∧
    decodes [0x28, 0x03, 0x9A] (.xorRI8 .D 0x9A) ∧
    decodes [0x29, 0x03, 0x34, 0x12] (.xorRI16 .D 0x1234) ∧
    decodes [0x2A, 0x03, 0xEF, 0xCD, 0xAB, 0x89] (.xorRI32 .D 0x89ABCDEF) := by
  unfold decodes; decide +kernel
theorem test_decode_and :
    decodes [0x2B, 0x03, 0x0F] (.andRR .D .FL) ∧
    decodes [0x2C, 0x03, 0x9A] (.andRI8 .D 0x9A) ∧
    decodes [0x2D, 0x03, 0x34, 0x12] (.andRI16 .D 0x1234) ∧
    decodes [0x2E, 0x03, 0xEF, 0xCD, 0xAB, 0x89] (.andRI32 .D 0x89ABCDEF) := by
  unfold decodes; decide +kernel
theorem test_decode_shl :
    decodes [0x2F, 0x03, 0x0F] (.shlRR .D .FL) ∧
    decodes [0x30, 0x03, 0x9A] (.shlRI8 .D 0x9A) := by
  unfold decodes; decide +kernel
theorem test_decode_shr :
    decodes [0x31, 0x03, 0x0F] (.shrRR .D .FL) ∧
    decodes [0x32, 0x03, 0x9A] (.shrRI8 .D 0x9A) := by
  unfold decodes; decide +kernel
theorem test_decode_not :
    decodes [0x33, 0x03] (.notR .D) := by
  unfold decodes; decide +kernel
theorem test_decode_add :
    decodes [0x34, 0x03, 0x0F] (.addRR .D .FL) ∧
    decodes [0x35, 0x03, 0x9A] (.addRI8 .D 0x9A) ∧
    decodes [0x36, 0x03, 0x34, 0x12] (.addRI16 .D 0x1234) ∧
    decodes [0x37, 0x03, 0xEF, 0xCD, 0xAB, 0x89] (.addRI32 .D 0x89ABCDEF) := by
  unfold decodes; decide +kernel
theorem test_decode_sub :
    decodes [0x38, 0x03, 0x0F] (.subRR .D .FL) ∧
    decodes [0x39, 0x03, 0x9A] (.subRI8 .D 0x9A) ∧
    decodes [0x3A, 0x03, 0x34, 0x12] (.subRI16 .D 0x1234) ∧
    decodes [0x3B, 0x03, 0xEF, 0xCD, 0xAB, 0x89] (.subRI32 .D 0x89ABCDEF) := by
  unfold decodes; decide +kernel
theorem test_decode_cmp :
    decodes [0x3C, 0x03, 0x0F] (.cmpRR .D .FL) ∧
    decodes [0x3D, 0x03, 0x9A] (.cmpRI8 .D 0x9A) ∧
    decodes [0x3E, 0x03, 0x34, 0x12] (.cmpRI16 .D 0x1234) ∧
    decodes [0x3F, 0x03, 0xEF, 0xCD, 0xAB, 0x89] (.cmpRI32 .D 0x89ABCDEF) := by
  unfold decodes; decide +kernel
theorem test_decode_mul :
    decodes [0x40, 0x03, 0x0F] (.mulRR .D .FL) ∧
    decodes [0x41, 0x03, 0x9A] (.mulRI8 .D 0x9A) ∧
    decodes [0x42, 0x03, 0x34, 0x12] (.mulRI16 .D 0x1234) ∧
    decodes [0x43, 0x03, 0xEF, 0xCD, 0xAB, 0x89] (.mulRI32 .D 0x89ABCDEF) := by
  unfold decodes; decide +kernel
theorem test_decode_idiv :
    decodes [0x44, 0x03, 0x0F] (.idivRR .D .FL) ∧
    decodes [0x45, 0x03, 0x9A] (.idivRI8 .D 0x9A) ∧
    decodes [0x46, 0x03, 0x34, 0x12] (.idivRI16 .D 0x1234) ∧
    decodes [0x47, 0x03, 0xEF, 0xCD, 0xAB, 0x89] (.idivRI32 .D 0x89ABCDEF) := by
  unfold decodes; decide +kernel
theorem test_decode_mod :
    decodes [0x48, 0x03, 0x0F] (.modRR .D .FL) ∧
    decodes [0x49, 0x03, 0x9A] (.modRI8 .D 0x9A) ∧
    decodes [0x4A, 0x03, 0x34, 0x12] (.modRI16 .D 0x1234) ∧
    decodes [0x4B, 0x03, 0xEF, 0xCD, 0xAB, 0x89] (.modRI32 .D 0x89ABCDEF) := by
  unfold decodes; decide +kernel
theorem test_decode_inc :
    decodes [0x4C, 0x03] (.incR .D) := by
  unfold decodes; decide +kernel
theorem test_decode_dec :
    decodes [0x4D, 0x03] (.decR .D) := by
  unfold decodes; decide +kernel
theorem test_decode_bz :
    decodes [0x4E, 0x03] (.bzR .D) ∧
    decodes [0x4F, 0x78, 0x56, 0x34, 0x12] (.bzI32 0x12345678) := by
  unfold decodes; decide +kernel
theorem test_decode_bnz :
    decodes [0x50, 0x03] (.bnzR .D) ∧
    decodes [0x51, 0x78, 0x56, 0x34, 0x12] (.bnzI32 0x12345678) := by
  unfold decodes; decide +kernel
theorem test_decode_bneg :
    decodes [0x52, 0x03] (.bnegR .D) ∧
    decodes [0x53, 0x78, 0x56, 0x34, 0x12] (.bnegI32 0x12345678) := by
  unfold decodes; decide +kernel
theorem test_decode_bpos :
    decodes [0x54, 0x03] (.bposR .D) ∧
    decodes [0x55, 0x78, 0x56, 0x34, 0x12] (.bposI32 0x12345678) := by
  unfold decodes; decide +kernel
theorem test_decode_bgt :
    decodes [0x56, 0x03] (.bgtR .D) ∧
    decodes [0x57, 0x78, 0x56, 0x34, 0x12] (.bgtI32 0x12345678) := by
  unfold decodes; decide +kernel
theorem test_decode_bgte :
    decodes [0x58, 0x03] (.bgteR .D) ∧
    decodes [0x59, 0x78, 0x56, 0x34, 0x12] (.bgteI32 0x12345678) := by
  unfold decodes; decide +kernel
theorem test_decode_blt :
    decodes [0x5A, 0x03] (.bltR .D) ∧
    decodes [0x5B, 0x78, 0x56, 0x34, 0x12] (.bltI32 0x12345678) := by
  unfold decodes; decide +kernel
theorem test_decode_blte :
    decodes [0x5C, 0x03] (.blteR .D) ∧
    decodes [0x5D, 0x78, 0x56, 0x34, 0x12] (.blteI32 0x12345678) := by
  unfold decodes; decide +kernel
theorem test_decode_bv :
    decodes [0x5E, 0x03] (.bvR .D) ∧
    decodes [0x5F, 0x78, 0x56, 0x34, 0x12] (.bvI32 0x12345678) := by
  unfold decodes; decide +kernel
theorem test_decode_bnv :
    decodes [0x60, 0x03] (.bnvR .D) ∧
    decodes [0x61, 0x78, 0x56, 0x34, 0x12] (.bnvI32 0x12345678) := by
  unfold decodes; decide +kernel
theorem test_decode_jmp :
    decodes [0x62, 0x03] (.jmpR .D) ∧
    decodes [0x63, 0x78, 0x56, 0x34, 0x12] (.jmpI32 0x12345678) := by
  unfold decodes; decide +kernel
theorem test_decode_call :
    decodes [0x64, 0x03] (.callR .D) ∧
    decodes [0x65, 0x78, 0x56, 0x34, 0x12] (.callI32 0x12345678) := by
  unfold decodes; decide +kernel
theorem test_decode_ret :
    decodes [0x66] (.ret) := by
  unfold decodes; decide +kernel
theorem test_decode_iret :
    decodes [0x67] (.iret) := by
  unfold decodes; decide +kernel
theorem test_decode_sret :
    decodes [0x68] (.sret) := by
  unfold decodes; decide +kernel
theorem test_decode_push :
    decodes [0x69, 0x03] (.pushR .D) ∧
    decodes [0x6A, 0x78, 0x56, 0x34, 0x12] (.pushI32 0x12345678) := by
  unfold decodes; decide +kernel
theorem test_decode_pop :
    decodes [0x6B, 0x03] (.popR .D) := by
  unfold decodes; decide +kernel
theorem test_decode_nop :
    decodes [0x6C] (.nop) := by
  unfold decodes; decide +kernel

theorem test_decode_register_byte_15_and_16 :
    decode defaultOpcodeMap [0x33, 0x0F] = .ok (.notR .FL) [] ∧
    decode defaultOpcodeMap [0x33, 0x10] = .invalidRegister 0x33 0x10 := by decide +kernel
theorem test_decode_short : decode defaultOpcodeMap [0x01, 0x00] = .tooShort := by decide +kernel
theorem test_table_word : decodeTableWord 24 0x010001 = some (.movRR .A .B) ∧ decodeTableWord 8 0x66 = some .ret ∧
    decodeTableWord 8 0x6D = none := by decide +kernel

/-! ### One step -/

/-- Bytes in the RAM. -/
def put (a : Word) (bs : List Byte) (s : State) : State := busSetArray bs a s

/-- The reset state with these registers, PC = 0x100 and an instruction there (95_test_vectors.md, Conventions). -/
def machine (code : List Byte) (rs : List (Reg × Word)) : State :=
  put 0x100 code (rs.foldl (fun s x => s.setReg x.1 x.2) (State.reset.setReg .PC 0x100))

/-- What a step leaves. -/
def after {α : Type} (f : State → α) (s : State) : Option α :=
  match step s with
  | .next t => some (f t)
  | _ => none

/-- A register and FL. -/
def rf (r : Reg) (s : State) : Word × Word := (s.reg r, s.reg .FL)

/-- PC and FL. -/
def pf (s : State) : Word × Word := rf .PC s

/-- SP, PC and the word at the new top of the stack. -/
def stackView (s : State) : Word × Word × Word := (s.reg .SP, s.reg .PC, littleEndian (bytesAt s (s.reg .SP) 4))

/-- The fault mark, PC and FL. -/
def mark (s : State) : Option FaultMark × Word × Word := (s.fault, s.reg .PC, s.reg .FL)

/-- The machine with another `CMP_MODE` and `DIV_MODE`. -/
def modes (c d : Signedness) (s : State) : State := { s with cfg := { s.cfg with cmpMode := c, divMode := d } }

/-- V-L1-1. -/
theorem test_mov_register : after (fun s => (s.reg .A, s.reg .PC, s.reg .FL)) (machine [0x01, 0x00, 0x01] [(.B, 0x42)]) = some (0x42, 0x103, 0x40) := by decide +kernel
/-- V-MOV-1. -/
theorem test_mov_fl_sets_no_flags : after pf (machine [0x02, 0x0F, 0x80] []) = some (0x103, 0x80) := by decide +kernel
/-- V-MOV-2. -/
theorem test_mov_pc_is_a_transfer : after pf (machine [0x01, 0x0E, 0x01] [(.B, 0x400)]) = some (0x400, 0x40) := by decide +kernel
/-- R83, R151: 0x8000 zero-extended. -/
theorem test_mov_imm16 : after (rf .A) (machine [0x03, 0x00, 0x00, 0x80] [(.A, 0xFFFFFFFF)]) = some (0x8000, 0x40) := by decide +kernel
/-- V-L1-2. -/
theorem test_mov_imm32_sign : after (rf .A) (machine [0x04, 0x00, 0x01, 0x00, 0x00, 0xF0] []) = some (0xF0000001, 0x08) := by decide +kernel
/-- V-MOV-4. -/
theorem test_movb_load_zero_extends : after (rf .A) (put 0x200 [0x80] (machine [0x05, 0x00, 0x01] [(.A, 0xFFFFFFFF), (.B, 0x200)])) = some (0x80, 0x00) := by decide +kernel
/-- V-MOV-5. -/
theorem test_movb_store_one_byte : after (fun s => (readByte s 0x200, readByte s 0x201, s.reg .FL)) (machine [0x07, 0x01, 0x00] [(.A, 0x11223380), (.B, 0x200)]) = some (0x80, 0x00, 0x00) := by decide +kernel
/-- V-L1-3. -/
theorem test_movb_absolute_immediate : after (fun s => (readByte s 0x64, readByte s 0xFF, s.reg .PC, s.reg .FL)) (put 0x64 [0xFF] (machine [0x0C, 0x64, 0x00, 0x00, 0x00, 0xF0] [])) = some (0xF0, 0x00, 0x106, 0x40) := by decide +kernel
/-- V-MOV-6. -/
theorem test_movw_overlap_reads_first : after (fun s => (bytesAt s 0x10 3, s.reg .FL, s.reg .PC)) (put 0x10 [0xAA, 0xBB, 0xCC] (machine [0x18, 0x10, 0x00, 0x00, 0x00, 0x11, 0x00, 0x00, 0x00] [])) = some ([0xBB, 0xCC, 0xCC], 0x40, 0x109) := by decide +kernel
/-- R153: two bytes, little-endian. -/
theorem test_movw_load : after (rf .A) (put 0x200 [0xAA, 0xBB, 0xCC] (machine [0x10, 0x00, 0x00, 0x02, 0x00, 0x00] [(.A, 0xFFFFFFFF)])) = some (0xBBAA, 0x40) := by decide +kernel
/-- V-MOV-7. -/
theorem test_movd_load_wraps_the_address_space : after (fun s => s.reg .A) (put 0 [0x11, 0x22] (machine [0x1A, 0x00, 0xFE, 0xFF, 0xFF, 0xFF] [])) = some 0x22110000 := by decide +kernel
/-- V-MOV-10. -/
theorem test_movd_store_into_a_register_slot : after (rf .SP) (machine [0x1F, 0x34, 0x00, 0x00, 0xF0, 0x00] [(.A, 0x1234)]) = some (0x1234, 0x00) := by decide +kernel
/-- V-ALU-21. -/
theorem test_or : after (rf .A) (machine [0x23, 0x00, 0x01] []) = some (0, 0x44) := by decide +kernel
/-- V-ALU-20. -/
theorem test_xor : after (rf .A) (machine [0x2A, 0x00, 0xFF, 0xFF, 0xFF, 0xFF] [(.A, 0x0F0F0F0F)]) = some (0xF0F0F0F0, 0x48) := by decide +kernel
/-- R83, R183: 0xFF00 zero-extended. -/
theorem test_and_imm16 : after (rf .A) (machine [0x2D, 0x00, 0x00, 0xFF] [(.A, 0xABCDEF12)]) = some (0xEF00, 0x40) := by decide +kernel
/-- V-ALU-15. -/
theorem test_shl_by_32 : after (rf .A) (machine [0x2F, 0x00, 0x01] [(.A, 1), (.B, 32)]) = some (0, 0x44) := by decide +kernel
/-- V-ALU-16. -/
theorem test_shl_count_is_not_masked : after (rf .A) (machine [0x2F, 0x00, 0x01] [(.A, 1), (.B, 0x100)]) = some (0, 0x44) := by decide +kernel
/-- R184. -/
theorem test_shl_by_31 : after (rf .A) (machine [0x30, 0x00, 0x1F] [(.A, 3)]) = some (0x80000000, 0x48) := by decide +kernel
/-- V-ALU-18. -/
theorem test_shr_by_1 : after (rf .A) (machine [0x32, 0x00, 0x01] [(.A, 0x80000001)]) = some (0x40000000, 0x40) := by decide +kernel
/-- R185. -/
theorem test_shr_by_31 : after (rf .A) (machine [0x31, 0x00, 0x01] [(.A, 0x80000000), (.B, 31)]) = some (1, 0x00) := by decide +kernel
/-- V-ALU-19. -/
theorem test_not : after (rf .A) (machine [0x33, 0x00] [(.A, 0xFFFFFFFF)]) = some (0, 0x44) := by decide +kernel
/-- V-L1-6. -/
theorem test_add_carry_and_overflow : after (rf .A) (machine [0x37, 0x00, 0x00, 0x00, 0x00, 0x80] [(.A, 0x80000000)]) = some (0, 0x47) := by decide +kernel
/-- V-ALU-26. -/
theorem test_add_pc : after pf (machine [0x35, 0x0E, 0x04] []) = some (0x104, 0x00) := by decide +kernel
/-- V-ALU-2. -/
theorem test_sub_borrow : after (rf .A) (machine [0x39, 0x00, 0x01] []) = some (0xFFFFFFFF, 0x49) := by decide +kernel
/-- V-ALU-3. -/
theorem test_sub_overflow : after (rf .A) (machine [0x38, 0x00, 0x01] [(.A, 0x80000000), (.B, 1)]) = some (0x7FFFFFFF, 0x42) := by decide +kernel
/-- V-ALU-4. -/
theorem test_cmp_signed : after (rf .A) (machine [0x3C, 0x00, 0x01] [(.A, 0xFFFFFFFF), (.B, 1)]) = some (0xFFFFFFFF, 0x28) := by decide +kernel
/-- V-ALU-5. -/
theorem test_cmp_unsigned : after (rf .A) (modes .unsigned .unsigned (machine [0x3C, 0x00, 0x01] [(.A, 0xFFFFFFFF), (.B, 1)])) = some (0xFFFFFFFF, 0x18) := by decide +kernel
/-- V-ALU-8. -/
theorem test_mul_carry : after (rf .A) (machine [0x41, 0x00, 0x02] [(.A, 0xFFFFFFFF)]) = some (0xFFFFFFFE, 0x09) := by decide +kernel
/-- V-ALU-9. -/
theorem test_mul_overflow : after (rf .A) (machine [0x41, 0x00, 0x02] [(.A, 0x40000000)]) = some (0x80000000, 0x4A) := by decide +kernel
/-- V-ALU-10. -/
theorem test_idiv_unsigned : after (rf .A) (machine [0x45, 0x00, 0x02] [(.A, 0xFFFFFFF9)]) = some (0x7FFFFFFC, 0x40) := by decide +kernel
/-- V-ALU-12. -/
theorem test_idiv_signed_overflow : after (rf .A) (modes .signed .signed (machine [0x44, 0x00, 0x01] [(.A, 0x80000000), (.B, 0xFFFFFFFF)])) = some (0x80000000, 0x4A) := by decide +kernel
/-- V-ALU-14. -/
theorem test_mod_signed : after (rf .A) (modes .signed .signed (machine [0x49, 0x00, 0x02] [(.A, 0xFFFFFFF9)])) = some (0xFFFFFFFF, 0x48) := by decide +kernel
/-- V-ALU-13. -/
theorem test_mod_unsigned : after (rf .A) (machine [0x48, 0x00, 0x01] [(.A, 7), (.B, 0xFFFFFFFE)]) = some (7, 0x00) := by decide +kernel
/-- V-ALU-22. -/
theorem test_inc_overflow : after (rf .A) (machine [0x4C, 0x00] [(.A, 0x7FFFFFFF)]) = some (0x80000000, 0x4A) := by decide +kernel
/-- V-ALU-25. -/
theorem test_inc_fl : after pf (machine [0x4C, 0x0F] [(.FL, 0x7F)]) = some (0x102, 0x80) := by decide +kernel
/-- V-ALU-23. -/
theorem test_dec_overflow : after (rf .A) (machine [0x4D, 0x00] [(.A, 0x80000000)]) = some (0x7FFFFFFF, 0x42) := by decide +kernel
/-- V-ALU-24. -/
theorem test_dec_borrow : after (rf .A) (machine [0x4D, 0x00] []) = some (0xFFFFFFFF, 0x49) := by decide +kernel
/-- V-CTL-1. -/
theorem test_bz_taken : after pf (machine [0x4F, 0x00, 0x10, 0x00, 0x00] [(.FL, 0x04)]) = some (0x1000, 0x04) := by decide +kernel
/-- V-CTL-2. -/
theorem test_bz_not_taken : after pf (machine [0x4F, 0x00, 0x10, 0x00, 0x00] []) = some (0x105, 0x00) := by decide +kernel
/-- R232. -/
theorem test_bnz_not_taken : after pf (machine [0x51, 0x00, 0x10, 0x00, 0x00] [(.FL, 0x04)]) = some (0x105, 0x04) := by decide +kernel
/-- V-CTL-6. -/
theorem test_bneg_taken : after pf (machine [0x52, 0x00] [(.FL, 0x08), (.A, 0x40)]) = some (0x40, 0x08) := by decide +kernel
/-- R234. -/
theorem test_bpos_not_taken : after pf (machine [0x54, 0x00] [(.FL, 0x08), (.A, 0x40)]) = some (0x102, 0x08) := by decide +kernel
/-- V-CTL-5. -/
theorem test_bgt_not_taken : after pf (machine [0x57, 0x80, 0x00, 0x00, 0x00] []) = some (0x105, 0x00) := by decide +kernel
/-- V-CTL-3. -/
theorem test_bgte_taken : after pf (machine [0x59, 0x80, 0x00, 0x00, 0x00] []) = some (0x80, 0x00) := by decide +kernel
/-- R237. -/
theorem test_blt_taken : after pf (machine [0x5B, 0x80, 0x00, 0x00, 0x00] [(.FL, 0x20)]) = some (0x80, 0x20) := by decide +kernel
/-- V-CTL-4. -/
theorem test_blte_taken : after pf (machine [0x5D, 0x80, 0x00, 0x00, 0x00] []) = some (0x80, 0x00) := by decide +kernel
/-- V-CTL-7. -/
theorem test_bv_not_taken : after pf (machine [0x5F, 0x90, 0x00, 0x00, 0x00] [(.FL, 0x80)]) = some (0x105, 0x80) := by decide +kernel
/-- V-CTL-8. -/
theorem test_bnv_not_taken : after pf (machine [0x61, 0x90, 0x00, 0x00, 0x00] [(.FL, 0x02)]) = some (0x105, 0x02) := by decide +kernel
/-- V-CTL-9. -/
theorem test_jmp_pc : after pf (machine [0x62, 0x0E] []) = some (0x100, 0x00) := by decide +kernel
/-- V-CTL-11. -/
theorem test_call : after stackView (machine [0x65, 0x00, 0x04, 0x00, 0x00] [(.SP, 0x8000)]) = some (0x7FFC, 0x400, 0x105) := by decide +kernel
/-- V-CTL-12. -/
theorem test_call_sp_reads_the_old_sp : after stackView (machine [0x64, 0x0D] [(.SP, 0x8000)]) = some (0x7FFC, 0x8000, 0x102) := by decide +kernel
/-- V-CTL-13. -/
theorem test_ret : after (fun s => (s.reg .PC, s.reg .SP)) (put 0x7FFC [0x05, 0x01] (machine [0x66] [(.SP, 0x7FFC)])) = some (0x105, 0x8000) := by decide +kernel
/-- V-CTL-14. -/
theorem test_iret : after (fun s => (s.reg .FL, s.reg .PC, s.reg .SP)) (put 0x7FF8 [0x80, 0, 0, 0, 0x05, 0x01] (machine [0x67] [(.SP, 0x7FF8)])) = some (0x80, 0x105, 0x8000) := by decide +kernel
/-- V-CTL-15. -/
theorem test_sret_then_entry : after (fun s => (s.reg .FL, stackView s, bytesAt s 0x7FFC 2, s.pending)) { put 0xFC10 [0x00, 0x30] (put 0x7FF8 [0x80, 0, 0, 0, 0x05, 0x01] (machine [0x68] [(.SP, 0x7FF8)])) with pending := [4] } = some (0, (0x7FF8, 0x3000, 0x80), [0x05, 0x01], []) := by decide +kernel
/-- V-STK-2. -/
theorem test_push_sp_is_the_old_sp : after stackView (machine [0x69, 0x0D] [(.SP, 0xFC00)]) = some (0xFBFC, 0x102, 0xFC00) := by decide +kernel
/-- V-STK-4. -/
theorem test_push_immediate : after stackView (machine [0x6A, 0xBE, 0xBA, 0xFE, 0xCA] [(.SP, 0xFC00)]) = some (0xFBFC, 0x105, 0xCAFEBABE) := by decide +kernel
/-- V-STK-6. -/
theorem test_pop_sp : after (fun s => (s.reg .SP, s.reg .PC)) (put 0xFBFC [0x00, 0x90] (machine [0x6B, 0x0D] [(.SP, 0xFBFC)])) = some (0x9000, 0x102) := by decide +kernel
/-- V-STK-8. -/
theorem test_pop_fl_whole : after (fun s => (s.reg .FL, s.reg .SP)) (put 0xFBFC [0xFF, 0xFF, 0xFF, 0xFF] (machine [0x6B, 0x0F] [(.SP, 0xFBFC)])) = some (0xFFFFFFFF, 0xFC00) := by decide +kernel
/-- V-STK-10. -/
theorem test_nop : after (fun s => (s.regs, s.mem)) (machine [0x6C] []) = some ((State.reset.setReg .PC 0x101).regs, [(0x100, 0x6C)]) := by decide +kernel

/-! ### Fatal conditions and interrupts -/
/-- V-EXC-2. -/
theorem test_exc_unassigned_opcode : after mark (machine [0x6D] []) = some (some (.invalidOpcode 0x100 0x6D), 0x100, 0) := by decide +kernel
/-- V-EXC-4. -/
theorem test_exc_first_bad_register : after mark (machine [0x01, 0x20, 0x30] []) = some (some (.invalidRegister 0x100 0x01 0x20), 0x100, 0) := by decide +kernel
/-- V-EXC-5. -/
theorem test_exc_bad_register_before_division : after mark (machine [0x44, 0x00, 0x10] [(.A, 5)]) = some (some (.invalidRegister 0x100 0x44 0x10), 0x100, 0) := by decide +kernel
/-- V-EXC-6. -/
theorem test_exc_divide_by_zero : after mark (machine [0x44, 0x00, 0x01] [(.A, 5)]) = some (some (.divideByZero 0x100 0x44), 0x100, 0) := by decide +kernel
/-- V-EXC-7. -/
theorem test_exc_mod_by_zero : after mark (machine [0x49, 0x00, 0x00] []) = some (some (.divideByZero 0x100 0x49), 0x100, 0) := by decide +kernel
/-- V-EXC-9. -/
theorem test_exc_fl_slot : after mark (machine [0x0C, 0x3F, 0x00, 0x00, 0xF0, 0x01] []) = some (some (.cpuWindowWrite 0x100 0xF000003F), 0x100, 0) := by decide +kernel
/-- V-EXC-10. -/
theorem test_exc_straddles_the_sp_slot : after (fun s => (s.fault, s.reg .SP)) (machine [0x1F, 0x36, 0x00, 0x00, 0xF0, 0x00] [(.A, 7)]) = some (some (.cpuWindowWrite 0x100 0xF0000036), 0) := by decide +kernel
/-- V-EXC-11. -/
theorem test_exc_push_onto_the_window : after (fun s => (s.fault, s.reg .SP)) (machine [0x69, 0x00] [(.SP, 0xF0000040)]) = some (some (.cpuWindowWrite 0x100 0xF000003C), 0xF0000040) := by decide +kernel
/-- V-EXC-12. -/
theorem test_push_above_the_window : after (fun s => (s.fault, s.reg .SP)) (machine [0x69, 0x00] [(.SP, 0xF0000044), (.A, 9)]) = some (none, 0xF0000040) := by decide +kernel
/-- V-EXC-13. -/
theorem test_exc_entry_onto_the_window : after (fun s => (mark s, s.reg .SP, s.pending)) { (machine [0x6C] [(.SP, 0xF0000044), (.FL, 0x80)]) with pending := [1] } = some ((some (.cpuWindowWrite 0x101 0xF000003C), 0x101, 0x80), 0xF0000044, [1]) := by decide +kernel
/-- V-IRQ-1. -/
theorem test_irq_masked : after (fun s => (s.reg .PC, s.pending)) { (machine [0x6C] [(.SP, 0xFC00)]) with pending := [3] } = some (0x101, [3]) := by decide +kernel
/-- V-IRQ-2. -/
theorem test_irq_lowest_first : after (fun s => (s.reg .PC, s.reg .FL, bytesAt s 0xFBF8 8, s.pending)) { put 0xFC14 [0, 0x50] (put 0xFC08 [0, 0x20] (machine [0x6C] [(.SP, 0xFC00), (.FL, 0x84)])) with pending := [2, 5] } = some (0x2000, 0x04, [0x84, 0, 0, 0, 0x01, 0x01, 0, 0], [5]) := by decide +kernel
/-- V-IRQ-3. -/
theorem test_irq_enabled_by_the_instruction : after (fun s => (s.reg .PC, s.reg .FL, bytesAt s 0xFBF8 8)) { put 0xFC00 [0, 0x20] (machine [0x02, 0x0F, 0x80] [(.SP, 0xFC00)]) with pending := [0] } = some (0x2000, 0, [0x80, 0, 0, 0, 0x03, 0x01, 0, 0]) := by decide +kernel
/-- V-EXC-1, R341. -/
theorem test_step_after_reset : after mark State.reset = some (some (.invalidOpcode 0 0), 0, 0) := by decide +kernel
/-- R31: no step is enabled while the mark is set. -/
theorem test_halted : step (State.reset.fatal (.invalidOpcode 0 0)) = .fault (.halted (.invalidOpcode 0 0)) := by rfl
/-- The instruction of a table word runs as the first after reset (log entry 9). -/
theorem test_with_fetch_word :
    after pf (State.reset.withFetchWord 40 0x0000123463) = some (0x1234, 0) := by decide +kernel

/-! ### The host's operations and the codec -/

theorem test_raise_reply : (hostOperation (.raiseLine 256) State.reset).1 = .refused .lineOutOfRange := by rfl
theorem test_set_get : (hostOperation (.get 0xF0000039) (hostOperation (.set 0xF0000039 0x12) State.reset).2).1 =
    .bytes [0x12] := by decide +kernel
theorem test_set_pc_slot : (hostOperation (.set 0xF0000039 0x12) State.reset).2.reg .PC = 0x1200 := by decide +kernel
/-- V-RST-3. -/
theorem test_disassemble_after_reset : (hostOperation (.disassembleAt 0) State.reset).1 =
    .text ['d', 'a', 't', 'a', ' ', '0', 'x', '0', '0'] 1 := by decide +kernel

/-- What the assembler answers for a line. -/
def asm (t : String) : EncodeResult := encodeText defaultOpcodeMap t.toList

/-- V-L1-8, V-ENC-1 to V-ENC-8. -/
theorem test_encode :
    asm "MOV a, b" = .bytes [0x01, 0x00, 0x01] ∧ asm "mov A, 0x42" = .bytes [0x02, 0x00, 0x42] ∧
    asm "mov A, 0x1234" = .bytes [0x03, 0x00, 0x34, 0x12] ∧
    asm "mov A, 66000" = .bytes [0x04, 0x00, 0xD0, 0x01, 0x01, 0x00] ∧
    asm "movw [A], 0x42" = .bytes [0x12, 0x00, 0x42, 0x00] ∧
    asm "movd [ SP ], 0x0" = .bytes [0x1C, 0x0D, 0x00, 0x00, 0x00, 0x00] ∧
    asm "push 5" = .bytes [0x6A, 0x05, 0x00, 0x00, 0x00] ∧ asm "ret" = .bytes [0x66] := by decide +kernel
/-- V-ENC-9 to V-ENC-19. -/
theorem test_encode_errors :
    asm "mov A, [B" = .error .unbalancedBrackets ∧ asm "mov Q, 1" = .error .unknownRegister ∧
    asm "movb [A], 0x100" = .error .noMatchingRow ∧ asm "mov A, 4294967296" = .error .literalOutOfRange ∧
    asm "shl A, 300" = .error .noMatchingRow ∧ asm "mov A, B, C" = .error .grammar ∧
    asm "mov A, -1" = .error .badToken ∧ asm "mov [A], B" = .error .noMatchingRow ∧
    asm "add A, [B]" = .error .noMatchingRow ∧ asm "data 0x00" = .error .unknownMnemonic := by decide +kernel
/-- V-DEC-4, V-DEC-6, V-DEC-7. -/
theorem test_decode_text :
    decodeAt 0x200 (put 0x200 [0x01, 0x10, 0x00] State.reset) =
      (("data 0x01".toList, 1), put 0x200 [0x01, 0x10, 0x00] State.reset) ∧
    (decodeAt 0x200 (put 0x200 [0x0E, 0x00, 0x01, 0x00, 0x00, 0x64] State.reset)).1 =
      ("movb [0x00000100], [0x00000064]".toList, 9) ∧
    (decodeAt 0x200 (put 0x200 [0x03, 0x00, 0x42] State.reset)).1 = ("mov A, 0x0042".toList, 4) := by decide +kernel

/-! ### Witnesses: the hypotheses of each statement can be met -/

/-- A RAM stack at 0x8000, T set, lines 3 and 5 pending, a `nop` at PC. -/
def irqState : State :=
  { put 0xFC0C [0x40] (machine [0x6C] [(.SP, 0x8000), (.FL, 0x80)]) with pending := [3, 5] }

theorem irqState_cfg : irqState.cfg = exampleConfig := by decide +kernel

/-- The same with line 5 pending and line 3 signalled during the step. -/
def irqSignalled : State := { irqState with pending := [5], signalled := [3] }

theorem irqSignalled_cfg : irqSignalled.cfg = exampleConfig := irqState_cfg

/-- A step ending with line 3 signalled and line 5 pending takes line 3, and line 5 stays (60_exceptions.md R310, R315). -/
theorem test_signalled_line_is_taken :
    (irqSignalled.finishStep.reg .PC, irqSignalled.finishStep.pending) = (0x40, [5]) := by decide +kernel

/-- A fatal condition leaves no signalled line over (log entry 4). -/
theorem test_fatal_drops_signals : ((irqSignalled.fatal (.divideByZero 0 0x44)).signalled,
    (irqSignalled.fatal (.divideByZero 0 0x44)).hostStop.mergeSignals.pending) = ([], [5]) := by decide +kernel

/-- The same with the stack just above the CPU window (V-EXC-13). -/
def irqOntoWindow : State := { machine [0x6C] [(.SP, 0xF0000044), (.FL, 0x80)] with pending := [1] }

/-- A configuration with two devices, one of them up to the top of the address space. -/
def busConfig : Config := withDevices [dev 0x10000 16 (some 255), dev 0xFFFFFFF0 16 none]

/-- A machine with that configuration. -/
def busState : State := State.initial busConfig

theorem witness_DecodeInvertsEncode : Instr.wf defaultOpcodeMap (.movdMaMa 1 2) ∧
    OpcodeMap.wf [(0x01, ⟨.mov, [.reg, .reg]⟩), (0x00, ⟨.nop, []⟩)] ∧
    Instr.wf [(0x01, ⟨.mov, [.reg, .reg]⟩), (0x00, ⟨.nop, []⟩)] .nop := by decide +kernel
theorem witness_EncodeInvertsDecode : OpcodeMap.wf oneRow ∧
    decode oneRow [0x01, 0x00, 0x01, 0xFF] = .ok (.movRR .A .B) [0xFF] := by decide +kernel
theorem witness_UnassignedOpcodesAreRejected : decode defaultOpcodeMap [0x00] = .invalidOpcode 0x00 ∧
    decode defaultOpcodeMap [0x6C] = .ok .nop [] ∧ decode defaultOpcodeMap [0x6D] = .invalidOpcode 0x6D ∧
    decode defaultOpcodeMap [0xFF] = .invalidOpcode 0xFF := by decide +kernel
theorem witness_FirstBadRegisterByteIsReported :
    List.lookup 0x09 defaultOpcodeMap = some ⟨.movb, [.ind, .ind]⟩ ∧
    registerBytes [.ind, .ind] [0x10, 0x20] = [0x10, 0x20] ∧
    decode defaultOpcodeMap [0x09, 0x10, 0x20] = .invalidRegister 0x09 0x10 ∧
    decode defaultOpcodeMap [0x09, 0x0F, 0x10] = .invalidRegister 0x09 0x10 ∧
    registerBytes [.abs, .reg] [0x20, 0, 0, 0, 0x10] = [0x10] ∧
    decode defaultOpcodeMap [0x0B, 0x20, 0, 0, 0, 0x10] = .invalidRegister 0x0B 0x10 ∧
    decode defaultOpcodeMap [0x4C, 0x10] = .invalidRegister 0x4C 0x10 ∧
    decode defaultOpcodeMap [0x02, 0xFF, 0x05] = .invalidRegister 0x02 0xFF ∧
    decode defaultOpcodeMap [0x02, 0x0F, 0xFF] = .ok (.movRI8 .FL 0xFF) [] := by decide +kernel
theorem witness_StepRunsTheDecodedInstruction : (machine [0x01, 0x00, 0x01] []).fault = none ∧
    noDevice (machine [0x01, 0x00, 0x01] []).cfg 0x100 3 ∧ (machine [0x01, 0x00, 0x01] []).reg .PC = 0x100 ∧
    decode defaultOpcodeMap (bytesAt (machine [0x01, 0x00, 0x01] []) 0x100 (Instr.length (.movRR .A .B))) =
      .ok (.movRR .A .B) [] := by
  unfold noDevice; decide +kernel
theorem witness_HaltedCoreReturnsItsMark :
    (State.reset.fatal (.divideByZero 4 0x44)).fault = some (.divideByZero 4 0x44) := by rfl
theorem witness_InvalidOpcodeEndsTheStep : State.reset.fault = none ∧
    isDeviceByte State.reset.cfg (State.reset.reg .PC) = false ∧
    State.reset.cfg.opcodes.lookup (readByte State.reset (State.reset.reg .PC)) = none := by decide +kernel
theorem witness_InvalidRegisterEndsTheStep : (machine [0x33, 0x10] []).fault = none ∧
    noDevice (machine [0x33, 0x10] []).cfg ((machine [0x33, 0x10] []).reg .PC) 2 ∧
    decode (machine [0x33, 0x10] []).cfg.opcodes
      (bytesAt (machine [0x33, 0x10] []) ((machine [0x33, 0x10] []).reg .PC) 2) = .invalidRegister 0x33 0x10 := by
  unfold noDevice; decide +kernel
theorem witness_EveryEnabledStepEnds : State.reset.fault = none := by rfl
theorem witness_FatalInstructionsArePrecise : State.reset.fault = none ∧
    ∃ t, exec (.idivRI8 .A 0) State.reset = .next t ∧ t.fault = some (.divideByZero 0 0x45) :=
  ⟨rfl, State.reset.fatal (.divideByZero 0 0x45), by rfl, rfl⟩
theorem witness_NoInterruptWithoutTOrPending :
    (State.reset.fault = none ∧ ({ State.reset with pending := [3] } : State).flag .T = false) ∧
    ((machine [0x6C] [(.FL, 0x80)]).fault = none ∧ (machine [0x6C] [(.FL, 0x80)]).flag .T = true ∧
      (machine [0x6C] [(.FL, 0x80)]).pending = [] ∧ (machine [0x6C] [(.FL, 0x80)]).signalled = []) := by decide +kernel
theorem witness_InterruptEntry : irqState.cfg.wf ∧ linesOk irqState.cfg irqState.pending = true ∧
    linesOk irqState.cfg irqState.signalled = true ∧ irqState.fault = none ∧ irqState.flag .T = true ∧
    stackWriteFatal irqState.cfg (irqState.reg .SP - 8) 8 = false ∧ lowestWaiting irqState 3 ∧
    noDevice irqState.cfg (irqState.reg .SP - 8) 8 := by
  refine ⟨irqState_cfg ▸ test_example_config_wf, ?_, ?_, ?_, ?_, ?_, (lowestWaiting_iff _ _).mpr ?_, ?_⟩
  all_goals first | decide +kernel | (unfold noDevice; decide +kernel)
theorem witness_InterruptEntry_signalled : irqSignalled.cfg.wf ∧
    linesOk irqSignalled.cfg irqSignalled.pending = true ∧ linesOk irqSignalled.cfg irqSignalled.signalled = true ∧
    irqSignalled.fault = none ∧ irqSignalled.flag .T = true ∧
    stackWriteFatal irqSignalled.cfg (irqSignalled.reg .SP - 8) 8 = false ∧ lowestWaiting irqSignalled 3 := by
  refine ⟨irqSignalled_cfg ▸ test_example_config_wf, ?_, ?_, ?_, ?_, ?_, (lowestWaiting_iff _ _).mpr ?_⟩
  all_goals decide +kernel
theorem witness_LowestPendingLineFirst : irqState.cfg.wf ∧ linesOk irqState.cfg irqState.pending = true ∧
    linesOk irqState.cfg irqState.signalled = true ∧ irqState.fault = none ∧ irqState.flag .T = true ∧
    stackWriteFatal irqState.cfg (irqState.reg .SP - 8) 8 = false ∧ noDevice irqState.cfg (irqState.reg .SP - 8) 8 ∧
    waits irqState 3 ∧ waits irqState 5 :=
  have h := witness_InterruptEntry
  ⟨h.1, h.2.1, h.2.2.1, h.2.2.2.1, h.2.2.2.2.1, h.2.2.2.2.2.1, h.2.2.2.2.2.2.2, .inl (by decide), .inl (by decide)⟩
theorem witness_EntryOntoCpuWindowIsFatal : irqOntoWindow.fault = none ∧ irqOntoWindow.flag .T = true ∧
    waits irqOntoWindow 1 ∧ stackWriteFatal irqOntoWindow.cfg (irqOntoWindow.reg .SP - 8) 8 = true :=
  ⟨by decide +kernel, by decide +kernel, .inl (by decide), by decide +kernel⟩
theorem witness_ReturnUndoesEntry : irqState.cfg.wf ∧ linesOk irqState.cfg irqState.pending = true ∧
    linesOk irqState.cfg irqState.signalled = true ∧ irqState.fault = none ∧ irqState.flag .T = true ∧
    waits irqState 3 ∧ allRam irqState.cfg (irqState.reg .SP - 8) 8 := by
  refine ⟨irqState_cfg ▸ test_example_config_wf, ?_, ?_, ?_, ?_, .inl (by decide), ?_⟩
  all_goals first | decide +kernel | (unfold allRam; decide +kernel)
theorem witness_ResetState : route State.reset.cfg 0 = .ram ∧ route State.reset.cfg 0xFFFF = .ram := by decide +kernel
theorem witness_RunStopsAtStopAddress :
    ({ State.reset with cfg := { exampleConfig with stopAddr := some 0 } } : State).fault = none ∧
    ({ State.reset with cfg := { exampleConfig with stopAddr := some 0 } } : State).cfg.stopAddr =
      some (({ State.reset with cfg := { exampleConfig with stopAddr := some 0 } } : State).reg .PC) := ⟨rfl, rfl⟩
theorem witness_RaisedLinesCoalesce : 255 < State.reset.cfg.nIrq ∧ ¬ 256 < State.reset.cfg.nIrq := by decide +kernel
theorem witness_OverlappingWindowsAreRefused : (0 : Nat) ≠ 2 ∧
    exampleConfig.ramWindow ∈ exampleConfig.windows ∧ inWindow (dev 0xFFFF 1 none).window 0xFFFF = true ∧
    (withDevices [dev 0xFFFF 1 none]).windows[0]? = some exampleConfig.ramWindow ∧
    (withDevices [dev 0xFFFF 1 none]).windows[2]? = some ⟨0xFFFF, 1⟩ ∧
    inWindow exampleConfig.ramWindow 0xFFFF = true ∧ inWindow ⟨0xFFFF, 1⟩ 0xFFFF = true := by decide +kernel

/-- The interrupt state meets the invariant. -/
theorem witness_StepKeepsTheInvariant : Inv irqState ∧ ∃ t, step irqState = .next t := by
  refine ⟨⟨?_, ?_, ?_, ?_, ?_, rfl, fun h => absurd (by rfl) h⟩, ?_⟩
  · exact irqState_cfg ▸ test_example_config_wf
  · decide +kernel
  · decide +kernel
  · decide +kernel
  · decide +kernel
  · cases h : step irqState with
    | next t => exact ⟨t, rfl⟩
    | fault f => exact absurd (show after (fun _ => ()) irqState = none by simp [after, h]) (by decide +kernel)
    | refused r => exact absurd (show after (fun _ => ()) irqState = none by simp [after, h]) (by decide +kernel)
theorem witness_HostOperationsKeepTheInvariant : Inv irqState := witness_StepKeepsTheInvariant.1
theorem witness_ConfigurationIsFixed : ∃ t, step irqState = .next t := witness_StepKeepsTheInvariant.2
theorem witness_FlagsBeyondTheComputedSet : writesFlWhole .nop = false ∧ writesFlWhole (.cmpRR .FL .A) = false ∧
    (∃ t, exec .nop State.reset = .next t) ∧ (∃ t, exec (.cmpRR .FL .A) State.reset = .next t) :=
  ⟨rfl, rfl, ⟨_, rfl⟩, ⟨_, rfl⟩⟩
theorem witness_RoutingFollowsTheWindows : busConfig.wf ∧ route busConfig 0xFFFF = .ram ∧
    route busConfig 0x10000 = .device 0 0 ∧ route busConfig 0x1000F = .device 0 15 ∧ route busConfig 0x10010 = .unmapped ∧
    route busConfig 0xEFFFFFFF = .unmapped ∧ route busConfig 0xF0000000 = .cpu 0 ∧
    route busConfig 0xF000003F = .cpu 63 ∧ route busConfig 0xF0000040 = .unmapped ∧
    route busConfig 0xFFFFFFFF = .device 1 15 := by decide +kernel
theorem witness_RamReadAfterWrite : route State.reset.cfg 0xFFFF = .ram ∧
    isDeviceByte State.reset.cfg 0xF0000000 = false ∧ (0xF0000000 : Word) ≠ 0xFFFF := by decide +kernel
theorem witness_UnmappedAccesses : route State.reset.cfg 0x10000 = .unmapped := by decide +kernel
theorem witness_MemReadIsLittleEndian : noDevice busConfig 0xFFFF 1 ∧ noDevice busConfig 0xFFFE 2 ∧
    noDevice busConfig 0xFFFC 4 ∧ noDevice busConfig 0x10010 4 := by
  unfold noDevice; decide +kernel
theorem witness_MemWriteThenMemRead : allRam exampleConfig 0xFFFF 1 ∧ allRam exampleConfig 0xFFFE 2 ∧
    allRam exampleConfig 0xFFFC 4 ∧ allRam exampleConfig 1 4 := by
  unfold allRam; decide +kernel
theorem witness_CpuWindowShowsTheRegisters : busState.cfg.wf ∧ 3 < 4 ∧
    busState.cfg.cpuBase + BitVec.ofNat 32 (4 * Reg.number .FL + 3) = 0xF000003F := by decide +kernel
theorem witness_DeviceAccessesAreRecorded : route busState.cfg 0x1000F = .device 0 15 ∧
    lineOf busState.cfg 0 = some 255 := by decide +kernel

/-- The RAM's constants stand in the table beside the devices', under their full names (30_encoding.md R99). -/
theorem test_constants_of_the_ram :
    constantTable ⟨fun d n => d ++ '_' :: n, true⟩
      { withDevices [⟨['d'], 0x20000, 4, none, [(['x'], 2)]⟩] with ramConstants := [(['t', 'o', 'p'], 0xFFFF)] } =
    [(['R', 'A', 'M', '_', 't', 'o', 'p'], 0xFFFF), (['d', '_', 'x'], 0x20002)] := by decide +kernel
theorem witness_CheckWritesRanges : (withDevices []).wf ∧ dataWriteFatal (withDevices []) 0xF0000034 4 = false ∧
    dataWriteFatal (withDevices []) 0xF0000035 4 = true ∧ dataWriteFatal (withDevices []) 0xF000003F 1 = true ∧
    dataWriteFatal (withDevices []) 0xF0000040 4 = false ∧ stackWriteFatal (withDevices []) 0xEFFFFFFC 4 = false ∧
    stackWriteFatal (withDevices []) 0xEFFFFFFD 4 = true ∧ stackWriteFatal (withDevices []) 0xF0000040 4 = false := by
  decide +kernel
theorem witness_StoresWriteMemory : dataWriteFatal State.reset.cfg 0xFFFF 1 = false ∧
    dataWriteFatal State.reset.cfg 0xFFFE 2 = false ∧ dataWriteFatal State.reset.cfg 0xFFFFFFFE 4 = false ∧
    dataWriteFatal State.reset.cfg (State.reset.reg .A) 4 = false := by decide +kernel
theorem witness_MemoryToMemoryMoves : dataWriteFatal State.reset.cfg 0xF0000034 4 = false ∧
    dataWriteFatal State.reset.cfg 0xF0000036 2 = false ∧ dataWriteFatal State.reset.cfg 0x10 1 = false := by
  decide +kernel
theorem witness_StoreOntoPcOrFlSlotIsFatal : dataWriteFatal State.reset.cfg 0xF0000038 1 = true ∧
    dataWriteFatal State.reset.cfg 0xF0000037 2 = true ∧ dataWriteFatal State.reset.cfg 0xF000003F 4 = true ∧
    dataWriteFatal (machine [] [(.A, 0xF000003B)]).cfg ((machine [] [(.A, 0xF000003B)]).reg .A) 4 = true := by
  decide +kernel
theorem witness_CompareSetsTheFlags : State.reset.cfg.cmpMode = .signed ∧
    (modes .unsigned .unsigned State.reset).cfg.cmpMode = .unsigned := by decide +kernel
theorem witness_DivisionResults : (modes .signed .signed State.reset).cfg.divMode = .signed ∧
    State.reset.cfg.divMode = .unsigned ∧ (machine [] [(.B, 0xFFFFFFFF)]).reg .B ≠ 0 ∧ BitVec.ofNat 32 (1 : Byte).toNat ≠ 0 := by
  decide +kernel
theorem witness_QuotientAndRemainder : (0xFFFFFFFF : Word) ≠ 0 := by decide
theorem witness_DivisionByZeroIsFatal : State.reset.reg .B = 0 ∧ BitVec.ofNat 32 (0 : Byte).toNat = 0 ∧
    State.reset.cfg.opcodes.opcodeOf (Instr.row (.idivRR .A .B)) = some 0x44 ∧
    State.reset.cfg.opcodes.opcodeOf (Instr.row (.modRI8 .A 0)) = some 0x49 := by decide +kernel
theorem witness_PushAndCall :
    stackWriteFatal State.reset.cfg (State.reset.reg .SP - 4) 4 = false := by decide +kernel
theorem witness_PushAndCallOntoCpuWindow :
    stackWriteFatal irqOntoWindow.cfg ((irqOntoWindow.setReg .SP 0xF0000040).reg .SP - 4) 4 = true := by decide +kernel
theorem witness_PopUndoesPush : allRam irqState.cfg (irqState.reg .SP - 4) 4 := by
  unfold allRam; decide +kernel
theorem witness_AssemblerInvertsDisassembler : narrowest (.movRI16 .A 0x100) = true ∧
    narrowest (.movRI16 .A 0xFF) = false ∧ narrowest (.movRI32 .A 0x10000) = true ∧
    narrowest (.movwMrI16 .A 0x42) = true ∧ narrowest (.pushI32 5) = true := by decide +kernel
theorem witness_DisassemblerShowsTheInstruction : OpcodeMap.wf defaultOpcodeMap ∧
    (put 0x200 [0x33, 0x0F] State.reset).cfg.opcodes = defaultOpcodeMap ∧
    noDevice (put 0x200 [0x33, 0x0F] State.reset).cfg 0x200 (Instr.length (.notR .FL)) ∧
    encodeWith (put 0x200 [0x33, 0x0F] State.reset).cfg.opcodes (.notR .FL) = some [0x33, 0x0F] ∧
    bytesAt (put 0x200 [0x33, 0x0F] State.reset) 0x200 (Instr.length (.notR .FL)) = [0x33, 0x0F] := by
  refine ⟨test_default_opcode_map_wf, ?_⟩
  unfold noDevice; decide +kernel

end Sys2Proof.Tests
end

/-! The family 10_state.md: the reset state, the halted core, the flags an instruction keeps, and the invariant
that every step keeps. What an instruction can do is said once (`exec_runs`); the rest follows from it. -/

namespace Sys2Proof.Machine

/-! ### What an instruction can do -/

/-- `Runs i s t`: from `s` the instruction `i` ends in `t`. It raises a fatal condition before anything else; or it
writes a register result, stores, compares, sets PC, pushes and sets PC, or pops. A register destination FL makes it a
whole-FL write; a store and a push have passed `CheckWrites` (40_cycle.md R120, R138). -/
inductive Runs (i : Instr) (s : State) : State → Prop where
  | raises (m : FaultMark) : Runs i s (s.fatal m)
  | writes (src : Operand) (w len : Nat) (d : Reg) (r : Word) (y v : Bool) (hd : d = .FL → writesFlWhole i = true) :
      Runs i s ((valueOf src w s).2.writeResult len d r y v)
  | stores (len w : Nat) (ea : Word) (src : Operand) (hw : w ≤ 4) (hf : dataWriteFatal s.cfg ea w = false) :
      Runs i s (moveToMem len w ea src s)
  | compares (len : Nat) (d : Reg) (src : Operand) (hi : i.parts.1 = .cmp) : Runs i s (compare len d src s)
  | jumps (target : Word) : Runs i s (s.jump target)
  | pushes (v target : Word) (hf : stackWriteFatal s.cfg (s.reg .SP - 4) 4 = false) :
      Runs i s ((s.push32 v).jump target)
  | returns : Runs i s (returnFromCall s)
  | returnsFromInterrupt (hi : writesFlWhole i = true) : Runs i s s.returnFromInterrupt
  | pops (d : Reg) (hd : d = .FL → writesFlWhole i = true) : Runs i s (popInto d s)

section
variable {i : Instr} {s : State}

theorem runs_moveToReg (len w : Nat) (d : Reg) (src : Operand) (hd : d = .FL → writesFlWhole i = true) :
    Runs i s (moveToReg len w d src s) := .writes src w len d _ _ _ hd

theorem runs_aluTwo (f : Word → Word → AluResult) (len : Nat) (d : Reg) (src : Operand)
    (hd : d = .FL → writesFlWhole i = true) : Runs i s (aluTwo f len d src s) := .writes src 4 len d _ _ _ hd

theorem runs_aluOne (f : Word → AluResult) (d : Reg) (hd : d = .FL → writesFlWhole i = true) :
    Runs i s (aluOne f d s) := .writes (.reg d) 4 2 d _ _ _ hd

/-- A division by 0 whose divisor is read without an access is fatal (60_exceptions.md R303). -/
theorem runs_divide (n : Mnemonic) (f : Signedness → Word → Word → AluResult) (len : Nat) (d : Reg) (src : Operand)
    (hv : (valueOf src 4 s).2 = s) (hd : d = .FL → writesFlWhole i = true) : Runs i s (divide n f len d src s) := by
  by_cases h0 : (valueOf src 4 s).1 = 0
  · rw [divide_zero _ _ _ _ _ _ h0, hv]
    exact .raises _
  · rw [divide_nonzero _ _ _ _ _ _ h0]
    exact runs_aluTwo _ _ _ _ hd

theorem runs_moveToMem (len w : Nat) (ea : Word) (src : Operand) (hw : w ≤ 4) : Runs i s (moveToMem len w ea src s) := by
  cases hf : dataWriteFatal s.cfg ea w with
  | true => rw [moveToMem_fatal _ _ _ _ _ hf]; exact .raises _
  | false => exact .stores _ _ _ _ hw hf

theorem runs_branch (f : Flag) (wanted : Bool) (len : Nat) (target : Operand) (v : Word)
    (hv : valueOf target 4 s = (v, s)) : Runs i s (branch f wanted len target s) := by
  rw [branch_spec _ _ _ _ _ _ hv]
  exact .jumps _

theorem runs_callTo (len : Nat) (target : Operand) (v : Word) (hv : valueOf target 4 s = (v, s)) :
    Runs i s (callTo len target s) := by
  cases hf : stackWriteFatal s.cfg (s.reg .SP - 4) 4 with
  | true => rw [callTo_fatal _ _ _ hf]; exact .raises _
  | false => rw [callTo_ok _ _ _ _ hv hf]; exact .pushes _ _ hf

theorem runs_pushValue (len : Nat) (src : Operand) (v : Word) (hv : valueOf src 4 s = (v, s)) :
    Runs i s (pushValue len src s) := by
  cases hf : stackWriteFatal s.cfg (s.reg .SP - 4) 4 with
  | true => rw [pushValue_fatal _ _ _ hf]; exact .raises _
  | false => rw [pushValue_ok _ _ _ _ hv hf]; exact .pushes _ _ hf

end

/-- Every instruction answers a next state (40_cycle.md R136), and `Runs` says which. -/
theorem exec_runs (i : Instr) (s : State) : ∃ t, exec i s = .next t ∧ Runs i s t := by
  cases i with
  | movRR | movRI8 | movRI16 | movRI32 | movbRMr | movbRMa | movwRMr | movwRMa | movdRMr | movdRMa =>
    exact ⟨_, rfl, runs_moveToReg _ _ _ _ (by rintro rfl; rfl)⟩
  | movbMrR | movbMrI8 | movbMrMr | movbMrMa | movbMaR | movbMaI8 | movbMaMr | movbMaMa
  | movwMrR | movwMrI16 | movwMrMr | movwMrMa | movwMaR | movwMaI16 | movwMaMr | movwMaMa
  | movdMrR | movdMrI32 | movdMrMr | movdMrMa | movdMaR | movdMaI32 | movdMaMr | movdMaMa =>
    exact ⟨_, rfl, runs_moveToMem _ _ _ _ (by decide)⟩
  | orRR | orRI8 | orRI16 | orRI32 | xorRR | xorRI8 | xorRI16 | xorRI32 | andRR | andRI8 | andRI16 | andRI32
  | shlRR | shlRI8 | shrRR | shrRI8 | addRR | addRI8 | addRI16 | addRI32 | subRR | subRI8 | subRI16 | subRI32
  | mulRR | mulRI8 | mulRI16 | mulRI32 =>
    exact ⟨_, rfl, runs_aluTwo _ _ _ _ (by rintro rfl; rfl)⟩
  | notR | incR | decR => exact ⟨_, rfl, runs_aluOne _ _ (by rintro rfl; rfl)⟩
  | cmpRR | cmpRI8 | cmpRI16 | cmpRI32 => exact ⟨_, rfl, .compares _ _ _ rfl⟩
  | idivRR | idivRI8 | idivRI16 | idivRI32 | modRR | modRI8 | modRI16 | modRI32 =>
    exact ⟨_, rfl, runs_divide _ _ _ _ _ rfl (by rintro rfl; rfl)⟩
  | bzR | bzI32 | bnzR | bnzI32 | bnegR | bnegI32 | bposR | bposI32 | bgtR | bgtI32 | bgteR | bgteI32
  | bltR | bltI32 | blteR | blteI32 | bvR | bvI32 | bnvR | bnvI32 =>
    exact ⟨_, rfl, runs_branch _ _ _ _ _ rfl⟩
  | jmpR | jmpI32 | nop => exact ⟨_, rfl, .jumps _⟩
  | callR | callI32 => exact ⟨_, rfl, runs_callTo _ _ _ rfl⟩
  | ret => exact ⟨_, rfl, .returns⟩
  | iret | sret => exact ⟨_, rfl, .returnsFromInterrupt rfl⟩
  | pushR | pushI32 => exact ⟨_, rfl, runs_pushValue _ _ _ rfl⟩
  | popR => exact ⟨_, rfl, .pops _ (by rintro rfl; rfl)⟩

theorem runs_of_exec (i : Instr) (s t : State) (h : exec i s = .next t) : Runs i s t := by
  obtain ⟨u, hu, hr⟩ := exec_runs i s
  rw [hu] at h
  injection h with h
  exact h ▸ hr

/-! ### What an instruction keeps of the control state -/

theorem controlSame_trans (s t u : State) (h : controlSame s t) (g : controlSame t u) : controlSame s u := by
  obtain ⟨h1, h2, h3, h4⟩ := h
  obtain ⟨g1, g2, g3, g4⟩ := g
  exact ⟨g1.trans h1, g2.trans h2, g3.trans h3, g4.trans h4⟩

theorem controlSame_setReg (s : State) (r : Reg) (v : Word) : controlSame s (s.setReg r v) := ⟨rfl, rfl, rfl, rfl⟩
theorem controlSame_jump (s : State) (v : Word) : controlSame s (s.jump v) := ⟨rfl, rfl, rfl, rfl⟩

theorem controlSame_push32 (s : State) (v : Word) : controlSame s (s.push32 v) :=
  ⟨push32_cfg s v, push32_pending s v, push32_fault s v, push32_running s v⟩

theorem controlSame_pop32 (s : State) : controlSame s s.pop32.2 := by
  obtain ⟨-, hcfg, -, hpending, hfault, hrunning, -⟩ := pop32_spec s
  exact ⟨hcfg, hpending, hfault, hrunning⟩

theorem controlSame_returnFromInterrupt (s : State) : controlSame s s.returnFromInterrupt := by
  rw [returnFromInterrupt_def]
  exact controlSame_trans _ _ _ (controlSame_pop32 s) (controlSame_trans _ _ _ (controlSame_setReg ..)
    (controlSame_trans _ _ _ (controlSame_pop32 _) (controlSame_jump ..)))

/-- An instruction keeps the configuration, the pending set, the fault mark and the run mode, or it raises a fatal
condition before it has done anything else (40_cycle.md R137; 60_exceptions.md R305). -/
theorem runs_controlSame_or_fatal (i : Instr) (s t : State) (h : Runs i s t) :
    controlSame s t ∨ ∃ m, t = s.fatal m := by
  cases h with
  | raises m => exact .inr ⟨m, rfl⟩
  | writes src w len d r y v =>
    obtain ⟨⟨-, -, -, -, hcontrol, -⟩, -⟩ := writeResult_spec s _ (valueOf_sameButDevices src w s) len d r y v
    exact .inl hcontrol
  | stores len w ea src hw hf =>
    obtain ⟨-, -, -, -, -, -, -, hcontrol, -⟩ := moveToMem_spec len w ea src s (by omega) hf
    exact .inl hcontrol
  | compares len d src => exact .inl (compare_spec len d src s).2.1
  | jumps target => exact .inl (controlSame_jump s target)
  | pushes v target => exact .inl (controlSame_trans _ _ _ (controlSame_push32 s v) (controlSame_jump _ target))
  | returns => exact .inl (controlSame_trans _ _ _ (controlSame_pop32 s) (controlSame_jump ..))
  | returnsFromInterrupt => exact .inl (controlSame_returnFromInterrupt s)
  | pops d => exact .inl (popInto_frame d s).2.1

theorem runs_carries (i : Instr) (s t : State) (h : Runs i s t) : Carries s t := by
  cases h with
  | raises m => exact carries_fatal s m
  | writes src w => exact carries_trans _ _ _ (carries_valueOf src w s) (carries_writeResult ..)
  | stores => exact carries_moveToMem ..
  | compares => exact carries_compare ..
  | jumps target => exact carries_jump s target
  | pushes v => exact carries_trans _ _ _ (carries_push32 s v) (carries_jump ..)
  | returns => exact carries_returnFromCall s
  | returnsFromInterrupt => exact carries_returnFromInterrupt s
  | pops d => exact carries_popInto d s

/-! ### The flags beyond the computed set -/

theorem otherFlagsSame_of_fl_eq (s t : State) (h : t.reg .FL = s.reg .FL) : otherFlagsSame s t := by
  unfold otherFlagsSame
  simp only [flag_def, h, and_self]

/-- `cmp` writes GT and LT, but neither T nor a bit from 8 on (42_alu.md R189). -/
theorem compare_keeps_T_and_high (len : Nat) (d : Reg) (src : Operand) (s : State) :
    (compare len d src s).flag .T = s.flag .T ∧
    ((compare len d src s).reg .FL).extractLsb' 8 24 = (s.reg .FL).extractLsb' 8 24 := by
  have hfl := (compare_spec len d src s).1 .FL
  rw [if_neg (by decide), if_pos rfl] at hfl
  constructor
  · rw [flag_def, hfl]
    simp [flagOf_flagsAfter, flag_def]
  · rw [hfl]
    refine extractHigh_eq _ _ fun m hm => ?_
    have hbit : m ≠ Flag.GT.bit ∧ m ≠ Flag.LT.bit := by simp only [Flag.bit]; omega
    rw [getLsbD_putFlag, if_neg hbit.2, getLsbD_putFlag, if_neg hbit.1, getLsbD_flagsAfter _ _ _ _ _ hm]

/-- An instruction that does not write FL whole keeps GT, LT, T and bits 31:8, unless it is `cmp` (10_state.md R26,
R27; 40_cycle.md R129). -/
theorem runs_otherFlagsSame_or_compare (i : Instr) (s t : State) (h : Runs i s t) (hi : writesFlWhole i = false) :
    otherFlagsSame s t ∨ ∃ len d src, i.parts.1 = .cmp ∧ t = compare len d src s := by
  have notFl : ∀ d : Reg, (d = .FL → writesFlWhole i = true) → d ≠ .FL := fun d hd e => by
    rw [hd e] at hi; contradiction
  cases h with
  | raises m => exact .inl (otherFlagsSame_of_fl_eq _ _ (fatal_reg ..))
  | writes src w len d r y v hd =>
    obtain ⟨⟨-, hflags, -⟩, -⟩ := writeResult_spec s _ (valueOf_sameButDevices src w s) len d r y v
    exact .inl (hflags (notFl d hd)).2
  | stores len w ea src hw hf =>
    obtain ⟨-, hfl, -⟩ := moveToMem_regs len w ea src s hf
    exact .inl (otherFlagsSame_of _ _ _ _ _ hfl)
  | compares len d src hc => exact .inr ⟨len, d, src, hc, rfl⟩
  | jumps target => exact .inl (otherFlagsSame_of_fl_eq _ _ (by simp))
  | pushes v target hf => exact .inl (otherFlagsSame_of_fl_eq _ _ (by simp [push32_reg _ _ hf]))
  | returns => exact .inl (otherFlagsSame_of_fl_eq _ _ (by simp [returnFromCall, pop32_reg]))
  | returnsFromInterrupt hw => rw [hw] at hi; contradiction
  | pops d hd =>
    have hne : Reg.FL ≠ d := (notFl d hd).symm
    exact .inl (otherFlagsSame_of_fl_eq _ _ (by simp [popInto_reg, hne]))

/-- Settles O28, by cases on what an instruction can do: only `cmp` writes a flag that `SetFlags` keeps. -/
theorem flagsBeyondTheComputedSet : Obligations.FlagsBeyondTheComputedSet := by
  unfold Obligations.FlagsBeyondTheComputedSet
  intro i s t h hi
  rcases runs_otherFlagsSame_or_compare i s t (runs_of_exec i s t h) hi with hsame | ⟨len, d, src, hc, rfl⟩
  · obtain ⟨hgt, hlt, hT, hhigh⟩ := hsame
    exact ⟨hT, hhigh, fun _ => ⟨hgt, hlt⟩⟩
  · obtain ⟨hT, hhigh⟩ := compare_keeps_T_and_high len d src s
    exact ⟨hT, hhigh, fun hne => absurd hc hne⟩

/-! ### The invariant within a step -/

/-- What holds of the machine at every point of a step from a state that meets `Inv`: the parts of `Inv` but those on
the signalled lines left over and on the run mode, which only the end of the step restores. -/
structure InvInStep (s : State) : Prop where
  config    : s.cfg.wf
  memory    : Memory.wf s.mem = true
  inRam     : memoryInRam s = true
  pending   : linesOk s.cfg s.pending = true
  signalled : linesOk s.cfg s.signalled = true

theorem invInStep_of_inv (s : State) (h : Inv s) : InvInStep s :=
  ⟨h.config, h.memory, h.inRam, h.pending, h.signalled⟩

theorem inv_of_invInStep (s : State) (h : InvInStep s) (hs : s.signalled = [])
    (hr : s.fault ≠ none → s.running = .stopped) : Inv s :=
  ⟨h.config, h.memory, h.inRam, h.pending, h.signalled, hs, hr⟩

theorem invInStep_of_carries (s t : State) (h : InvInStep s) (c : Carries s t) : InvInStep t where
  config := c.cfg ▸ h.config
  memory := c.memory h.memory
  inRam := c.inRam h.inRam
  pending := by rw [c.cfg, c.pending]; exact h.pending
  signalled := by rw [c.cfg]; exact c.signalled h.config h.signalled

theorem invInStep_mergeSignals (s : State) (h : InvInStep s) : InvInStep s.mergeSignals where
  config := h.config
  memory := h.memory
  inRam := h.inRam
  pending := by
    have hs := h.signalled
    simp only [linesOk, Bool.and_eq_true, List.all_eq_true, decide_eq_true_eq] at hs
    exact linesOk_insertLines _ _ _ hs.2 h.pending
  signalled := rfl

theorem invInStep_dropLine (s : State) (i : Nat) (h : InvInStep s) : InvInStep (s.dropLine i) :=
  ⟨h.config, h.memory, h.inRam, linesOk_filter _ _ _ h.pending, h.signalled⟩

theorem carries_entryPushed (s : State) (i : Nat) : Carries (s.dropLine i) (entryPushed s i) :=
  carries_trans _ _ _ (carries_push32 ..) (carries_trans _ _ _ (carries_push32 ..) (carries_setFlag ..))

theorem invInStep_enterInterrupt (s : State) (i : Nat) (h : InvInStep s) : InvInStep (s.enterInterrupt i) := by
  cases hf : stackWriteFatal s.cfg (s.reg .SP - 8) 8 with
  | true =>
    rw [enterInterrupt_fatal s i hf]
    exact invInStep_of_carries _ _ h (carries_fatal ..)
  | false =>
    rw [enterInterrupt_ok s i hf]
    exact invInStep_of_carries _ _ (invInStep_dropLine s i h)
      (carries_trans _ _ _ (carries_entryPushed s i) (carries_trans _ _ _ (carries_memRead ..) (carries_jump ..)))

/-- An entry sets a fault mark only by a fatal condition, which stops the run (60_exceptions.md R305, R316). -/
theorem enterInterrupt_stopped (s : State) (i : Nat) (hs : s.fault = none) :
    (s.enterInterrupt i).fault ≠ none → (s.enterInterrupt i).running = .stopped := by
  cases hf : stackWriteFatal s.cfg (s.reg .SP - 8) 8 with
  | true => rw [enterInterrupt_fatal s i hf]; exact fun _ => fatal_running ..
  | false =>
    rw [enterInterrupt_ok s i hf]
    intro hne
    simp [entryPushed_fault, hs] at hne

/-! ### The invariant at the end of a step -/

theorem inv_fatal (s : State) (m : FaultMark) (h : InvInStep s) : Inv (s.fatal m) :=
  inv_of_invInStep _ (invInStep_of_carries _ _ h (carries_fatal s m)) (fatal_signalled s m) fun _ => fatal_running s m

theorem inv_mergeSignals (s : State) (h : InvInStep s) (hr : s.fault ≠ none → s.running = .stopped) :
    Inv s.mergeSignals :=
  inv_of_invInStep _ (invInStep_mergeSignals s h) (mergeSignals_signalled s) hr

theorem inv_interruptCheck (s : State) (h : InvInStep s) (hf : s.fault = none) : Inv s.interruptCheck := by
  rcases interruptCheck_cases s with ⟨-, e⟩ | ⟨i, -, -, e⟩
  · rw [e]
    exact inv_mergeSignals s h fun hne => absurd hf hne
  · rw [e]
    exact inv_mergeSignals _ (invInStep_enterInterrupt _ i (invInStep_mergeSignals s h))
      (enterInterrupt_stopped _ i hf)

/-- The end of an instruction keeps the invariant, whether it raised a fatal condition or not (40_cycle.md R120). -/
theorem inv_finishStep_of_runs (i : Instr) (s t : State) (h : InvInStep s) (hf : s.fault = none) (hr : Runs i s t) :
    Inv t.finishStep := by
  rcases runs_controlSame_or_fatal i s t hr with ⟨-, -, hft, -⟩ | ⟨m, rfl⟩
  · have hnone : t.fault = none := hft.trans hf
    rw [finishStep_none t hnone]
    exact inv_interruptCheck t (invInStep_of_carries s t h (runs_carries i s t hr)) hnone
  · rw [finishStep_some _ m (fatal_fault s m)]
    exact inv_fatal s m h

/-- A step that answers a next state was enabled; it read its instruction, and then raised a fatal condition or ran the
instruction to its end (40_cycle.md R120). -/
theorem step_next_cases (s t : State) (h : step s = .next t) :
    s.fault = none ∧ ∃ s1, sameButDevices s s1 ∧ Carries s s1 ∧
      ((∃ m, t = s1.fatal m) ∨ ∃ i u, Runs i s1 u ∧ t = u.finishStep) := by
  rcases step_cases s with ⟨m, -, e⟩ | ⟨m, s1, hf, hd, e⟩ | ⟨i, s1, hf, hd, e⟩
  · rw [e] at h; contradiction
  · obtain ⟨hsame, hcarries⟩ := fetchDecode_fatal s s1 m hd
    rw [e] at h
    injection h with h
    exact ⟨hf, s1, hsame, hcarries, .inl ⟨m, h.symm⟩⟩
  · obtain ⟨hsame, hcarries⟩ := fetchDecode_instr s s1 i hd
    obtain ⟨u, hu, hr⟩ := exec_runs i s1
    rw [e, hu] at h
    injection h with h
    exact ⟨hf, s1, hsame, hcarries, .inr ⟨i, u, hr, h.symm⟩⟩

/-- Settles O24: the bus and the instruction carry over `InvInStep`, and the end of the step restores the rest. -/
theorem stepKeepsTheInvariant : Obligations.StepKeepsTheInvariant := by
  unfold Obligations.StepKeepsTheInvariant
  intro s t hs h
  obtain ⟨hf, s1, hsame, hcarries, hend⟩ := step_next_cases s t h
  have h1 : InvInStep s1 := invInStep_of_carries s s1 (invInStep_of_inv s hs) hcarries
  obtain ⟨-, -, -, -, hfault, -⟩ := hsame
  rcases hend with ⟨m, rfl⟩ | ⟨i, u, hr, rfl⟩
  · exact inv_fatal s1 m h1
  · exact inv_finishStep_of_runs i s1 u h1 (hfault.trans hf) hr

/-! ### The halted core and the reset state -/

/-- Settles O8: `step` asks for the fault mark first. -/
theorem haltedCoreReturnsItsMark : Obligations.HaltedCoreReturnsItsMark := by
  unfold Obligations.HaltedCoreReturnsItsMark
  intro s m h
  unfold step
  rw [h]

theorem regs_zero_get (r : Reg) : Regs.zero.get r = 0 := by cases r <;> rfl

/-- Settles O18: every register holds 0, FL among them, and a RAM that lists no byte reads 0x00. -/
theorem resetState : Obligations.ResetState := by
  unfold Obligations.ResetState
  refine ⟨regs_zero_get, fun f => ?_, rfl, rfl, rfl, fun a ha => ?_⟩
  · cases f <;> rfl
  · rw [readByte_ram _ _ ha]
    rfl

theorem exampleConfig_wf : exampleConfig.wf := by decide +kernel

/-- Settles O25: nothing is listed or pending after reset, and the example configuration is well-formed. -/
theorem resetMeetsTheInvariant : Obligations.ResetMeetsTheInvariant where
  config := exampleConfig_wf
  memory := memory_wf_reset
  inRam := rfl
  pending := rfl
  signalled := rfl
  merged := rfl
  stopped := fun h => absurd rfl h

end Sys2Proof.Machine

/-! The family 20_memory.md: the windows and the routing, the byte accesses, the composed accesses, the CPU register
window, the writes that `CheckWrites` turns away, and the configuration, which nothing changes. -/

namespace Sys2Proof.Machine

/-! ### Windows that share an address -/

/-- Two windows at different places that share an address are a configuration error (20_memory.md R52). -/
theorem not_wf_of_shared_address (c : Config) (j k : Nat) (u w : Window) (a : Word) (hjk : j ≠ k)
    (hj : c.windows[j]? = some u) (hk : c.windows[k]? = some w) (hu : inWindow u a = true) (hw : inWindow w a = true) :
    ¬ c.wf := by
  intro h
  obtain ⟨-, -, hdisjoint, -⟩ := (config_wf_iff c).mp h
  exact disjoint_no_shared u w (pairwise_get _ disjoint_symm _ hdisjoint j k u w hjk hj hk) a ⟨hu, hw⟩

/-- In a well-formed configuration an address lies in one window at most (20_memory.md R52). -/
theorem window_unique (c : Config) (h : c.wf) (j k : Nat) (u w : Window) (a : Word) (hj : c.windows[j]? = some u)
    (hk : c.windows[k]? = some w) (hu : inWindow u a = true) (hw : inWindow w a = true) : j = k :=
  Decidable.byContradiction fun hjk => not_wf_of_shared_address c j k u w a hjk hj hk hu hw h

theorem create_of_not_wf (c : Config) (h : ¬ c.wf) : State.create c = none := by
  unfold State.create
  cases he : c.errors with
  | nil => exact absurd he h
  | cons e es => rfl

theorem attach_of_not_wf (c : Config) (d : Device) (h : ¬ Config.wf { c with devices := c.devices ++ [d] }) :
    ∃ e, c.attach d = .error e := by
  unfold Config.attach
  dsimp only
  cases he : Config.errors { c with devices := c.devices ++ [d] } with
  | nil => exact absurd he h
  | cons e es => exact ⟨e, rfl⟩

/-- A device attached last has the last window (20_memory.md R51). -/
theorem windows_attached (c : Config) (d : Device) :
    ({ c with devices := c.devices ++ [d] } : Config).windows = c.windows ++ [d.window] := by
  simp [Config.windows, Config.ramWindow, Config.cpuWindow]

/-- Settles O23: two windows that share an address fail the check on the windows, at `attach` and at `create`. -/
theorem overlappingWindowsAreRefused : Obligations.OverlappingWindowsAreRefused := by
  unfold Obligations.OverlappingWindowsAreRefused
  constructor
  · intro c d w a hw hwa hda
    obtain ⟨j, hj, hget⟩ := List.mem_iff_getElem.mp hw
    refine attach_of_not_wf c d (not_wf_of_shared_address _ j c.windows.length w d.window a (by omega) ?_ ?_ hwa hda)
    · rw [windows_attached, List.getElem?_append_left hj, List.getElem?_eq_getElem hj, hget]
    · rw [windows_attached, List.getElem?_concat_length]
  · intro c j k u w a hjk hj hk hu hw
    exact create_of_not_wf c (not_wf_of_shared_address c j k u w a hjk hj hk hu hw)

/-! ### Routing -/

/-- The first device whose window holds the address owns it (20_memory.md R53). -/
theorem routeDevices_of_get (a : Word) (ds : List Device) (n k : Nat) (d : Device) (hk : ds[k]? = some d)
    (hd : inWindow d.window a = true)
    (hfirst : ∀ j e, j < k → ds[j]? = some e → inWindow e.window a = false) :
    routeDevices a n ds = .device (n + k) (a.toNat - d.base.toNat) := by
  induction ds generalizing n k with
  | nil => simp at hk
  | cons e ds ih =>
    cases k with
    | zero =>
      obtain rfl : e = d := by simpa using hk
      simp [routeDevices, hd]
    | succ k =>
      have he : inWindow e.window a = false := hfirst 0 e (by omega) rfl
      have htail := ih (n + 1) k (by simpa using hk) fun j e' hj hget =>
        hfirst (j + 1) e' (by omega) (by simpa using hget)
      simp only [routeDevices, he, Bool.false_eq_true, if_false, htail, Target.device.injEq, and_true]
      omega

theorem routeDevices_none (a : Word) (ds : List Device) (n : Nat) (h : ∀ d ∈ ds, inWindow d.window a = false) :
    routeDevices a n ds = .unmapped := by
  induction ds generalizing n with
  | nil => rfl
  | cons d ds ih =>
    simp only [routeDevices, h d List.mem_cons_self, Bool.false_eq_true, if_false]
    exact ih (n + 1) fun e he => h e (List.mem_cons_of_mem d he)

theorem windows_device (c : Config) (k : Nat) (d : Device) (h : c.devices[k]? = some d) :
    c.windows[k + 2]? = some d.window := by
  simp [Config.windows, h]

/-- An address of the CPU window goes to the CPU, the windows being disjoint (20_memory.md R52, R59). -/
theorem route_cpuWindow (c : Config) (a : Word) (hc : c.wf) (h : inWindow c.cpuWindow a = true) :
    route c a = .cpu (a.toNat - c.cpuBase.toNat) := by
  have hram : inWindow c.ramWindow a ≠ true := fun hr =>
    absurd (window_unique c hc 0 1 _ _ a rfl rfl hr h) (by decide)
  rw [route, if_neg hram, if_pos h]

theorem route_deviceWindow (c : Config) (a : Word) (k : Nat) (d : Device) (hc : c.wf) (hk : c.devices[k]? = some d)
    (h : inWindow d.window a = true) : route c a = .device k (a.toNat - d.base.toNat) := by
  have only : ∀ j w, c.windows[j]? = some w → inWindow w a = true → j = k + 2 := fun j w hj hw =>
    window_unique c hc j (k + 2) w d.window a hj (windows_device c k d hk) hw h
  have hram : inWindow c.ramWindow a ≠ true := fun hr => absurd (only 0 _ rfl hr) (by omega)
  have hcpu : inWindow c.cpuWindow a ≠ true := fun hr => absurd (only 1 _ rfl hr) (by omega)
  have hfirst : ∀ j e, j < k → c.devices[j]? = some e → inWindow e.window a = false := fun j e hj he =>
    Bool.eq_false_iff.mpr fun hw => absurd (only (j + 2) _ (windows_device c j e he) hw) (by omega)
  rw [route, if_neg hram, if_neg hcpu, routeDevices_of_get a c.devices 0 k d hk h hfirst, Nat.zero_add]

theorem route_noWindow (c : Config) (a : Word) (h : ∀ w ∈ c.windows, inWindow w a = false) :
    route c a = .unmapped := by
  have hram : inWindow c.ramWindow a = false := h _ (by simp [Config.windows])
  have hcpu : inWindow c.cpuWindow a = false := h _ (by simp [Config.windows])
  have hdev : ∀ d ∈ c.devices, inWindow d.window a = false := fun d hd =>
    h _ (by simp only [Config.windows, List.mem_cons, List.mem_map]; exact .inr (.inr ⟨d, hd, rfl⟩))
  simp only [route, hram, hcpu, Bool.false_eq_true, if_false]
  exact routeDevices_none a c.devices 0 hdev

/-- Settles O29: the windows are asked in turn, and an address lies in one at most. -/
theorem routingFollowsTheWindows : Obligations.RoutingFollowsTheWindows := by
  unfold Obligations.RoutingFollowsTheWindows
  intro c a hc
  exact ⟨fun h => if_pos h, route_cpuWindow c a hc, fun k d hk hd => route_deviceWindow c a k d hc hk hd,
    route_noWindow c a⟩

/-! ### Byte accesses -/

theorem isDeviceByte_ram (c : Config) (a : Word) (h : route c a = .ram) : isDeviceByte c a = false :=
  not_device_of_memory c a (.inl h)

/-- Settles O30, by the read after a write on the bus. -/
theorem ramReadAfterWrite : Obligations.RamReadAfterWrite := by
  unfold Obligations.RamReadAfterWrite
  intro s a x b hram
  constructor
  · rw [readByte_busSet s a a b (isDeviceByte_ram _ a hram), if_pos ⟨rfl, by simp [hram]⟩]
  · intro hx hne
    rw [readByte_busSet s a x b hx, if_neg fun h => hne h.1]

/-- Settles O31: no owner answers, and none is written. -/
theorem unmappedAccesses : Obligations.UnmappedAccesses := by
  unfold Obligations.UnmappedAccesses
  intro s a b h
  constructor
  · rw [busGet, h]
  · rw [busSet, h]

theorem busGet_device (s : State) (a : Word) (k o : Nat) (h : route s.cfg a = .device k o) :
    (busGet a s).2 = s.deviceAccess k (.read k o) := by rw [busGet, h]

theorem busSet_device (s : State) (a : Word) (b : Byte) (k o : Nat) (h : route s.cfg a = .device k o) :
    busSet a b s = s.deviceAccess k (.write k o b) := by rw [busSet, h]

theorem controlSame_deviceAccess (s : State) (k : Nat) (e : DeviceEvent) : controlSame s (s.deviceAccess k e) :=
  ⟨rfl, rfl, rfl, rfl⟩

/-- The lines signalled after a device access: those of before, and at most the device's own (60_exceptions.md R310). -/
theorem mem_deviceAccess_signalled (s : State) (k : Nat) (e : DeviceEvent) (j : Nat) :
    (j ∈ s.signalled → j ∈ (s.deviceAccess k e).signalled) ∧
    (j ∈ (s.deviceAccess k e).signalled → j ∈ s.signalled ∨ lineOf s.cfg k = some j) := by
  rcases deviceAccess_signalled s k e with hsame | ⟨i, hline, hnew⟩
  · rw [hsame]
    exact ⟨id, .inl⟩
  · rw [hnew, mem_insertLine]
    refine ⟨.inr, fun h => ?_⟩
    rcases h with rfl | h
    · exact .inr hline
    · exact .inl h

/-- Settles O35: either access is the record of one event, and the device may signal its own line. -/
theorem deviceAccessesAreRecorded : Obligations.DeviceAccessesAreRecorded := by
  unfold Obligations.DeviceAccessesAreRecorded
  intro s a b k o h
  rw [busGet_device s a k o h, busSet_device s a b k o h]
  have lines := fun e j => mem_deviceAccess_signalled s k e j
  exact ⟨rfl, rfl, rfl, rfl, rfl, rfl, controlSame_deviceAccess .., controlSame_deviceAccess ..,
    fun j hj => ⟨(lines _ j).1 hj, (lines _ j).1 hj⟩, fun j => (lines _ j).2, fun j => (lines _ j).2⟩

/-! ### Composed accesses -/

/-- The number whose digits in base 256 are these bytes, least significant first. -/
def bytesValue : List Byte → Nat
  | [] => 0
  | b :: bs => b.toNat + 256 * bytesValue bs

theorem bytesValue_nil : bytesValue [] = 0 := rfl
theorem bytesValue_cons (b : Byte) (bs : List Byte) : bytesValue (b :: bs) = b.toNat + 256 * bytesValue bs := rfl

/-- `MemRead` composes its bytes as digits in base 256 (20_memory.md R55). -/
theorem littleEndian_eq_bytesValue (bs : List Byte) : littleEndian bs = BitVec.ofNat 32 (bytesValue bs) := by
  induction bs with
  | nil => rfl
  | cons b bs ih =>
    have hdisjoint : b.setWidth 32 &&& littleEndian bs <<< 8 = 0 := by
      apply BitVec.eq_of_getLsbD_eq
      intro i hi
      by_cases h8 : i < 8
      · simp [h8]
      · simp [BitVec.getLsbD_of_ge b i (by omega)]
    rw [littleEndian_cons, ← BitVec.add_eq_or_of_and_eq_zero _ _ hdisjoint, ih, bytesValue_cons]
    apply BitVec.eq_of_toNat_eq
    simp [Nat.shiftLeft_eq]
    omega

/-- Outside the device windows, `MemRead` gives the number whose digits are the bytes as they stand (20_memory.md
R55). -/
theorem memRead_eq_bytesValue (a : Word) (n : Nat) (s : State) (h : noDevice s.cfg a n) :
    memRead a n s = (BitVec.ofNat 32 (bytesValue (bytesAt s a n)), s) := by
  rw [memRead_noDevice a n s h, littleEndian_eq_bytesValue]

theorem bytesAt_zero (s : State) (a : Word) : bytesAt s a 0 = [] := rfl

theorem bytesValue_one (s : State) (a : Word) : bytesValue (bytesAt s a 1) = (readByte s a).toNat := by
  rw [bytesAt_succ, bytesAt_zero, bytesValue_cons, bytesValue_nil, Nat.mul_zero, Nat.add_zero]

theorem bytesValue_two (s : State) (a : Word) :
    bytesValue (bytesAt s a 2) = (readByte s a).toNat + (readByte s (a + 1)).toNat * 2 ^ 8 := by
  rw [bytesAt_succ, bytesValue_cons, bytesValue_one]
  omega

theorem bytesValue_four (s : State) (a : Word) :
    bytesValue (bytesAt s a 4) = (readByte s a).toNat + (readByte s (a + 1)).toNat * 2 ^ 8 +
      (readByte s (a + 2)).toNat * 2 ^ 16 + (readByte s (a + 3)).toNat * 2 ^ 24 := by
  have h2 : a + 1 + 1 = a + 2 := BitVec.add_assoc a 1 1
  have h3 : a + 2 + 1 = a + 3 := BitVec.add_assoc a 2 1
  rw [bytesAt_succ, bytesAt_succ, bytesValue_cons, bytesValue_cons, bytesValue_two, h2, h3]
  omega

/-- Settles O32: the bytes read are the digits of the value, one byte after the other. -/
theorem memReadIsLittleEndian : Obligations.MemReadIsLittleEndian := by
  unfold Obligations.MemReadIsLittleEndian
  intro s a
  refine ⟨fun h => ?_, fun h => ?_, fun h => ?_⟩
  · rw [memRead_eq_bytesValue a 1 s h, bytesValue_one]
  · rw [memRead_eq_bytesValue a 2 s h, bytesValue_two]
  · rw [memRead_eq_bytesValue a 4 s h, bytesValue_four]

/-- The low `n` bytes of a word are the digits of its value modulo `2 ^ (8 * n)` (20_memory.md R56). -/
theorem bytesValue_lowBytes (n : Nat) (v : Word) : bytesValue (lowBytes n v) = v.toNat % 2 ^ (8 * n) := by
  induction n generalizing v with
  | zero => rw [lowBytes, bytesValue_nil, Nat.mul_zero, Nat.pow_zero, Nat.mod_one]
  | succ n ih =>
    rw [lowBytes, bytesValue_cons, ih, Nat.mul_succ, Nat.pow_add, Nat.mul_comm (2 ^ (8 * n)), Nat.mod_mul,
      BitVec.toNat_setWidth, BitVec.toNat_ushiftRight, Nat.shiftRight_eq_div_pow]

theorem noDevice_of_allRam (c : Config) (a : Word) (n : Nat) (h : allRam c a n) : noDevice c a n :=
  (rangeTouches_false _ _ _).mpr fun k hk => isDeviceByte_ram c _ (h k hk)

/-- In the RAM the bytes that `MemWrite` wrote are there (20_memory.md R56, R58). -/
theorem bytesAt_memWrite (s : State) (a v : Word) (n : Nat) (hn : n ≤ 2 ^ 32) (h : allRam s.cfg a n) :
    bytesAt (memWrite a n v s) a n = lowBytes n v := by
  refine List.ext_getElem (by rw [bytesAt_length, lowBytes_length]) fun k hk hk' => ?_
  have hkn : k < n := by rwa [bytesAt_length] at hk
  rw [lowBytes_get, ← readByte_memWrite_inside a n v s k hkn hn (isDeviceByte_ram _ _ (h k hkn)) (by simp [h k hkn])]
  simp [bytesAt]

/-- Settles O33: what is read back are the bytes written, whose value is the written one's modulo `2 ^ (8 * n)`. -/
theorem memWriteThenMemRead : Obligations.MemWriteThenMemRead := by
  unfold Obligations.MemWriteThenMemRead
  intro s a v n hn hram
  have hn4 : n ≤ 4 := by omega
  constructor
  · have hnd : noDevice (memWrite a n v s).cfg a n := by
      rw [memWrite_cfg]; exact noDevice_of_allRam _ _ _ hram
    have hlt : v.toNat % 2 ^ (8 * n) < 2 ^ 32 := Nat.lt_of_le_of_lt (Nat.mod_le _ _) v.isLt
    rw [memRead_eq_bytesValue a n _ hnd, bytesAt_memWrite s a v n (by omega) hram, bytesValue_lowBytes,
      BitVec.toNat_ofNat, Nat.mod_eq_of_lt hlt]
  · exact fun x hx ho => readByte_memWrite_outside a x n v s (not_device_of_memory _ _ hx) ho

/-! ### The CPU register window -/

/-- Byte `k` of register `r` is at `CPU_BASE + 4 * index + k` (20_memory.md R59). -/
theorem route_registerByte (c : Config) (hc : c.wf) (r : Reg) (k : Nat) (hk : k < 4) :
    route c (c.cpuBase + BitVec.ofNat 32 (4 * r.number + k)) = .cpu (4 * r.number + k) := by
  have hr := number_lt r
  have hfits : c.cpuBase.toNat + 64 ≤ 2 ^ 32 := by
    obtain ⟨-, hfits, -⟩ := (config_wf_iff c).mp hc
    exact hfits c.cpuWindow (by simp [Config.windows])
  have ha : (c.cpuBase + BitVec.ofNat 32 (4 * r.number + k)).toNat = c.cpuBase.toNat + (4 * r.number + k) := by
    rw [BitVec.toNat_add, BitVec.toNat_ofNat]; omega
  have hin : inWindow c.cpuWindow (c.cpuBase + BitVec.ofNat 32 (4 * r.number + k)) = true := by
    simp only [inWindow_iff, Config.cpuWindow, ha]; omega
  rw [route_cpuWindow c _ hc hin, ha, Nat.add_sub_cancel_left]

theorem cpuSet_registerByte (s : State) (r : Reg) (k : Nat) (b : Byte) (hk : k < 4) :
    s.cpuSet (4 * r.number + k) b = s.setReg r (replaceByte (s.reg r) k b) := by
  unfold State.cpuSet
  rw [show (4 * r.number + k) / 4 = r.number by omega, show (4 * r.number + k) % 4 = k by omega, ofNumber_number]

/-- A host's write of one byte (20_memory.md R54; 60_exceptions.md R323). -/
theorem hostOperation_set (a : Word) (b : Byte) (s : State) :
    hostOperation (.set a b) s = (.done, (busSet a b s).mergeSignals) := rfl

/-- Settles O34: the host's write goes to the register the address shows, and replaces one byte of it. -/
theorem cpuWindowShowsTheRegisters : Obligations.CpuWindowShowsTheRegisters := by
  unfold Obligations.CpuWindowShowsTheRegisters
  intro s r k b hc hk
  have hroute := route_registerByte s.cfg hc r k hk
  have hset : busSet (s.cfg.cpuBase + BitVec.ofNat 32 (4 * r.number + k)) b s =
      s.setReg r (replaceByte (s.reg r) k b) := by
    rw [busSet, hroute]; exact cpuSet_registerByte s r k b hk
  refine ⟨_, _, rfl, hostOperation_set _ b s, ?_, fun j _ => ?_, fun q hq => ?_, ?_, ?_⟩
  · rw [readByte_cpu s _ _ hroute, cpuGet_eq s r k hk]
  · rw [hset, mergeSignals_reg, reg_setReg, if_pos rfl, byteOf_replaceByte _ j k b hk]
  · rw [hset, mergeSignals_reg, reg_setReg, if_neg (by simpa using hq)]
  · rw [hset]; exact memorySame_of_mem _ _ rfl rfl
  · rw [hset]; rfl

/-! ### Writes that CheckWrites turns away -/

theorem storeIsFatal_of_exec (i : Instr) (s : State) (len w : Nat) (ea : Word) (src : Operand)
    (h : exec i s = .next (moveToMem len w ea src s)) : storeIsFatal i s w ea := fun hf =>
  ⟨_, h, by rw [moveToMem_fatal len w ea src s hf]; exact fatal_spec ..⟩

/-- Settles O42: every storing form is `moveToMem`, which begins with `CheckWrites`. -/
theorem storeOntoPcOrFlSlotIsFatal : Obligations.StoreOntoPcOrFlSlotIsFatal := by
  unfold Obligations.StoreOntoPcOrFlSlotIsFatal
  intro s d r p q b h w
  and_intros
  all_goals exact storeIsFatal_of_exec _ _ _ _ _ _ rfl

/-- Settles O55: `push` and `call` begin with `CheckWrites`. -/
theorem pushAndCallOntoCpuWindow : Obligations.PushAndCallOntoCpuWindow := by
  unfold Obligations.PushAndCallOntoCpuWindow
  intro s d v i hi hf
  have pushes : ∀ len src, raisesOnly s (pushValue len src s) (.cpuWindowWrite (s.reg .PC) (s.reg .SP - 4)) :=
    fun len src => by rw [pushValue_fatal len src s hf]; exact fatal_spec ..
  have calls : ∀ len src, raisesOnly s (callTo len src s) (.cpuWindowWrite (s.reg .PC) (s.reg .SP - 4)) :=
    fun len src => by rw [callTo_fatal len src s hf]; exact fatal_spec ..
  rcases hi with rfl | rfl | rfl | rfl
  · exact ⟨_, rfl, pushes ..⟩
  · exact ⟨_, rfl, pushes ..⟩
  · exact ⟨_, rfl, calls ..⟩
  · exact ⟨_, rfl, calls ..⟩

/-! ### The configuration -/

theorem enterInterrupt_cfg (s : State) (i : Nat) : (s.enterInterrupt i).cfg = s.cfg := by
  cases hf : stackWriteFatal s.cfg (s.reg .SP - 8) 8 with
  | true => rw [enterInterrupt_fatal s i hf, fatal_cfg]
  | false => rw [enterInterrupt_ok s i hf, jump_cfg, memRead_cfg, entryPushed_cfg]

theorem finishStep_cfg (s : State) : s.finishStep.cfg = s.cfg := by
  cases hf : s.fault with
  | some m => rw [finishStep_some s m hf]
  | none =>
    rw [finishStep_none s hf]
    rcases interruptCheck_cases s with ⟨-, e⟩ | ⟨i, -, -, e⟩
    · rw [e, mergeSignals_cfg]
    · rw [e, mergeSignals_cfg, enterInterrupt_cfg, mergeSignals_cfg]

theorem step_cfg (s t : State) (h : step s = .next t) : t.cfg = s.cfg := by
  obtain ⟨-, s1, -, hcarries, hend⟩ := step_next_cases s t h
  rcases hend with ⟨m, rfl⟩ | ⟨i, u, hr, rfl⟩
  · rw [fatal_cfg, hcarries.cfg]
  · rw [finishStep_cfg, (runs_carries i s1 u hr).cfg, hcarries.cfg]

theorem runFor_cfg (n : Nat) (s : State) : (runFor n s).cfg = s.cfg := by
  induction n generalizing s with
  | zero => unfold runFor; split <;> rfl
  | succ n ih =>
    unfold runFor
    split
    · split
      next t h => rw [ih, step_cfg s t h]
      next => rfl
    · rfl

theorem hostStep_cfg (s : State) : s.hostStep.2.cfg = s.cfg := by
  unfold State.hostStep
  split
  next t h => exact step_cfg s t h
  next => rfl
  next => rfl

theorem hostRun_cfg (s : State) (n : Nat) : (s.hostRun n).2.cfg = s.cfg := by
  unfold State.hostRun
  split
  next => rfl
  next => exact runFor_cfg n _

theorem decodeAt_cfg (a : Word) (s : State) : (decodeAt a s).2.cfg = s.cfg := by
  simp only [decodeAt, decodeAtWith]
  split
  · exact busGet_cfg a s
  · split <;> simp

theorem hostGetArray_cfg (s : State) (a : Word) (n : Nat) : (s.hostGetArray a n).2.cfg = s.cfg := busGetArray_cfg n a s

theorem hostSetArray_cfg (s : State) (a : Word) (bs : List Byte) : (s.hostSetArray a bs).cfg = s.cfg :=
  busSetArray_cfg bs a s

theorem hostRaise_cfg (s : State) (i : Nat) : (s.hostRaise i).2.cfg = s.cfg := by
  unfold State.hostRaise; split <;> rfl

theorem hostOperation_cfg (c : HostCommand) (s : State) : (hostOperation c s).2.cfg = s.cfg := by
  cases c with
  | reset | stop | registersSnapshot | encode | attach => rfl
  | step => exact hostStep_cfg s
  | run n => exact hostRun_cfg s n
  | disassembleAt a => exact decodeAt_cfg a s
  | get a => exact hostGetArray_cfg s a 1
  | set a b => exact hostSetArray_cfg s a [b]
  | getArray a n => exact hostGetArray_cfg s a n
  | setArray a bs => exact hostSetArray_cfg s a bs
  | raiseLine i => exact hostRaise_cfg s i

/-- Settles O27: each part of a step keeps the configuration, and so does each host operation. -/
theorem configurationIsFixed : Obligations.ConfigurationIsFixed := ⟨step_cfg, hostOperation_cfg⟩

end Sys2Proof.Machine

/-! The family 30_encoding.md: the codec on bytes, the unassigned opcodes and the bad register bytes; the
disassembler; and the assembler on the canonical text. -/

namespace Sys2Proof

/-! ### Rows and instructions -/

/-- The mnemonic and the operands of an instruction give it back (30_encoding.md R86). -/
theorem ofParts_of_parts (i : Instr) : Instr.ofParts i.parts.1 i.operands = some i := by
  cases i <;> rfl

theorem row_known (i : Instr) : i.row.known = true := by
  cases i <;> rfl

theorem row_eq (r r' : Row) (hm : r.mnemonic = r'.mnemonic) (hk : r.kinds = r'.kinds) : r = r' := by
  cases r
  cases r'
  exact Row.mk.injEq .. ▸ ⟨hm, hk⟩

theorem row_eq_of_parts (i : Instr) (n : Mnemonic) (os : List Operand) (h : i.parts = (n, os)) :
    i.row = ⟨n, os.map Operand.kind⟩ := by
  simp only [Instr.row, Instr.operands, h]

/-- The operands of an instruction take the bytes that its row says (30_encoding.md R80). -/
theorem row_length_sub_one (r : Row) : r.length - 1 = (r.kinds.map OperandKind.size).sum :=
  Nat.add_sub_cancel_left ..

theorem length_operand_bytes (i : Instr) : (i.operands.flatMap Operand.bytes).length = i.row.length - 1 := by
  rw [operands_bytes_length, row_length_sub_one]; rfl

theorem row_length_pos (r : Row) : 1 ≤ r.length := Nat.le_add_right ..

/-- The opcode byte and the operands' bytes make the length of the instruction (30_encoding.md R80). -/
theorem length_encoded (i : Instr) (op : Byte) : (op :: i.operands.flatMap Operand.bytes).length = i.length := by
  rw [List.length_cons, length_operand_bytes, Nat.sub_add_cancel (row_length_pos i.row), Instr.length]

/-- No row of 30_encoding.md R86 has more than two operands (R89). -/
theorem shapes_length_le_two (n : Mnemonic) : ∀ ks ∈ n.shapes, ks.length ≤ 2 := by
  cases n <;> decide

theorem mem_shapes_of_known (r : Row) (h : r.known = true) : r.kinds ∈ r.mnemonic.shapes :=
  List.contains_iff_mem.mp h

/-- Operands of the kinds of a known row make an instruction (30_encoding.md R86). -/
theorem ofParts_isSome_of_known (n : Mnemonic) (os : List Operand)
    (h : Row.known ⟨n, os.map Operand.kind⟩ = true) : (Instr.ofParts n os).isSome = true := by
  have hlen : os.length ≤ 2 := by simpa using shapes_length_le_two n _ (mem_shapes_of_known _ h)
  match os, hlen with
  | [], _ => rw [← h]; cases n <;> rfl
  | [a], _ => rw [← h]; cases n <;> cases a <;> rfl
  | [a, b], _ => rw [← h]; cases n <;> cases a <;> cases b <;> rfl

/-! ### The encoder and the decoder -/

theorem encodeWith_eq_some_iff (m : OpcodeMap) (i : Instr) (bs : List Byte) :
    encodeWith m i = some bs ↔ ∃ op, m.opcodeOf i.row = some op ∧ op :: i.operands.flatMap Operand.bytes = bs :=
  Option.map_eq_some_iff

theorem decode_unassigned (m : OpcodeMap) (op : Byte) (bs : List Byte) (h : m.lookup op = none) :
    decode m (op :: bs) = .invalidOpcode op := by
  simp only [decode, h]

theorem decode_short (m : OpcodeMap) (op : Byte) (r : Row) (bs : List Byte) (hr : m.lookup op = some r)
    (hlen : bs.length < r.length - 1) : decode m (op :: bs) = .tooShort := by
  simp only [decode, hr, if_pos hlen]

/-- With an assigned opcode and all the trailing bytes there, the row decides (30_encoding.md R88). -/
theorem decode_cons (m : OpcodeMap) (op : Byte) (r : Row) (bs : List Byte) (hr : m.lookup op = some r)
    (hlen : r.length - 1 ≤ bs.length) : decode m (op :: bs) = decodeRow op r bs := by
  simp only [decode, hr, if_neg (Nat.not_lt.mpr hlen)]

theorem decodeRow_bytes (op : Byte) (i : Instr) (rest : List Byte) :
    decodeRow op i.row (i.operands.flatMap Operand.bytes ++ rest) = .ok i rest := by
  have hops := decodeOperands_bytes i.operands []
  rw [List.append_nil] at hops
  rw [decodeRow, List.take_left' (length_operand_bytes i), List.drop_left' (length_operand_bytes i),
    show i.row.kinds = i.operands.map Operand.kind from rfl, hops]
  simp only [show i.row.mnemonic = i.parts.1 from rfl, ofParts_of_parts]

/-- Only the operands' bytes make a row's instruction (30_encoding.md R82, R88). -/
theorem decodeRow_eq_ok (op : Byte) (r : Row) (bs rest : List Byte) (i : Instr) (hlen : r.length - 1 ≤ bs.length)
    (h : decodeRow op r bs = .ok i rest) : i.row = r ∧ bs = i.operands.flatMap Operand.bytes ++ rest := by
  unfold decodeRow at h
  split at h
  · contradiction
  · contradiction
  next os left hos =>
    split at h
    next j hj =>
      injection h with hij hrest
      subst hij hrest
      obtain ⟨hkinds, htake⟩ := decodeOperands_inv _ _ _ _ hos
      have hparts := ofParts_parts _ _ _ hj
      have hrow : j.row = r := by rw [row_eq_of_parts j _ _ hparts, hkinds]
      have hops : j.operands = os := congrArg Prod.snd hparts
      have hleft : left = [] := by
        have := congrArg List.length htake
        rw [List.length_take, Nat.min_eq_left hlen, List.length_append, ← hops, length_operand_bytes, hrow] at this
        exact List.eq_nil_of_length_eq_zero (by omega)
      rw [hleft, List.append_nil] at htake
      exact ⟨hrow, by rw [hops, ← htake, List.take_append_drop]⟩
    · contradiction

/-- Settles O3: the map gives the opcode its row back, and the row its operands. -/
theorem decodeInvertsEncode : Obligations.DecodeInvertsEncode := by
  unfold Obligations.DecodeInvertsEncode
  intro m i rest hm hi
  obtain ⟨op, hop⟩ := Option.isSome_iff_exists.mp hi
  refine ⟨_, (encodeWith_eq_some_iff m i _).mpr ⟨op, hop, rfl⟩, length_encoded i op, ?_⟩
  rw [List.cons_append, decode_cons m op i.row _ ((opcodeOf_iff_lookup m hm op i.row).mp hop), decodeRow_bytes]
  rw [List.length_append, length_operand_bytes]
  exact Nat.le_add_right ..

/-- Settles O4: the opcode is the one the map gives the instruction's row, and the rest is the operands' bytes. -/
theorem encodeInvertsDecode : Obligations.EncodeInvertsDecode := by
  unfold Obligations.EncodeInvertsDecode
  intro m bs rest i hm h
  cases bs with
  | nil => contradiction
  | cons op bs =>
    cases hr : m.lookup op with
    | none => rw [decode_unassigned m op bs hr] at h; contradiction
    | some r =>
      rcases Nat.lt_or_ge bs.length (r.length - 1) with hlen | hlen
      · rw [decode_short m op r bs hr hlen] at h; contradiction
      · rw [decode_cons m op r bs hr hlen] at h
        obtain ⟨rfl, rfl⟩ := decodeRow_eq_ok op r bs rest i hlen h
        exact ⟨_, (encodeWith_eq_some_iff m i _).mpr ⟨op, (opcodeOf_iff_lookup m hm op _).mpr hr, rfl⟩, rfl⟩

/-! ### The default opcode map -/

theorem defaultOpcodeMap_wf : defaultOpcodeMap.wf := by decide +kernel

/-- The default map gives every row of 30_encoding.md R86 an opcode, and none is longer than 9 bytes (R80). -/
theorem defaultOpcodeMap_of_shapes (n : Mnemonic) :
    ∀ ks ∈ n.shapes, (defaultOpcodeMap.opcodeOf ⟨n, ks⟩).isSome = true ∧ Row.length ⟨n, ks⟩ ≤ 9 := by
  cases n <;> decide +kernel

theorem wf_defaultOpcodeMap (i : Instr) : Instr.wf defaultOpcodeMap i :=
  (defaultOpcodeMap_of_shapes _ _ (mem_shapes_of_known _ (row_known i))).1

theorem encode_eq (i : Instr) :
    ∃ op, defaultOpcodeMap.opcodeOf i.row = some op ∧ encode i = op :: i.operands.flatMap Operand.bytes := by
  obtain ⟨op, hop⟩ := Option.isSome_iff_exists.mp (wf_defaultOpcodeMap i)
  refine ⟨op, hop, ?_⟩
  rw [encode, (encodeWith_eq_some_iff defaultOpcodeMap i _).mpr ⟨op, hop, rfl⟩, Option.getD_some]

/-- Settles O2: the rows of the default map are those of the instructions. -/
theorem everyInstructionEncodes : Obligations.EveryInstructionEncodes := by
  unfold Obligations.EveryInstructionEncodes
  refine ⟨defaultOpcodeMap_wf, fun i => ⟨wf_defaultOpcodeMap i, ?_, row_length_pos _, ?_⟩⟩
  · obtain ⟨op, -, hbytes⟩ := encode_eq i
    rw [hbytes, length_encoded]
  · exact (defaultOpcodeMap_of_shapes _ _ (mem_shapes_of_known _ (row_known i))).2

/-- The opcode bytes the default map leaves unassigned (30_encoding.md R87). -/
theorem lookup_defaultOpcodeMap_eq_none_iff (op : Byte) :
    defaultOpcodeMap.lookup op = none ↔ op = 0x00 ∨ 0x6D ≤ op.toNat := by
  have key : ∀ n < 2 ^ 8, defaultOpcodeMap.lookup (BitVec.ofNat 8 n) = none ↔
      BitVec.ofNat 8 n = 0x00 ∨ 0x6D ≤ (BitVec.ofNat 8 n).toNat := by decide +kernel
  simpa using key op.toNat op.isLt

/-- A known row never answers that its opcode is invalid. -/
theorem decodeRow_ne_invalidOpcode (op op' : Byte) (r : Row) (bs : List Byte) (h : r.known = true) :
    decodeRow op r bs ≠ .invalidOpcode op' := by
  intro hd
  unfold decodeRow at hd
  split at hd
  · contradiction
  · contradiction
  next os left hos =>
    split at hd
    · contradiction
    next hnone =>
      obtain ⟨hkinds, -⟩ := decodeOperands_inv _ _ _ _ hos
      have hsome := ofParts_isSome_of_known r.mnemonic os (by rw [hkinds]; exact h)
      rw [hnone] at hsome
      contradiction

/-- In a well-formed map the opcodes answered to be invalid are the unassigned ones (30_encoding.md R87). -/
theorem decode_eq_invalidOpcode_iff (m : OpcodeMap) (hm : m.wf) (op : Byte) (bs : List Byte) :
    decode m (op :: bs) = .invalidOpcode op ↔ m.lookup op = none := by
  obtain ⟨-, -, -, hknown⟩ := (opcodeMap_wf_iff m).mp hm
  cases hr : m.lookup op with
  | none => simp only [decode_unassigned m op bs hr]
  | some r =>
    simp only [reduceCtorEq, iff_false]
    rcases Nat.lt_or_ge bs.length (r.length - 1) with hlen | hlen
    · rw [decode_short m op r bs hr hlen]; exact DecodeResult.noConfusion
    · rw [decode_cons m op r bs hr hlen]
      exact decodeRow_ne_invalidOpcode op op r bs (hknown _ (lookup_mem m op r hr))

/-- Settles O5. -/
theorem unassignedOpcodesAreRejected : Obligations.UnassignedOpcodesAreRejected := fun op bs =>
  (decode_eq_invalidOpcode_iff defaultOpcodeMap defaultOpcodeMap_wf op bs).trans
    (lookup_defaultOpcodeMap_eq_none_iff op)

/-! ### Bad register bytes -/

/-- The first byte that names no register (10_state.md R23; 30_encoding.md R82). -/
def firstBadRegister (bs : List Byte) : Option Byte := bs.find? (fun x => decide (15 < x.toNat))

theorem ofNumber_eq_none_iff (n : Nat) : Reg.ofNumber n = none ↔ 15 < n := by
  have named : ∀ n < 16, Reg.ofNumber n ≠ none := by decide
  refine ⟨fun h => Nat.lt_of_not_le fun hn => named n (by omega) h, fun h => ?_⟩
  cases hr : Reg.ofNumber n with
  | none => rfl
  | some r =>
    have := Machine.ofNumber_eq n r hr
    have := Machine.number_lt r
    omega

theorem registerBytes_cons (k : OperandKind) (ks : List OperandKind) (bs : List Byte) :
    registerBytes (k :: ks) bs = registerBytes [k] bs ++ registerBytes ks (bs.drop k.size) := by
  cases k <;> simp [registerBytes, OperandKind.size]

theorem decodeReg_cons (f : Reg → Operand) (b : Byte) (bs : List Byte) :
    (15 < b.toNat ∧ decodeReg f (b :: bs) = .badRegister b) ∨
    (¬ 15 < b.toNat ∧ ∃ o, decodeReg f (b :: bs) = .ok o bs) := by
  cases hr : Reg.ofNumber b.toNat with
  | none => exact .inl ⟨(ofNumber_eq_none_iff _).mp hr, by simp only [decodeReg, hr]⟩
  | some r =>
    refine .inr ⟨fun hlt => ?_, f r, by simp only [decodeReg, hr]⟩
    rw [(ofNumber_eq_none_iff _).mpr hlt] at hr
    contradiction

/-- Everything the decoder does with an operand whose bytes are all there (30_encoding.md R81, R82). -/
theorem decodeOperand_cases (k : OperandKind) (bs : List Byte) (h : k.size ≤ bs.length) :
    (∃ b, firstBadRegister (registerBytes [k] bs) = some b ∧ decodeOperand k bs = .badRegister b) ∨
    (firstBadRegister (registerBytes [k] bs) = none ∧ ∃ o, decodeOperand k bs = .ok o (bs.drop k.size)) := by
  have register : ∀ f : Reg → Operand, 1 ≤ bs.length →
      (∃ b, firstBadRegister (bs.take 1) = some b ∧ decodeReg f bs = .badRegister b) ∨
      (firstBadRegister (bs.take 1) = none ∧ ∃ o, decodeReg f bs = .ok o (bs.drop 1)) := fun f h1 => by
    match bs, h1 with
    | b :: bs, _ =>
      rcases decodeReg_cons f b bs with ⟨hb, hd⟩ | ⟨hb, hd⟩
      · exact .inl ⟨b, by simp [firstBadRegister, hb], hd⟩
      · exact .inr ⟨by simp [firstBadRegister, hb], hd⟩
  cases k with
  | reg => rw [registerBytes, registerBytes, List.append_nil]; exact register .reg h
  | ind => rw [registerBytes, registerBytes, List.append_nil]; exact register .ind h
  | imm8 => match bs, h with | b :: bs, _ => exact .inr ⟨rfl, _, rfl⟩
  | imm16 => match bs, h with | b0 :: b1 :: bs, _ => exact .inr ⟨rfl, _, rfl⟩
  | imm32 | abs => match bs, h with | b0 :: b1 :: b2 :: b3 :: bs, _ => exact .inr ⟨rfl, _, rfl⟩

/-- Operands are rejected for a register byte exactly when there is a bad one, and the first is reported (40_cycle.md
R122). -/
theorem decodeOperands_eq_badRegister_iff (ks : List OperandKind) (bs : List Byte) (b : Byte)
    (h : (ks.map OperandKind.size).sum ≤ bs.length) :
    decodeOperands ks bs = .badRegister b ↔ firstBadRegister (registerBytes ks bs) = some b := by
  induction ks generalizing bs with
  | nil => simp [decodeOperands, registerBytes, firstBadRegister]
  | cons k ks ih =>
    rw [List.map_cons, List.sum_cons] at h
    have ih := ih (bs.drop k.size) (by rw [List.length_drop]; omega)
    rw [registerBytes_cons, firstBadRegister, List.find?_append, ← firstBadRegister, ← firstBadRegister]
    rcases decodeOperand_cases k bs (by omega) with ⟨b', hb, hd⟩ | ⟨hb, o, hd⟩
    · simp [decodeOperands, hd, hb]
    · rw [hb, Option.none_or, ← ih]
      simp only [decodeOperands, hd]
      cases decodeOperands ks (bs.drop k.size) <;> simp

theorem registerBytes_append (ks : List OperandKind) (bs cs : List Byte)
    (h : (ks.map OperandKind.size).sum ≤ bs.length) : registerBytes ks (bs ++ cs) = registerBytes ks bs := by
  induction ks generalizing bs with
  | nil => rfl
  | cons k ks ih =>
    rw [List.map_cons, List.sum_cons] at h
    have hk : k.size ≤ bs.length := by omega
    have head : registerBytes [k] (bs ++ cs) = registerBytes [k] bs := by
      cases k with
      | reg | ind => exact congrArg (· ++ []) (List.take_append_of_le_length hk)
      | imm8 | imm16 | imm32 | abs => rfl
    rw [registerBytes_cons, registerBytes_cons k ks bs, head, List.drop_append_of_le_length hk,
      ih _ (by rw [List.length_drop]; omega)]

theorem decodeRow_eq_invalidRegister_iff (op op' b : Byte) (r : Row) (bs : List Byte) :
    decodeRow op r bs = .invalidRegister op' b ↔
      op' = op ∧ decodeOperands r.kinds (bs.take (r.length - 1)) = .badRegister b := by
  unfold decodeRow
  cases decodeOperands r.kinds (bs.take (r.length - 1)) with
  | badRegister b' => simp [eq_comm]
  | tooShort => simp
  | ok os left => cases h : Instr.ofParts r.mnemonic os <;> simp [h]

/-- Settles O6: the register bytes lie among the bytes that the row needs. -/
theorem firstBadRegisterByteIsReported : Obligations.FirstBadRegisterByteIsReported := by
  unfold Obligations.FirstBadRegisterByteIsReported
  intro m op r bs hr hlen op' b
  have htake : (r.kinds.map OperandKind.size).sum ≤ (bs.take (r.length - 1)).length := by
    rw [List.length_take, Nat.min_eq_left hlen]
    exact Nat.le_of_eq (row_length_sub_one r).symm
  have hbytes : registerBytes r.kinds bs = registerBytes r.kinds (bs.take (r.length - 1)) := by
    rw [← registerBytes_append r.kinds _ (bs.drop (r.length - 1)) htake, List.take_append_drop]
  rw [decode_cons m op r bs hr hlen, decodeRow_eq_invalidRegister_iff,
    decodeOperands_eq_badRegister_iff r.kinds _ b htake, hbytes, firstBadRegister]

/-- Settles O1: each word runs through the decoder. -/
theorem specWordsDecode : Obligations.SpecWordsDecode := by
  unfold Obligations.SpecWordsDecode
  decide +kernel

/-! ### Text without blanks and commas -/

/-- Text that holds no blank and no comma: a mnemonic, or the text of an operand (30_encoding.md R89). -/
def plain (t : Text) : Bool := t.all (fun c => !isBlank c && c != ',')

theorem plain_cons (c : Char) (t : Text) :
    plain (c :: t) = true ↔ isBlank c = false ∧ c ≠ ',' ∧ plain t = true := by
  simp [plain, and_assoc]

theorem isBlank_of_mem_plain (t : Text) (ht : plain t = true) (c : Char) (hc : c ∈ t) : isBlank c = false := by
  have hchar := List.all_eq_true.mp ht c hc
  simp only [Bool.and_eq_true, Bool.not_eq_true'] at hchar
  exact hchar.1

theorem plain_append (t u : Text) : plain (t ++ u) = (plain t && plain u) := List.all_append

theorem plain_mnemonic (n : Mnemonic) : plain n.text = true := by cases n <;> decide

theorem mnemonic_text_ne_nil (n : Mnemonic) : n.text ≠ [] := by cases n <;> decide

theorem plain_hexDigit : ∀ d < 16, plain [hexDigit d] = true := by decide

theorem plain_hexDigits (k n : Nat) : plain (hexDigits k n) = true := by
  induction k generalizing n with
  | zero => rfl
  | succ k ih =>
    rw [hexDigits, plain_append, ih, plain_hexDigit _ (Nat.mod_lt n (by decide))]; rfl

theorem plain_hexText (k n : Nat) : plain (hexText k n) = true := plain_hexDigits k n

theorem plain_register (r : Reg) : plain r.text = true := by cases r <;> decide

/-- The text of an operand, the symbolic mode being off (30_encoding.md R96). -/
def Operand.canonical (o : Operand) : Text := o.text (fun _ => none)

theorem plain_bracketed (t : Text) : plain ('[' :: t ++ [']']) = plain t := by
  rw [List.cons_append, plain, List.all_cons, ← plain, plain_append]
  exact Bool.and_true _

theorem plain_canonical (o : Operand) : plain o.canonical = true := by
  cases o with
  | reg r => exact plain_register r
  | imm8 v | imm16 v | imm32 v => exact plain_hexText ..
  | ind r => exact (plain_bracketed _).trans (plain_register r)
  | abs p => exact (plain_bracketed _).trans (plain_hexText ..)

theorem canonical_ne_nil (o : Operand) : o.canonical ≠ [] := by
  cases o with
  | reg r => cases r <;> decide
  | imm8 | imm16 | imm32 | ind | abs => nofun

/-! ### Trimming and splitting -/

theorem dropWhile_isBlank_plain_append (t u : Text) (ht : plain t = true) (hne : t ≠ []) :
    (t ++ u).dropWhile isBlank = t ++ u := by
  cases t with
  | nil => contradiction
  | cons c t => exact List.dropWhile_cons_of_neg (by simp [((plain_cons c t).mp ht).1])

theorem plain_reverse (t : Text) : plain t.reverse = plain t := List.all_reverse

/-- Text that begins and ends with plain text has no blanks around it. -/
theorem trimText_between (t u w : Text) (ht : plain t = true) (htne : t ≠ []) (hw : plain w = true)
    (hwne : w ≠ []) : trimText (t ++ u ++ w) = t ++ u ++ w := by
  rw [trimText, List.append_assoc, dropWhile_isBlank_plain_append t _ ht htne, ← List.append_assoc,
    List.reverse_append,
    dropWhile_isBlank_plain_append w.reverse _ ((plain_reverse w).trans hw) (List.reverse_ne_nil_iff.mpr hwne),
    ← List.reverse_append, List.reverse_reverse]

theorem trimText_plain (t : Text) (ht : plain t = true) : trimText t = t := by
  by_cases hne : t = []
  · rw [hne]; rfl
  · have hd := dropWhile_isBlank_plain_append t [] ht hne
    have hr := dropWhile_isBlank_plain_append t.reverse [] ((plain_reverse t).trans ht)
      (List.reverse_ne_nil_iff.mpr hne)
    rw [List.append_nil] at hd hr
    rw [trimText, hd, hr, List.reverse_reverse]

theorem trimText_space (t : Text) : trimText (' ' :: t) = trimText t := rfl

theorem splitCommas_cons (c : Char) (t u : Text) (us : List Text) (hc : c ≠ ',') (h : splitCommas t = u :: us) :
    splitCommas (c :: t) = (c :: u) :: us := by
  simp only [splitCommas, if_neg hc, h]

theorem splitCommas_plain (t : Text) (ht : plain t = true) : splitCommas t = [t] := by
  induction t with
  | nil => rfl
  | cons c t ih =>
    obtain ⟨-, hc, ht⟩ := (plain_cons c t).mp ht
    exact splitCommas_cons c t t [] hc (ih ht)

theorem splitCommas_plain_comma (t u : Text) (ht : plain t = true) :
    splitCommas (t ++ ',' :: u) = t :: splitCommas u := by
  induction t with
  | nil => rfl
  | cons c t ih =>
    obtain ⟨-, hc, ht⟩ := (plain_cons c t).mp ht
    exact splitCommas_cons c _ t _ hc (ih ht)

/-! ### Literals -/

theorem digitsValue_append (base acc : Nat) (t u : Text) :
    digitsValue base acc (t ++ u) = (digitsValue base acc t).bind (fun v => digitsValue base v u) := by
  induction t generalizing acc with
  | nil => rfl
  | cons c t ih =>
    simp only [List.cons_append, digitsValue]
    cases digitValue c with
    | none => rfl
    | some d =>
      by_cases hd : d < base
      · simp only [if_pos hd, ih]
      · simp only [if_neg hd, Option.bind_none]

/-- A hexadecimal digit is read as it is written (30_encoding.md R91, R96). -/
theorem digitValue_hexDigit : ∀ d < 16, digitValue (hexDigit d) = some d := by decide

theorem digitsValue_hexDigits (k n acc : Nat) :
    digitsValue 16 acc (hexDigits k n) = some (acc * 16 ^ k + n % 16 ^ k) := by
  induction k generalizing n with
  | zero => simp [hexDigits, digitsValue, Nat.mod_one]
  | succ k ih =>
    have hd : n % 16 < 16 := Nat.mod_lt n (by decide)
    have hmod : n % 16 ^ (k + 1) = n % 16 + 16 * (n / 16 % 16 ^ k) := by rw [Nat.pow_succ', Nat.mod_mul]
    rw [hexDigits, digitsValue_append, ih, Option.bind_some]
    simp only [digitsValue, digitValue_hexDigit _ hd, if_pos hd, hmod, Option.some.injEq]
    rw [Nat.pow_succ, ← Nat.mul_assoc]
    omega

theorem hexDigits_ne_nil (k n : Nat) : hexDigits (k + 1) n ≠ [] := by
  simp [hexDigits]

/-- A number of at most `k + 1` hexadecimal digits is read as it is written (30_encoding.md R91, R96). -/
theorem literalValue_hexText (k n : Nat) (h : n < 16 ^ (k + 1)) : literalValue (hexText (k + 1) n) = some n := by
  simp only [hexText, literalValue, true_or, if_true, hexDigits_ne_nil, if_false, digitsValue_hexDigits, Nat.zero_mul,
    Nat.zero_add, Nat.mod_eq_of_lt h]

/-! ### Tokens -/

/-- The token that an operand's text is (30_encoding.md R90). -/
def Operand.token : Operand → Token
  | .reg r => .reg r
  | .imm8 v => .imm v.toNat
  | .imm16 v => .imm v.toNat
  | .imm32 v => .imm v.toNat
  | .ind r => .ind r
  | .abs p => .abs p.toNat

theorem registerNamed_text (r : Reg) : registerNamed r.text = some r := by cases r <;> decide

theorem registerNamed_hexText (k n : Nat) : registerNamed (hexText k n) = none := by
  rw [registerNamed, List.find?_eq_none]
  intro r _
  cases r <;> simp [Reg.text, hexText, lowerText]

theorem parseAtom_register (r : Reg) : parseAtom r.text = .ok (.inl r) := by
  simp only [parseAtom, registerNamed_text]

theorem parseAtom_hexText (k n : Nat) (h : n < 16 ^ (k + 1)) (h32 : n < 2 ^ 32) :
    parseAtom (hexText (k + 1) n) = .ok (.inr n) := by
  simp only [parseAtom, registerNamed_hexText, literalValue_hexText k n h, if_pos h32]

theorem parseToken_space (t : Text) : parseToken (' ' :: t) = parseToken t := rfl

theorem parseToken_register (r : Reg) : parseToken r.text = .ok (.reg r) := by
  cases r <;> rfl

theorem parseToken_hexText (k n : Nat) (h : n < 16 ^ (k + 1)) (h32 : n < 2 ^ 32) :
    parseToken (hexText (k + 1) n) = .ok (.imm n) := by
  rw [parseToken, trimText_plain _ (plain_hexText ..)]
  split
  next cs hcs => injection hcs with hchar; exact absurd hchar (by decide)
  next => simp only [parseAtom_hexText k n h h32]

/-- Brackets make a register or a literal an address (30_encoding.md R90). -/
theorem parseToken_bracketed (t : Text) (ht : plain t = true) :
    (∀ r, parseAtom t = .ok (.inl r) → parseToken ('[' :: t ++ [']']) = .ok (.ind r)) ∧
    ∀ v, parseAtom t = .ok (.inr v) → parseToken ('[' :: t ++ [']']) = .ok (.abs v) := by
  have htrim := trimText_plain _ ((plain_bracketed t).trans ht)
  constructor
  all_goals
    intro x hx
    rw [parseToken, htrim]
    simp only [List.cons_append, List.getLast?_concat, List.dropLast_concat, if_true, trimText_plain t ht, hx]

/-- An operand's text is read as the operand's token (30_encoding.md R90, R91, R96). -/
theorem parseToken_canonical (o : Operand) : parseToken o.canonical = .ok o.token := by
  cases o with
  | reg r => exact parseToken_register r
  | imm8 v => exact parseToken_hexText 1 _ v.isLt (by have := v.isLt; omega)
  | imm16 v => exact parseToken_hexText 3 _ v.isLt (by have := v.isLt; omega)
  | imm32 v => exact parseToken_hexText 7 _ v.isLt v.isLt
  | ind r =>
    exact (parseToken_bracketed r.text (plain_register r)).1 r (parseAtom_register r)
  | abs p =>
    exact (parseToken_bracketed _ (plain_hexText ..)).2 _ (parseAtom_hexText 7 p.toNat p.isLt p.isLt)

/-! ### The rows that a line's tokens fit -/

theorem operandOf_token (o : Operand) : operandOf o.kind o.token = some o := by
  cases o with
  | reg | ind => rfl
  | imm8 v | imm16 v => simp [operandOf, Operand.kind, Operand.token, v.isLt]
  | imm32 v | abs v => simp [operandOf, Operand.kind, Operand.token]

theorem operandsOf_tokens (os : List Operand) : operandsOf (os.map Operand.kind) (os.map Operand.token) = some os := by
  induction os with
  | nil => rfl
  | cons o os ih => simp only [List.map_cons, operandsOf, operandOf_token, ih]

/-! ### The row with the smallest immediate -/

/-- The width of a kind's immediate, 0 where it has none (30_encoding.md R92). -/
def OperandKind.immBits : OperandKind → Nat
  | .imm8 => 8 | .imm16 => 16 | .imm32 => 32 | _ => 0

theorem immWidth_eq (r : Row) : immWidth r = (r.kinds.map OperandKind.immBits).sum := rfl

/-- The row has the line's mnemonic and takes its tokens, as the operands `os` (30_encoding.md R92). -/
def fits (n : Mnemonic) (ts : List Token) (r : Row) (os : List Operand) : Prop :=
  r.mnemonic = n ∧ operandsOf r.kinds ts = some os

theorem selectRow_cons_none (n : Mnemonic) (ts : List Token) (x : Byte × Row) (m : OpcodeMap)
    (h : ∀ os, ¬ fits n ts x.2 os) : selectRow n ts (x :: m) = selectRow n ts m := by
  have hnone : (if x.2.mnemonic = n then operandsOf x.2.kinds ts else none) = none := by
    split
    next hn => exact Option.eq_none_iff_forall_ne_some.mpr fun os hos => h os ⟨hn, hos⟩
    next => rfl
  simp only [selectRow, hnone]

theorem selectRow_cons_some (n : Mnemonic) (ts : List Token) (x : Byte × Row) (m : OpcodeMap) (os : List Operand)
    (h : fits n ts x.2 os) : selectRow n ts (x :: m) =
      if ∀ best ∈ selectRow n ts m, immWidth x.2 ≤ best.1 then some (immWidth x.2, x.1, os) else selectRow n ts m := by
  simp only [selectRow, if_pos h.1, h.2]
  cases selectRow n ts m <;> simp

/-- What is selected has the width of a row that fits. -/
theorem selectRow_fits (n : Mnemonic) (ts : List Token) (m : OpcodeMap) :
    ∀ best ∈ selectRow n ts m, ∃ y ∈ m, ∃ os, fits n ts y.2 os ∧ best.1 = immWidth y.2 := by
  induction m with
  | nil => nofun
  | cons x m ih =>
    intro best hbest
    have tail : best ∈ selectRow n ts m → ∃ y ∈ x :: m, ∃ os, fits n ts y.2 os ∧ best.1 = immWidth y.2 := fun hb => by
      obtain ⟨y, hy, hfits⟩ := ih best hb
      exact ⟨y, List.mem_cons_of_mem _ hy, hfits⟩
    by_cases hx : ∃ os, fits n ts x.2 os
    · obtain ⟨os, hos⟩ := hx
      rw [selectRow_cons_some n ts x m os hos] at hbest
      split at hbest
      · exact ⟨x, List.mem_cons_self, os, hos, by rw [← Option.some.inj hbest]⟩
      · exact tail hbest
    · rw [selectRow_cons_none n ts x m (not_exists.mp hx)] at hbest
      exact tail hbest

theorem opcodeOf_cons_self (x : Byte × Row) (m : OpcodeMap) : OpcodeMap.opcodeOf (x :: m) x.2 = some x.1 := by
  simp [OpcodeMap.opcodeOf]

theorem opcodeOf_cons_ne (x : Byte × Row) (m : OpcodeMap) (r : Row) (h : x.2 ≠ r) :
    OpcodeMap.opcodeOf (x :: m) r = OpcodeMap.opcodeOf m r := by
  simp [OpcodeMap.opcodeOf, h]

/-- A row that fits is selected when every other row that fits has a wider immediate (30_encoding.md R92). -/
theorem selectRow_eq_some (ts : List Token) (m : OpcodeMap) (r : Row) (op : Byte) (os : List Operand)
    (hop : m.opcodeOf r = some op) (hr : operandsOf r.kinds ts = some os)
    (hwider : ∀ y ∈ m, ∀ us, fits r.mnemonic ts y.2 us → y.2 = r ∨ immWidth r < immWidth y.2) :
    selectRow r.mnemonic ts m = some (immWidth r, op, os) := by
  induction m with
  | nil => contradiction
  | cons x m ih =>
    have htail := fun y hy => hwider y (List.mem_cons_of_mem x hy)
    by_cases hx : x.2 = r
    · have hopx : x.1 = op := by rw [← hx, opcodeOf_cons_self] at hop; exact Option.some.inj hop
      rw [selectRow_cons_some r.mnemonic ts x m os (by rw [hx]; exact ⟨rfl, hr⟩), if_pos, hx, hopx]
      intro best hbest
      obtain ⟨y, hy, us, hfits, hwidth⟩ := selectRow_fits _ _ _ best hbest
      rw [hx, hwidth]
      rcases htail y hy us hfits with e | hlt
      · exact Nat.le_of_eq (congrArg immWidth e.symm)
      · exact Nat.le_of_lt hlt
    · rw [opcodeOf_cons_ne x m r hx] at hop
      have ih := ih hop htail
      by_cases hfits : ∃ us, fits r.mnemonic ts x.2 us
      · obtain ⟨us, hus⟩ := hfits
        have hlt := (hwider x List.mem_cons_self us hus).resolve_left hx
        rw [selectRow_cons_some _ _ _ _ us hus, ih, if_neg]
        exact fun hle => absurd (hle _ rfl) (Nat.not_le.mpr hlt)
      · rw [selectRow_cons_none _ _ _ _ (not_exists.mp hfits), ih]

theorem operandsOf_cons (k : OperandKind) (ks : List OperandKind) (t : Token) (ts : List Token) (us : List Operand)
    (h : operandsOf (k :: ks) (t :: ts) = some us) :
    ∃ o os, operandOf k t = some o ∧ operandsOf ks ts = some os := by
  simp only [operandsOf] at h
  split at h
  next o os ho hos => exact ⟨o, os, ho, hos⟩
  next => contradiction

/-! ### The rows that take the operands of an instruction -/

/-- A token is taken by its operand's kind alone, or an immediate by a kind as wide as its value. -/
theorem operandOf_token_kind (k : OperandKind) (o o' : Operand) (h : operandOf k o.token = some o') :
    k = o.kind ∨ (0 < k.immBits ∧ 0 < o.kind.immBits) := by
  cases k <;> cases o <;> simp_all [operandOf, Operand.token, Operand.kind, OperandKind.immBits]

/-- The kinds are the same, or both of an immediate. -/
def OperandKind.alike (k l : OperandKind) : Bool := k == l || (k.immBits != 0 && l.immBits != 0)

/-- The kinds are alike, place by place. -/
def alikeKinds : List OperandKind → List OperandKind → Bool
  | [], [] => true
  | k :: ks, l :: ls => k.alike l && alikeKinds ks ls
  | _, _ => false

theorem alikeKinds_of_operandsOf (ks : List OperandKind) (os us : List Operand)
    (h : operandsOf ks (os.map Operand.token) = some us) : alikeKinds ks (os.map Operand.kind) = true := by
  induction ks generalizing os us with
  | nil =>
    cases os with
    | nil => rfl
    | cons o os => contradiction
  | cons k ks ih =>
    cases os with
    | nil => contradiction
    | cons o os =>
      obtain ⟨o', us', ho, hos⟩ := operandsOf_cons _ _ _ _ _ h
      have hk : k.alike o.kind = true := by
        rcases operandOf_token_kind k o o' ho with rfl | ⟨hk, hl⟩
        · simp [OperandKind.alike]
        · simp [OperandKind.alike, Nat.ne_of_gt hk, Nat.ne_of_gt hl]
      rw [List.map_cons, alikeKinds, hk, ih os us' hos, Bool.and_self]

/-- Only the mnemonics with an immediate of every width have two rows that are alike (30_encoding.md R86). -/
theorem shapes_alike (n : Mnemonic) : ∀ ks ∈ n.shapes, ∀ ls ∈ n.shapes, alikeKinds ks ls = true →
    ks = ls ∨ (n.shapes = [[.reg, .reg], [.reg, .imm8], [.reg, .imm16], [.reg, .imm32]] ∧
      ∃ k ∈ [OperandKind.imm8, .imm16, .imm32], ∃ l ∈ [OperandKind.imm8, .imm16, .imm32],
        ks = [.reg, k] ∧ ls = [.reg, l]) := by
  cases n <;> decide +kernel

theorem narrowest_imm16 (i : Instr) (v : Half) (h : narrowest i = true) (hv : .imm16 v ∈ i.operands)
    (hshape : [.reg, .imm8] ∈ i.parts.1.shapes) : 2 ^ 8 ≤ v.toNat := by
  have := List.all_eq_true.mp h _ hv
  simpa [hshape] using this

theorem narrowest_imm32 (i : Instr) (v : Word) (h : narrowest i = true) (hv : .imm32 v ∈ i.operands)
    (hshape : [.reg, .imm16] ∈ i.parts.1.shapes) : 2 ^ 16 ≤ v.toNat := by
  have := List.all_eq_true.mp h _ hv
  simpa [hshape] using this

theorem lt_of_operandOf_imm8 (v : Nat) (o : Operand) (h : operandOf .imm8 (.imm v) = some o) : v < 2 ^ 8 := by
  refine Decidable.byContradiction fun hlt => ?_
  rw [operandOf, if_neg hlt] at h
  contradiction

theorem lt_of_operandOf_imm16 (v : Nat) (o : Operand) (h : operandOf .imm16 (.imm v) = some o) : v < 2 ^ 16 := by
  refine Decidable.byContradiction fun hlt => ?_
  rw [operandOf, if_neg hlt] at h
  contradiction

/-- No immediate of a narrowest instruction fits a narrower row (30_encoding.md R92, R100). -/
theorem immBits_le_of_operandOf (i : Instr) (h : narrowest i = true)
    (hshapes : i.parts.1.shapes = [[.reg, .reg], [.reg, .imm8], [.reg, .imm16], [.reg, .imm32]])
    (k : OperandKind) (o o' : Operand) (ho : o ∈ i.operands) (hk : operandOf k o.token = some o')
    (hbits : 0 < k.immBits) : o.kind.immBits ≤ k.immBits := by
  have h8 : [.reg, .imm8] ∈ i.parts.1.shapes := by simp [hshapes]
  have h16 : [.reg, .imm16] ∈ i.parts.1.shapes := by simp [hshapes]
  cases o with
  | reg | ind | abs => exact Nat.zero_le _
  | imm8 v =>
    cases k with
    | imm8 | imm16 | imm32 => simp [Operand.kind, OperandKind.immBits]
    | reg | ind | abs => contradiction
  | imm16 v =>
    cases k with
    | imm8 => exact absurd (lt_of_operandOf_imm8 _ _ hk) (Nat.not_lt.mpr (narrowest_imm16 i v h ho h8))
    | imm16 | imm32 => simp [Operand.kind, OperandKind.immBits]
    | reg | ind | abs => contradiction
  | imm32 v =>
    have hv := narrowest_imm32 i v h ho h16
    cases k with
    | imm8 => exact absurd (lt_of_operandOf_imm8 _ _ hk) (Nat.not_lt.mpr (Nat.le_trans (by decide) hv))
    | imm16 => exact absurd (lt_of_operandOf_imm16 _ _ hk) (Nat.not_lt.mpr hv)
    | imm32 => exact Nat.le_refl _
    | reg | ind | abs => contradiction

theorem immediate_kinds_eq_or_wider :
    ∀ k ∈ [OperandKind.imm8, .imm16, .imm32], ∀ l ∈ [OperandKind.imm8, .imm16, .imm32],
    0 < k.immBits ∧ (l.immBits ≤ k.immBits → k = l ∨ l.immBits < k.immBits) := by decide

/-- A row of the default map that takes the tokens of a narrowest instruction is the instruction's, or wider. -/
theorem fits_narrowest (i : Instr) (h : narrowest i = true) (y : Byte × Row) (hy : y ∈ defaultOpcodeMap)
    (us : List Operand) (hfits : fits i.row.mnemonic (i.operands.map Operand.token) y.2 us) :
    y.2 = i.row ∨ immWidth i.row < immWidth y.2 := by
  obtain ⟨hmnemonic, hus⟩ := hfits
  obtain ⟨-, -, -, hknown⟩ := (opcodeMap_wf_iff defaultOpcodeMap).mp defaultOpcodeMap_wf
  have hyshape := mem_shapes_of_known _ (hknown y hy)
  rw [hmnemonic] at hyshape
  rcases shapes_alike _ _ hyshape _ (mem_shapes_of_known _ (row_known i)) (alikeKinds_of_operandsOf _ _ _ hus) with
    heq | ⟨hshapes, k, hk, l, hl, hyk, hil⟩
  · exact .inl (row_eq _ _ hmnemonic heq)
  · obtain ⟨o₁, os, hops, -, hrest⟩ := List.map_eq_cons_iff.mp (show i.operands.map Operand.kind = [.reg, l] from hil)
    obtain ⟨o₂, os', rfl, rfl, -⟩ := List.map_eq_cons_iff.mp hrest
    rw [hops, hyk] at hus
    obtain ⟨-, us', -, hus'⟩ := operandsOf_cons _ _ _ _ _ hus
    obtain ⟨o', -, ho', -⟩ := operandsOf_cons _ _ _ _ _ hus'
    obtain ⟨hbits, hwider⟩ := immediate_kinds_eq_or_wider k hk o₂.kind hl
    have hle := immBits_le_of_operandOf i h hshapes k o₂ o' (by simp [hops]) ho' hbits
    rcases hwider hle with heq | hlt
    · exact .inl (row_eq _ _ hmnemonic (by rw [hyk, heq]; exact hil.symm))
    · refine .inr ?_
      rw [immWidth_eq, immWidth_eq, hyk, hil]
      simpa using hlt

/-- The row selected for the tokens of a narrowest instruction is its own (30_encoding.md R92). -/
theorem selectRow_narrowest (i : Instr) (h : narrowest i = true) (op : Byte)
    (hop : defaultOpcodeMap.opcodeOf i.row = some op) :
    selectRow i.parts.1 (i.operands.map Operand.token) defaultOpcodeMap = some (immWidth i.row, op, i.operands) :=
  selectRow_eq_some _ defaultOpcodeMap i.row op i.operands hop (operandsOf_tokens i.operands) (fits_narrowest i h)

/-! ### The line -/

/-- What stands after the mnemonic in the text of an instruction with these operands (30_encoding.md R96). -/
def operandTail : List Operand → Text
  | [] => []
  | o :: os => ' ' :: joinOperands ((o :: os).map Operand.canonical)

theorem text_eq (i : Instr) : i.text = i.parts.1.text ++ operandTail i.operands := by
  rw [Instr.text]
  cases i.operands with
  | nil => exact (List.append_nil _).symm
  | cons o os => rfl

theorem operands_length_le_two (i : Instr) : i.operands.length ≤ 2 := by
  simpa [Instr.row] using shapes_length_le_two _ _ (mem_shapes_of_known _ (row_known i))

/-- Two operands joined, as plain text around the comma. -/
theorem joinOperands_two (t u : Text) : joinOperands [t, u] = t ++ [',', ' '] ++ u := by
  simp [joinOperands]

theorem trimText_joinOperands (os : List Operand) (h : os.length ≤ 2) :
    trimText (joinOperands (os.map Operand.canonical)) = joinOperands (os.map Operand.canonical) := by
  match os, h with
  | [], _ => rfl
  | [o], _ => exact trimText_plain _ (plain_canonical o)
  | [o, u], _ =>
    rw [List.map_cons, List.map_cons, List.map_nil, joinOperands_two]
    exact trimText_between _ _ _ (plain_canonical o) (canonical_ne_nil o) (plain_canonical u) (canonical_ne_nil u)

/-- A line with its mnemonic first and its operands last has no blanks around it. -/
theorem trimText_line (n : Mnemonic) (os : List Operand) (h : os.length ≤ 2) :
    trimText (n.text ++ operandTail os) = n.text ++ operandTail os := by
  have hn := plain_mnemonic n
  have hne := mnemonic_text_ne_nil n
  match os, h with
  | [], _ => rw [operandTail, List.append_nil, trimText_plain _ hn]
  | [o], _ =>
    have := trimText_between n.text [' '] _ hn hne (plain_canonical o) (canonical_ne_nil o)
    rwa [List.append_assoc] at this
  | [o, u], _ =>
    have := trimText_between n.text (' ' :: o.canonical ++ [',', ' ']) _ hn hne (plain_canonical u) (canonical_ne_nil u)
    rw [List.append_assoc] at this
    rwa [operandTail, List.map_cons, List.map_cons, List.map_nil, joinOperands_two]

theorem joinOperands_ne_nil (o : Operand) (os : List Operand) :
    joinOperands ((o :: os).map Operand.canonical) ≠ [] := by
  cases os with
  | nil => exact canonical_ne_nil o
  | cons u us => exact List.append_ne_nil_of_left_ne_nil (canonical_ne_nil o) _

theorem operandTexts_tail_cons (o : Operand) (os : List Operand) (h : (o :: os).length ≤ 2) :
    operandTexts (operandTail (o :: os)) = splitCommas (joinOperands ((o :: os).map Operand.canonical)) := by
  rw [operandTexts, operandTail, trimText_space, trimText_joinOperands _ h]
  split
  next hnil => exact absurd hnil (joinOperands_ne_nil o os)
  next => rfl

theorem splitCommas_joinOperands_two (o u : Operand) :
    splitCommas (joinOperands ([o, u].map Operand.canonical)) = [o.canonical, ' ' :: u.canonical] := by
  have hu := splitCommas_cons ' ' _ _ _ (by decide) (splitCommas_plain _ (plain_canonical u))
  exact (splitCommas_plain_comma _ _ (plain_canonical o)).trans (congrArg _ hu)

/-- The operands of the canonical text are read as their tokens (30_encoding.md R89, R90, R96). -/
theorem operandTexts_tail (os : List Operand) (h : os.length ≤ 2) :
    (operandTexts (operandTail os)).length ≤ 2 ∧
    parseTokens (operandTexts (operandTail os)) = .ok (os.map Operand.token) := by
  match os, h with
  | [], _ => exact ⟨by decide, rfl⟩
  | [o], h =>
    have hsplit : splitCommas (joinOperands ([o].map Operand.canonical)) = [o.canonical] :=
      splitCommas_plain _ (plain_canonical o)
    rw [operandTexts_tail_cons o [] h, hsplit]
    exact ⟨Nat.le_succ 1, by simp only [parseTokens, parseToken_canonical, List.map_cons, List.map_nil]⟩
  | [o, u], h =>
    rw [operandTexts_tail_cons o [u] h, splitCommas_joinOperands_two]
    exact ⟨Nat.le_refl 2, by
      simp only [parseTokens, parseToken_canonical, parseToken_space, List.map_cons, List.map_nil]⟩

theorem mnemonicNamed_text (n : Mnemonic) : allMnemonics.find? (fun k => k.text == lowerText n.text) = some n := by
  cases n <;> decide

/-- The mnemonic ends where the first blank stands (30_encoding.md R89). -/
theorem splitLine (n : Mnemonic) (os : List Operand) :
    (n.text ++ operandTail os).takeWhile (fun c => !isBlank c) = n.text ∧
    (n.text ++ operandTail os).dropWhile (fun c => !isBlank c) = operandTail os := by
  have hn : ∀ c ∈ n.text, (!isBlank c) = true := fun c hc => by
    rw [isBlank_of_mem_plain _ (plain_mnemonic n) c hc]; rfl
  rw [List.takeWhile_append_of_pos hn, List.dropWhile_append_of_pos hn]
  cases os with
  | nil | cons => exact ⟨List.append_nil _, rfl⟩

/-- Settles O59: the line is split, read and matched as it was put together. -/
theorem assemblerInvertsDisassembler : Obligations.AssemblerInvertsDisassembler := by
  unfold Obligations.AssemblerInvertsDisassembler
  intro i h
  obtain ⟨op, hop, hbytes⟩ := encode_eq i
  obtain ⟨htake, hdrop⟩ := splitLine i.parts.1 i.operands
  obtain ⟨hlen, htokens⟩ := operandTexts_tail i.operands (operands_length_le_two i)
  rw [text_eq, hbytes]
  simp only [encodeText, trimText_line _ _ (operands_length_le_two i), htake, hdrop, mnemonic_text_ne_nil, if_false,
    mnemonicNamed_text, Nat.not_lt.mpr hlen, htokens, selectRow_narrowest i h op hop]

end Sys2Proof

namespace Sys2Proof.Machine

/-! ### The disassembler -/

/-- The bytes of an instruction under a well-formed map are shown as its text (30_encoding.md R95 to R97). -/
theorem decodeAt_bytes (s : State) (a : Word) (i : Instr) (op : Byte) (hlookup : s.cfg.opcodes.lookup op = some i.row)
    (hget : busGet a s = (op, s))
    (harray : busGetArray (i.row.length - 1) (a + 1) s = (i.operands.flatMap Operand.bytes, s)) :
    decodeAt a s = ((i.text, i.length), s) := by
  have hops := decodeOperands_bytes i.operands []
  rw [List.append_nil] at hops
  simp only [decodeAt, decodeAtWith, hget, hlookup, harray,
    show i.row.kinds = i.operands.map Operand.kind from rfl, hops]
  rfl

/-- Settles O60: the map gives the opcode its row back, and the bus gives the bytes as they stand. -/
theorem disassemblerShowsTheInstruction : Obligations.DisassemblerShowsTheInstruction := by
  unfold Obligations.DisassemblerShowsTheInstruction
  intro s a i bs hm hdev henc hbytes
  obtain ⟨op, hop, rfl⟩ := (encodeWith_eq_some_iff _ i bs).mp henc
  have hlen : i.length = (i.row.length - 1) + 1 := (Nat.sub_add_cancel (row_length_pos i.row)).symm
  have harray := busGetArray_noDevice i.length a s hdev
  rw [hbytes, hlen, busGetArray_succ] at harray
  have hget := busGet_noDevice a s (by simpa using (rangeTouches_false _ _ _).mp hdev 0 (by omega))
  simp only [hget, Prod.mk.injEq, List.cons.injEq] at harray
  obtain ⟨⟨hread, harray⟩, hstate⟩ := harray
  rw [hread] at hget
  exact decodeAt_bytes s a i op ((opcodeOf_iff_lookup _ hm op i.row).mp hop) hget (Prod.ext harray hstate)

end Sys2Proof.Machine

/-! The family 40_cycle.md: the step and the instruction it runs, the ranges of `CheckWrites`, the flags, and the
stack. -/

namespace Sys2Proof.Machine

/-! ### The step -/

/-- Settles O11: Fetch and Decode are total, and so is every instruction. -/
theorem everyEnabledStepEnds : Obligations.EveryEnabledStepEnds := by
  unfold Obligations.EveryEnabledStepEnds
  intro s hf
  rcases step_cases s with ⟨m, hm, -⟩ | ⟨m, s1, -, -, e⟩ | ⟨i, s1, -, -, e⟩
  · rw [hf] at hm; contradiction
  · exact ⟨_, e⟩
  · obtain ⟨t, ht, -⟩ := exec_runs i s1
    exact ⟨t.finishStep, by rw [e, ht]⟩

/-- Settles O12: an instruction keeps the clear fault mark, or it raises a fatal condition and does nothing else. -/
theorem fatalInstructionsArePrecise : Obligations.FatalInstructionsArePrecise := by
  unfold Obligations.FatalInstructionsArePrecise
  intro i s t m hs h ht
  rcases runs_controlSame_or_fatal i s t (runs_of_exec i s t h) with ⟨-, -, hfault, -⟩ | ⟨m', rfl⟩
  · rw [hfault, hs] at ht; contradiction
  · obtain rfl : m' = m := Option.some.inj ht
    exact ⟨fatal_spec s m', finishStep_some _ m' ht⟩

/-- Only an assigned opcode with all its operand bytes decodes to an instruction: that of the opcode's row
(30_encoding.md R88). -/
theorem decode_eq_ok (m : OpcodeMap) (op : Byte) (bs rest : List Byte) (i : Instr)
    (h : decode m (op :: bs) = .ok i rest) :
    ∃ row, m.lookup op = some row ∧ row.length - 1 ≤ bs.length ∧ decodeRow op row bs = .ok i rest := by
  cases hr : m.lookup op with
  | none => rw [decode_unassigned m op bs hr] at h; contradiction
  | some row =>
    rcases Nat.lt_or_ge bs.length (row.length - 1) with hlen | hlen
    · rw [decode_short m op row bs hr hlen] at h; contradiction
    · rw [decode_cons m op row bs hr hlen] at h
      exact ⟨row, rfl, hlen, h⟩

/-- Outside the device windows, Fetch and Decode give the instruction that the bytes at PC decode to, and have no
effect (40_cycle.md R120 to R122). -/
theorem fetchDecode_of_decode (s : State) (i : Instr) (hdev : noDevice s.cfg (s.reg .PC) i.length)
    (h : decode s.cfg.opcodes (bytesAt s (s.reg .PC) i.length) = .ok i []) : fetchDecode s = .instr i s := by
  have hlen : i.length = (i.row.length - 1) + 1 := (Nat.sub_add_cancel (row_length_pos i.row)).symm
  rw [hlen] at hdev h
  have hbytes := busGetArray_noDevice _ _ s hdev
  have hop := busGet_noDevice (s.reg .PC) s (by simpa using (rangeTouches_false _ _ _).mp hdev 0 (by omega))
  rw [bytesAt_succ] at hbytes h
  rw [busGetArray_succ, hop] at hbytes
  obtain ⟨row, hrow, hle, hdec⟩ := decode_eq_ok _ _ _ _ _ h
  obtain ⟨rfl, -⟩ := decodeRow_eq_ok _ _ _ _ _ hle hdec
  have htail : busGetArray (i.row.length - 1) (s.reg .PC + 1) s =
      (bytesAt s (s.reg .PC + 1) (i.row.length - 1), s) := by
    simpa [Prod.ext_iff] using hbytes
  simp only [fetchDecode, hop, hrow, htail, hdec]

/-- Settles O7: Fetch and Decode give the instruction, at the state as it stands. -/
theorem stepRunsTheDecodedInstruction : Obligations.StepRunsTheDecodedInstruction := by
  unfold Obligations.StepRunsTheDecodedInstruction
  intro s i hf hdev h
  obtain ⟨t, ht, -⟩ := exec_runs i s
  simp only [step, hf, fetchDecode_of_decode s i hdev h, ht]

/-! ### CheckWrites -/

/-- A byte of the CPU window at an offset from `lo` on, by its number (20_memory.md R59). -/
theorem exists_route_cpu_iff (c : Config) (hc : c.wf) (lo : Nat) (a : Word) :
    (∃ o, lo ≤ o ∧ route c a = .cpu o) ↔ c.cpuBase.toNat + lo ≤ a.toNat ∧ a.toNat < c.cpuBase.toNat + 64 := by
  constructor
  · rintro ⟨o, hlo, ho⟩
    obtain ⟨hlt, ha⟩ := route_cpu_lt c a o ho
    omega
  · rintro ⟨hlo, hhi⟩
    have hwindow : inWindow c.cpuWindow a = true := (inWindow_iff _ _).mpr ⟨Nat.le_of_add_right_le hlo, hhi⟩
    exact ⟨_, by omega, route_cpuWindow c a hc hwindow⟩

theorem isCpuByte_iff_route (c : Config) (a : Word) : isCpuByte c a = true ↔ ∃ o, 0 ≤ o ∧ route c a = .cpu o := by
  unfold isCpuByte
  cases route c a <;> simp

theorem isPcOrFlByte_iff_route (c : Config) (a : Word) :
    isPcOrFlByte c a = true ↔ ∃ o, 56 ≤ o ∧ route c a = .cpu o := by
  unfold isPcOrFlByte
  cases route c a <;> simp

/-- A check that looks for the offsets from `lo` on finds a range that has a byte there (40_cycle.md R138). -/
theorem rangeTouches_iff_touchesCpuWindow (c : Config) (hc : c.wf) (f : Word → Bool) (lo : Nat)
    (hf : ∀ x, f x = true ↔ ∃ o, lo ≤ o ∧ route c x = .cpu o) (a : Word) (n : Nat) :
    rangeTouches f a n = true ↔ touchesCpuWindow c lo 64 a n := by
  simp only [rangeTouches_true, hf, exists_route_cpu_iff c hc, touchesCpuWindow]

/-- Settles O36: the windows being disjoint, the routing gives the CPU every address of its window. -/
theorem checkWritesRanges : Obligations.CheckWritesRanges := by
  unfold Obligations.CheckWritesRanges
  intro c a n hc
  exact ⟨rangeTouches_iff_touchesCpuWindow c hc _ 56 (isPcOrFlByte_iff_route c) a n,
    rangeTouches_iff_touchesCpuWindow c hc _ 0 (isCpuByte_iff_route c) a n⟩

/-! ### The flags -/

/-- Settles O37: `SetFlags` writes FL alone, and a destination FL takes the result itself. -/
theorem setFlagsComputesTheFlags : Obligations.SetFlagsComputesTheFlags := by
  unfold Obligations.SetFlagsComputesTheFlags
  intro s len r y v
  have hfl : (s.setFlags r y v).reg .FL = flagsAfter (s.reg .FL) r y v := by rw [setFlags_reg, if_pos rfl]
  refine ⟨flagsOfResult_of _ _ _ _ _ hfl, otherFlagsSame_of _ _ _ _ _ hfl, fun q hq => ?_, ?_⟩
  · rw [setFlags_reg, if_neg (by simpa using hq)]
  · rw [writeResult_reg, if_pos rfl]

theorem overflows_add (a b : Word) : overflows (signedOf a + signedOf b) = BitVec.saddOverflow a b := by
  rw [overflows, BitVec.saddOverflow, Bool.or_comm]; rfl

theorem overflows_sub (a b : Word) : overflows (signedOf a - signedOf b) = BitVec.ssubOverflow a b := by
  rw [overflows, BitVec.ssubOverflow, Bool.or_comm]; rfl

/-- Settles O47: the exact sum or difference of the signed readings overflows as the sign bits say. -/
theorem overflowBitFormulas : Obligations.OverflowBitFormulas := by
  unfold Obligations.OverflowBitFormulas
  intro a b
  have sign : ∀ v : Word, v.getLsbD 31 = v.msb := fun v => (BitVec.msb_eq_getLsbD_last v).symm
  simp only [aluAdd, aluSub, overflows_add, overflows_sub, BitVec.saddOverflow_eq, BitVec.ssubOverflow_eq, sign]
  constructor
  · cases a.msb <;> cases b.msb <;> cases (a + b).msb <;> rfl
  · cases a.msb <;> cases b.msb <;> cases (a - b).msb <;> rfl

/-! ### The stack -/

/-- A range of RAM touches no byte of the CPU window (20_memory.md R52). -/
theorem stackWriteFatal_of_allRam (c : Config) (a : Word) (n : Nat) (h : allRam c a n) :
    stackWriteFatal c a n = false :=
  (rangeTouches_false _ _ _).mpr fun k hk => by rw [isCpuByte, h k hk]

/-- A word written to the RAM is read back whole (20_memory.md R55, R56, R58). -/
theorem memRead_memWrite_word (s : State) (a v : Word) (h : allRam s.cfg a 4) :
    (memRead a 4 (memWrite a 4 v s)).1 = v := by
  obtain ⟨hread, -⟩ := memWriteThenMemRead s a v 4 (by omega) h
  exact BitVec.eq_of_toNat_eq (hread.trans (Nat.mod_eq_of_lt v.isLt))

/-- Settles O58: the pop reads the word that the push wrote, at the SP that the push left. -/
theorem popUndoesPush : Obligations.PopUndoesPush := by
  unfold Obligations.PopUndoesPush
  intro s v hram
  have hreg := push32_reg s v (stackWriteFatal_of_allRam _ _ _ hram)
  have hsp : (s.push32 v).reg .SP = s.reg .SP - 4 := by rw [hreg, if_pos rfl]
  constructor
  · rw [(pop32_spec _).1, hsp, push32_def]
    exact memRead_memWrite_word (s.setReg .SP (s.reg .SP - 4)) _ v hram
  · intro r
    rw [pop32_reg, hsp, BitVec.sub_add_cancel, hreg]
    by_cases hr : r = .SP
    · rw [if_pos hr, hr]
    · rw [if_neg hr, if_neg hr]

end Sys2Proof.Machine

/-! The family 41_move.md: every form of mov, movb, movw and movd is `moveToReg` or `moveToMem` of its source operand.
What these two do is said in the Laws (`moveToReg_spec`, `moveToMem_spec`); here the source's value is put into it, one
lemma per kind of move. -/

namespace Sys2Proof.Machine

/-! ### Immediates -/

theorem valueOf_imm8_ofNat (b : Byte) (w : Nat) (s : State) :
    valueOf (.imm8 b) w s = (BitVec.ofNat 32 b.toNat, s) := by
  rw [valueOf_imm8, setWidth_eq_ofNat]

theorem valueOf_imm16_ofNat (h : Half) (w : Nat) (s : State) :
    valueOf (.imm16 h) w s = (BitVec.ofNat 32 h.toNat, s) := by
  rw [valueOf_imm16, setWidth_eq_ofNat]

/-! ### Moves into a register -/

section
variable {i : Instr} {s : State} {len w : Nat} {d : Reg} {src : Operand}

/-- A whole-word move from an operand that is read without an access (41_move.md R151). -/
theorem completesWith_of_exec {v : Word} (h : exec i s = .next (moveToReg len 4 d src s))
    (hv : valueOf src 4 s = (v, s)) : completesWith i s len d v false false := by
  have hspec := moveToReg_spec len 4 d src s
  rw [hv, lowPart_four] at hspec
  exact ⟨_, h, hspec⟩

/-- A move from memory: the value read has no bit beyond its `w` bytes, so it is written whole (41_move.md R150, R152 to
R154). -/
theorem loads_of_exec {ea : Word} (h : exec i s = .next (moveToReg len w d src s))
    (hv : valueOf src w s = memRead ea w s) : loads i s len w d ea := by
  have hspec := moveToReg_spec len w d src s
  rw [hv, lowPart_memRead] at hspec
  exact ⟨_, h, hspec⟩

end

/-- Settles O38: each form is a whole-word `moveToReg` of a register or an immediate. -/
theorem movWritesItsSource : Obligations.MovWritesItsSource := by
  unfold Obligations.MovWritesItsSource
  intro s d r b h w
  refine ⟨?_, ?_, ?_, ?_⟩
  · exact completesWith_of_exec rfl (valueOf_reg ..)
  · exact completesWith_of_exec rfl (valueOf_imm8_ofNat ..)
  · exact completesWith_of_exec rfl (valueOf_imm16_ofNat ..)
  · exact completesWith_of_exec rfl (valueOf_imm32 ..)

/-- Settles O39: each form is `moveToReg` of a memory operand, whose address is formed before the destination is
written. -/
theorem loadsReadMemory : Obligations.LoadsReadMemory := by
  unfold Obligations.LoadsReadMemory
  intro s d r q
  have fromRegister (w : Nat) := valueOf_ind r w s
  have fromAbsolute (w : Nat) := valueOf_abs q w s
  exact ⟨loads_of_exec rfl (fromRegister 1), loads_of_exec rfl (fromAbsolute 1),
    loads_of_exec rfl (fromRegister 2), loads_of_exec rfl (fromAbsolute 2),
    loads_of_exec rfl (fromRegister 4), loads_of_exec rfl (fromAbsolute 4)⟩

/-! ### Moves into memory -/

section
variable {i : Instr} {s : State} {len w : Nat} {ea : Word} {src : Operand}

/-- A move into memory stores the value its source gave, after the accesses that reading the source made (41_move.md
R150, R155). -/
theorem stores_of_exec {v : Word} {s1 : State} (h : exec i s = .next (moveToMem len w ea src s))
    (hv : valueOf src w s = (v, s1)) (hw : w ≤ 4 := by omega) : stores i s s1 len w ea v := by
  intro hf
  have hspec := moveToMem_spec len w ea src s (by omega) hf
  rw [hv] at hspec
  exact ⟨_, h, hspec⟩

theorem movesMemory_of_exec {a : Word} (h : exec i s = .next (moveToMem len w ea src s))
    (hv : valueOf src w s = memRead a w s) (hw : w ≤ 4 := by omega) : movesMemory i s len w ea a :=
  stores_of_exec h hv hw

end

/-- Settles O40: each form is `moveToMem` of a register or an immediate, at the address its destination operand has
before the store. -/
theorem storesWriteMemory : Obligations.StoresWriteMemory := by
  unfold Obligations.StoresWriteMemory
  intro s d r p b h w
  have register (n : Nat) := valueOf_reg r n s
  have imm8 := valueOf_imm8_ofNat b 1 s
  have imm16 := valueOf_imm16_ofNat h 2 s
  have imm32 := valueOf_imm32 w 4 s
  exact ⟨stores_of_exec rfl (register 1), stores_of_exec rfl (register 1),
    stores_of_exec rfl imm8, stores_of_exec rfl imm8,
    stores_of_exec rfl (register 2), stores_of_exec rfl (register 2),
    stores_of_exec rfl imm16, stores_of_exec rfl imm16,
    stores_of_exec rfl (register 4), stores_of_exec rfl (register 4),
    stores_of_exec rfl imm32, stores_of_exec rfl imm32⟩

/-- Settles O41: each form is `moveToMem` of a memory operand, which is read whole before the store. -/
theorem memoryToMemoryMoves : Obligations.MemoryToMemoryMoves := by
  unfold Obligations.MemoryToMemoryMoves
  intro s d r p q
  have fromRegister (w : Nat) := valueOf_ind r w s
  have fromAbsolute (w : Nat) := valueOf_abs q w s
  exact ⟨movesMemory_of_exec rfl (fromRegister 1), movesMemory_of_exec rfl (fromAbsolute 1),
    movesMemory_of_exec rfl (fromRegister 1), movesMemory_of_exec rfl (fromAbsolute 1),
    movesMemory_of_exec rfl (fromRegister 2), movesMemory_of_exec rfl (fromAbsolute 2),
    movesMemory_of_exec rfl (fromRegister 2), movesMemory_of_exec rfl (fromAbsolute 2),
    movesMemory_of_exec rfl (fromRegister 4), movesMemory_of_exec rfl (fromAbsolute 4),
    movesMemory_of_exec rfl (fromRegister 4), movesMemory_of_exec rfl (fromAbsolute 4)⟩

end Sys2Proof.Machine

/-! The family 42_alu.md: every form of an ALU instruction is `aluTwo`, `aluOne`, `compare` or `divide` of its operands.
What these do is said in the Laws (`aluTwo_spec`, `aluOne_spec`, `compare_spec`, `divide_zero`); here the source's value
is put into it once for the four source forms, and the ALU functions are written as the spec's exact results. -/

namespace Sys2Proof.Machine

/-! ### The ALU functions -/

theorem overflows_eq_signedOverflow (z : Int) : overflows z = signedOverflow z := by
  rw [Bool.eq_iff_iff, overflows_iff, signedOverflow, decide_eq_true_iff]
  omega

theorem aluAdd_eq (a b : Word) :
    aluAdd a b = ⟨a + b, decide (2 ^ 32 ≤ a.toNat + b.toNat), signedOverflow (a.toInt + b.toInt)⟩ := by
  have hcarry : carryOut (unsignedOf a + unsignedOf b) = decide (2 ^ 32 ≤ a.toNat + b.toNat) := by
    rw [Bool.eq_iff_iff, carryOut_iff, decide_eq_true_iff, unsignedOf, unsignedOf]
    omega
  rw [aluAdd, hcarry, overflows_eq_signedOverflow, signedOf, signedOf]

theorem aluSub_eq (a b : Word) :
    aluSub a b = ⟨a - b, decide (a.toNat < b.toNat), signedOverflow (a.toInt - b.toInt)⟩ := by
  have hborrow : carryOut (unsignedOf a - unsignedOf b) = decide (a.toNat < b.toNat) := by
    rw [Bool.eq_iff_iff, carryOut_iff, decide_eq_true_iff, unsignedOf, unsignedOf]
    have := a.isLt
    omega
  rw [aluSub, hborrow, overflows_eq_signedOverflow, signedOf, signedOf]

theorem aluMul_eq (a b : Word) :
    aluMul a b = ⟨BitVec.ofNat 32 (a.toNat * b.toNat), decide (2 ^ 32 ≤ a.toNat * b.toNat),
      signedOverflow (a.toInt * b.toInt)⟩ := by
  have hresult : a * b = BitVec.ofNat 32 (a.toNat * b.toNat) := BitVec.mul_def
  have hcarry : carryOut (unsignedOf a * unsignedOf b) = decide (2 ^ 32 ≤ a.toNat * b.toNat) := by
    rw [Bool.eq_iff_iff, carryOut_iff, decide_eq_true_iff, unsignedOf, unsignedOf, ← Int.natCast_mul]
    omega
  rw [aluMul, hresult, hcarry, overflows_eq_signedOverflow, signedOf, signedOf]

theorem toInt_range (a : Word) : -2147483648 ≤ a.toInt ∧ a.toInt ≤ 2147483647 :=
  ⟨BitVec.le_toInt a, Int.le_of_lt_add_one (BitVec.toInt_lt (x := a))⟩

/-- The largest and the smallest signed value, and -1, by their signed readings (00_scope.md R8). -/
theorem toInt_eq_iff (a : Word) :
    (a.toInt = 2147483647 ↔ a = 0x7FFFFFFF) ∧ (a.toInt = -2147483648 ↔ a = 0x80000000) ∧
    (a.toInt = -1 ↔ a = 0xFFFFFFFF) ∧ (a.toInt = 0 ↔ a = 0) :=
  ⟨BitVec.toInt_inj (y := 0x7FFFFFFF), BitVec.toInt_inj (y := 0x80000000), BitVec.toInt_inj (y := 0xFFFFFFFF),
    BitVec.toInt_inj (y := 0)⟩

/-- An increment carries out of 0xFFFFFFFF alone and overflows at the largest signed value alone (42_alu.md R193). -/
theorem aluAdd_one (a : Word) : aluAdd a 1 = ⟨a + 1, decide (a = 0xFFFFFFFF), decide (a = 0x7FFFFFFF)⟩ := by
  have hrange := toInt_range a
  obtain ⟨hmax, -⟩ := toInt_eq_iff a
  have hone : (1 : Word).toInt = 1 := rfl
  rw [aluAdd_eq, signedOverflow, hone]
  congr 2
  · simp only [eq_iff_iff]
    bv_omega
  · simp only [eq_iff_iff, ← hmax]
    omega

/-- A decrement borrows from 0 alone and overflows at the smallest signed value alone (42_alu.md R194). -/
theorem aluSub_one (a : Word) : aluSub a 1 = ⟨a - 1, decide (a = 0), decide (a = 0x80000000)⟩ := by
  have hrange := toInt_range a
  obtain ⟨-, hmin, -⟩ := toInt_eq_iff a
  have hone : (1 : Word).toInt = 1 := rfl
  rw [aluSub_eq, signedOverflow, hone]
  congr 2
  · simp only [eq_iff_iff]
    bv_omega
  · simp only [eq_iff_iff, ← hmin]
    omega

theorem aluShl_eq (a b : Word) : aluShl a b = ⟨if 32 ≤ b.toNat then 0 else a <<< b.toNat, false, false⟩ := by
  have hshift : BitVec.ofNat 32 (a.toNat * 2 ^ b.toNat) = a <<< b.toNat :=
    BitVec.eq_of_toNat_eq (by rw [BitVec.toNat_ofNat, BitVec.toNat_shiftLeft, Nat.shiftLeft_eq])
  rw [aluShl, hshift]

theorem aluShr_eq (a b : Word) : aluShr a b = ⟨if 32 ≤ b.toNat then 0 else a >>> b.toNat, false, false⟩ := by
  have hshift : BitVec.ofNat 32 (a.toNat / 2 ^ b.toNat) = a >>> b.toNat := by
    rw [← Nat.shiftRight_eq_div_pow, ← BitVec.toNat_ushiftRight, BitVec.ofNat_toNat, BitVec.setWidth_eq]
  rw [aluShr, hshift]

theorem aluNot_eq (a : Word) : aluNot a = ⟨~~~a, false, false⟩ := by
  rw [aluNot, ← BitVec.allOnes_sub_eq_not a]
  rfl

/-- A quotient that rounds towards zero is no larger than its dividend, and at most half of it for a divisor other than
1 and -1: it leaves the signed range for the smallest dividend and the divisor -1 alone (42_alu.md R191). -/
theorem signedOverflow_tdiv_iff (x y : Int) (hlo : -2147483648 ≤ x) (hhi : x ≤ 2147483647) (hy : y ≠ 0) :
    signedOverflow (x.tdiv y) = true ↔ x = -2147483648 ∧ y = -1 := by
  rw [signedOverflow, decide_eq_true_iff]
  by_cases hone : y = 1
  · rw [hone, Int.tdiv_one]
    omega
  by_cases hneg : y = -1
  · rw [hneg, Int.tdiv_neg, Int.tdiv_one]
    omega
  have hhalf : (x.tdiv y).natAbs ≤ x.natAbs / 2 := by
    rw [Int.natAbs_tdiv]
    exact Nat.div_le_div_left (by omega) (by omega)
  omega

/-- The signed quotient for a divisor that is not 0 (42_alu.md R191). -/
theorem aluDiv_signed (a b : Word) (hb : b ≠ 0) :
    aluDiv .signed a b =
      ⟨BitVec.ofInt 32 (Int.tdiv a.toInt b.toInt), false, decide (a = 0x80000000 ∧ b = 0xFFFFFFFF)⟩ := by
  obtain ⟨hlo, hhi⟩ := toInt_range a
  obtain ⟨-, hmin, -⟩ := toInt_eq_iff a
  obtain ⟨-, -, hneg, hzero⟩ := toInt_eq_iff b
  have hv : signedOverflow (Int.tdiv a.toInt b.toInt) = decide (a = 0x80000000 ∧ b = 0xFFFFFFFF) := by
    rw [Bool.eq_iff_iff, signedOverflow_tdiv_iff _ _ hlo hhi (mt hzero.mp hb), decide_eq_true_iff, hmin, hneg]
  rw [← hv, ← overflows_eq_signedOverflow]
  rfl

/-- The signed remainder has the sign of the dividend (42_alu.md R192). -/
theorem aluMod_signed (a b : Word) :
    aluMod .signed a b = ⟨BitVec.ofInt 32 (Int.tmod a.toInt b.toInt), false, false⟩ := by
  rw [aluMod, signedOf, signedOf, Int.tmod_def, Int.mul_comm]

/-- Settles O50: the identity of the exact quotient and remainder, read modulo 2^32. -/
theorem quotientAndRemainder : Obligations.QuotientAndRemainder := by
  unfold Obligations.QuotientAndRemainder
  intro mode a b hb
  cases mode with
  | unsigned =>
    calc a = BitVec.ofNat 32 (a.toNat / b.toNat * b.toNat + a.toNat % b.toNat) := by
          rw [Nat.div_add_mod', BitVec.ofNat_toNat, BitVec.setWidth_eq]
      _ = BitVec.ofNat 32 (a.toNat / b.toNat) * b + BitVec.ofNat 32 (a.toNat % b.toNat) := by
          rw [BitVec.ofNat_add, BitVec.ofNat_mul, BitVec.ofNat_toNat, BitVec.setWidth_eq]
  | signed =>
    rw [aluDiv_signed a b hb, aluMod_signed]
    calc a = BitVec.ofInt 32 (a.toInt.tdiv b.toInt * b.toInt + a.toInt.tmod b.toInt) := by
          rw [Int.tdiv_mul_add_tmod, BitVec.ofInt_toInt]
      _ = BitVec.ofInt 32 (a.toInt.tdiv b.toInt) * b + BitVec.ofInt 32 (a.toInt.tmod b.toInt) := by
          rw [BitVec.ofInt_add, BitVec.ofInt_mul, BitVec.ofInt_toInt]

/-! ### The forms of an instruction -/

/-- `i` is a form of the mnemonic `n`, of `len` bytes, with destination `d` and source `src`, and `op` is its meaning
(30_encoding.md R86; 42_alu.md R180). -/
def isForm (n : Mnemonic) (op : Nat → Reg → Operand → State → State) (i : Instr) (len : Nat) (d : Reg)
    (src : Operand) : Prop :=
  i.parts = (n, [.reg d, src]) ∧ ∀ s, exec i s = .next (op len d src s)

/-- `f0` to `f3` are the register form and the three immediate forms of `n`, with one meaning `op` (42_alu.md R180). -/
structure HasForms (n : Mnemonic) (op : Nat → Reg → Operand → State → State) (f0 : Reg → Reg → Instr)
    (f1 : Reg → Byte → Instr) (f2 : Reg → Half → Instr) (f3 : Reg → Word → Instr) : Prop where
  reg : ∀ d r, isForm n op (f0 d r) 3 d (.reg r)
  imm8 : ∀ d b, isForm n op (f1 d b) 3 d (.imm8 b)
  imm16 : ∀ d h, isForm n op (f2 d h) 4 d (.imm16 h)
  imm32 : ∀ d w, isForm n op (f3 d w) 6 d (.imm32 w)

theorem hasForms_or : HasForms .or (aluTwo aluOr) .orRR .orRI8 .orRI16 .orRI32 := by
  constructor <;> exact fun _ _ => ⟨rfl, fun _ => rfl⟩
theorem hasForms_xor : HasForms .xor (aluTwo aluXor) .xorRR .xorRI8 .xorRI16 .xorRI32 := by
  constructor <;> exact fun _ _ => ⟨rfl, fun _ => rfl⟩
theorem hasForms_and : HasForms .and (aluTwo aluAnd) .andRR .andRI8 .andRI16 .andRI32 := by
  constructor <;> exact fun _ _ => ⟨rfl, fun _ => rfl⟩
theorem hasForms_add : HasForms .add (aluTwo aluAdd) .addRR .addRI8 .addRI16 .addRI32 := by
  constructor <;> exact fun _ _ => ⟨rfl, fun _ => rfl⟩
theorem hasForms_sub : HasForms .sub (aluTwo aluSub) .subRR .subRI8 .subRI16 .subRI32 := by
  constructor <;> exact fun _ _ => ⟨rfl, fun _ => rfl⟩
theorem hasForms_mul : HasForms .mul (aluTwo aluMul) .mulRR .mulRI8 .mulRI16 .mulRI32 := by
  constructor <;> exact fun _ _ => ⟨rfl, fun _ => rfl⟩
theorem hasForms_cmp : HasForms .cmp compare .cmpRR .cmpRI8 .cmpRI16 .cmpRI32 := by
  constructor <;> exact fun _ _ => ⟨rfl, fun _ => rfl⟩
theorem hasForms_idiv : HasForms .idiv (divide .idiv aluDiv) .idivRR .idivRI8 .idivRI16 .idivRI32 := by
  constructor <;> exact fun _ _ => ⟨rfl, fun _ => rfl⟩
theorem hasForms_mod : HasForms .mod (divide .mod aluMod) .modRR .modRI8 .modRI16 .modRI32 := by
  constructor <;> exact fun _ _ => ⟨rfl, fun _ => rfl⟩

section
variable {n : Mnemonic} {op : Nat → Reg → Operand → State → State} {f : Word → Word → AluResult}
  {f0 : Reg → Reg → Instr} {f1 : Reg → Byte → Instr} {f2 : Reg → Half → Instr} {f3 : Reg → Word → Instr}
  {ok : Instr → State → Nat → Reg → Word → Prop} {i : Instr} {len : Nat} {d : Reg} {src : Operand}
  {s : State} {b r : Word} {y v : Bool}

/-- What holds of every form with a source that is read without an access holds of the four forms. -/
theorem aluForms_of_hasForms (h : HasForms n op f0 f1 f2 f3)
    (hok : ∀ i s len d src b, isForm n op i len d src → valueOf src 4 s = (b, s) → ok i s len d b) :
    aluForms f0 f1 f2 f3 ok := fun s d r b hw w =>
  ⟨hok _ s _ d _ _ (h.reg d r) (valueOf_reg ..), hok _ s _ d _ _ (h.imm8 d b) (valueOf_imm8_ofNat ..),
    hok _ s _ d _ _ (h.imm16 d hw) (valueOf_imm16_ofNat ..), hok _ s _ d _ _ (h.imm32 d w) (valueOf_imm32 ..)⟩

/-! ### Register results -/

/-- A two-operand ALU instruction completes with what its function gives (42_alu.md R180). -/
theorem completesWith_of_aluTwo (h : exec i s = .next (aluTwo f len d src s)) (hv : valueOf src 4 s = (b, s))
    (hf : f (s.reg d) b = ⟨r, y, v⟩) : completesWith i s len d r y v := by
  have hspec := aluTwo_spec f len d src s
  rw [hv, hf] at hspec
  exact ⟨_, h, hspec⟩

/-- A one-operand ALU instruction completes with what its function gives (42_alu.md R180). -/
theorem completesWith_of_aluOne {f : Word → AluResult} (h : exec i s = .next (aluOne f d s))
    (hf : f (s.reg d) = ⟨r, y, v⟩) : completesWith i s 2 d r y v := by
  have hspec := aluOne_spec f d s
  rw [hf] at hspec
  exact ⟨_, h, hspec⟩

/-- The four forms of a two-operand ALU instruction complete with what its function gives (42_alu.md R180). -/
theorem aluForms_completesWith (h : HasForms n (aluTwo f) f0 f1 f2 f3) :
    aluForms f0 f1 f2 f3 (fun i s len d b =>
      completesWith i s len d (f (s.reg d) b).r (f (s.reg d) b).y (f (s.reg d) b).v) :=
  aluForms_of_hasForms h fun _ _ _ _ _ _ ⟨_, hexec⟩ hv => completesWith_of_aluTwo (hexec _) hv rfl

end

/-- Settles O43: the bitwise functions, in the frame of every ALU instruction. -/
theorem logicResults : Obligations.LogicResults := by
  unfold Obligations.LogicResults
  exact ⟨aluForms_completesWith hasForms_or, aluForms_completesWith hasForms_xor, aluForms_completesWith hasForms_and,
    fun s d => completesWith_of_aluOne rfl (aluNot_eq (s.reg d))⟩

/-- Settles O44: the shift functions take the count as it is, and a zero-extended immediate is its own count. -/
theorem shiftResults : Obligations.ShiftResults := by
  unfold Obligations.ShiftResults
  intro s d r b
  have hcount : (BitVec.ofNat 32 b.toNat).toNat = b.toNat := by
    rw [← setWidth_eq_ofNat, BitVec.toNat_setWidth_of_le (by decide)]
  exact ⟨completesWith_of_aluTwo rfl (valueOf_reg ..) (aluShl_eq ..),
    completesWith_of_aluTwo rfl (valueOf_imm8_ofNat ..) (by rw [aluShl_eq, hcount]),
    completesWith_of_aluTwo rfl (valueOf_reg ..) (aluShr_eq ..),
    completesWith_of_aluTwo rfl (valueOf_imm8_ofNat ..) (by rw [aluShr_eq, hcount])⟩

/-- Settles O45: the exact sums and differences give Y and V, those of an increment and a decrement among them. -/
theorem addAndSubtractResults : Obligations.AddAndSubtractResults := by
  unfold Obligations.AddAndSubtractResults
  refine ⟨?_, ?_, fun s d => ⟨?_, ?_⟩⟩
  · simpa only [aluAdd_eq] using aluForms_completesWith hasForms_add
  · simpa only [aluSub_eq] using aluForms_completesWith hasForms_sub
  · exact completesWith_of_aluOne rfl (aluAdd_one (s.reg d))
  · exact completesWith_of_aluOne rfl (aluSub_one (s.reg d))

/-- Settles O46: the exact products give Y and V. -/
theorem multiplyResults : Obligations.MultiplyResults := by
  unfold Obligations.MultiplyResults
  simpa only [aluMul_eq] using aluForms_completesWith hasForms_mul

/-! ### Comparison -/

/-- A state whose FL is that of another but for GT and LT has the other's computed flags (40_cycle.md R130). -/
theorem flagsOfResult_of_putFlag (t : State) (w r : Word) (y v gt lt : Bool)
    (h : t.reg .FL = putFlag (putFlag (flagsAfter w r y v) .GT gt) .LT lt) : flagsOfResult t r y v := by
  have hflag (f : Flag) (hgt : f ≠ .GT) (hlt : f ≠ .LT) :
      t.flag f = (t.setReg .FL (flagsAfter w r y v)).flag f := by
    rw [flag_setReg, if_pos rfl, flag_def, h, flagOf_putFlag, if_neg hlt, flagOf_putFlag, if_neg hgt]
  have hresult := flagsOfResult_of (t.setReg .FL (flagsAfter w r y v)) w r y v (by rw [reg_setReg, if_pos rfl])
  unfold flagsOfResult at hresult ⊢
  rwa [hflag .Y, hflag .V, hflag .Z, hflag .S, hflag .P] <;> decide

/-- What `CMP_MODE` makes of the operands (42_alu.md R189). -/
theorem greater_less_signed (a b : Word) :
    greater .signed a b = decide (b.toInt < a.toInt) ∧ less .signed a b = decide (a.toInt < b.toInt) := ⟨rfl, rfl⟩

theorem greater_less_unsigned (a b : Word) :
    greater .unsigned a b = decide (b.toNat < a.toNat) ∧ less .unsigned a b = decide (a.toNat < b.toNat) := by
  simp only [greater, less, unsignedOf, Int.ofNat_lt, and_self]

/-- A comparison with an operand that is read without an access (42_alu.md R189). -/
theorem compares_of_exec {i : Instr} {s : State} {len : Nat} {d : Reg} {src : Operand} {b : Word}
    (h : exec i s = .next (compare len d src s)) (hv : valueOf src 4 s = (b, s)) : compares i s len d b := by
  obtain ⟨hreg, hcontrol, hmem, hdevices⟩ := compare_spec len d src s
  obtain ⟨hT, hhigh⟩ := compare_keeps_T_and_high len d src s
  rw [hv] at hreg hdevices
  have hfl := hreg .FL
  rw [if_neg (by decide), if_pos rfl, aluSub_eq] at hfl
  have hgt : (compare len d src s).flag .GT = greater s.cfg.cmpMode (s.reg d) b := by
    rw [flag_def, hfl, flagOf_putFlag, if_neg (by decide), flagOf_putFlag, if_pos rfl]
  have hlt : (compare len d src s).flag .LT = less s.cfg.cmpMode (s.reg d) b := by
    rw [flag_def, hfl, flagOf_putFlag, if_pos rfl]
  refine ⟨_, h, flagsOfResult_of_putFlag _ _ _ _ _ _ _ hfl, fun hm => ?_, fun hm => ?_, hT, hhigh, ?_, fun q hq => ?_,
    hcontrol, memorySame_of_mem _ _ hcontrol.1 hmem, hdevices⟩
  · rw [hgt, hlt, hm]
    exact greater_less_signed (s.reg d) b
  · rw [hgt, hlt, hm]
    exact greater_less_unsigned (s.reg d) b
  · rw [hreg, if_pos rfl]
  · obtain ⟨hpc, hne⟩ : q ≠ .PC ∧ q ≠ .FL := by simpa using hq
    rw [hreg, if_neg hpc, if_neg hne]

/-- Settles O48: `cmp` is `compare` in its four forms. -/
theorem compareSetsTheFlags : Obligations.CompareSetsTheFlags := by
  unfold Obligations.CompareSetsTheFlags
  exact aluForms_of_hasForms hasForms_cmp fun _ _ _ _ _ _ ⟨_, hexec⟩ hv => compares_of_exec (hexec _) hv

/-! ### Division -/

section
variable {n : Mnemonic} {g : Signedness → Word → Word → AluResult} {i : Instr} {s : State} {len : Nat} {d : Reg}
  {src : Operand} {b r : Word} {v : Bool}

/-- A division by a divisor that is not 0 completes with what its function gives in `DIV_MODE` (42_alu.md R191,
R192). -/
theorem completesWith_of_divide (hi : isForm n (divide n g) i len d src) (hv : valueOf src 4 s = (b, s)) (hb : b ≠ 0)
    (hg : g s.cfg.divMode (s.reg d) b = ⟨r, false, v⟩) : completesWith i s len d r false v := by
  obtain ⟨-, hexec⟩ := hi
  refine completesWith_of_aluTwo ?_ hv hg
  rw [hexec, divide_nonzero _ _ _ _ _ _ (by rwa [hv])]

theorem divides_idiv (hi : isForm n (divide n aluDiv) i len d src) (hv : valueOf src 4 s = (b, s)) :
    divides true i s len d b := by
  intro hb
  constructor <;> intro hm <;> refine completesWith_of_divide hi hv hb ?_ <;> rw [hm]
  · rfl
  · exact aluDiv_signed _ _ hb

theorem divides_mod (hi : isForm n (divide n aluMod) i len d src) (hv : valueOf src 4 s = (b, s)) :
    divides false i s len d b := by
  intro hb
  constructor <;> intro hm <;> refine completesWith_of_divide hi hv hb ?_ <;> rw [hm]
  · rfl
  · exact aluMod_signed _ _

/-- The opcode in the info is the one the map gives the row of the instruction itself (60_exceptions.md R303; log entry
17). -/
theorem divisionIsFatal_of_divide (hi : isForm n (divide n g) i len d src) (hv : valueOf src 4 s = (b, s)) :
    divisionIsFatal i s len d b := by
  intro hb op hop
  obtain ⟨hparts, hexec⟩ := hi
  have hopcode : currentOpcode s.cfg n d src = op := by
    have hrow : i.row = ⟨n, [(Operand.reg d).kind, src.kind]⟩ := by rw [Instr.row, Instr.operands, hparts]; rfl
    rw [currentOpcode, ← hrow, hop, Option.getD_some]
  refine ⟨_, hexec s, ?_⟩
  rw [divide_zero _ _ _ _ _ _ (by rw [hv, hb]), hv, hopcode]
  exact fatal_spec s _

end

/-- Settles O49: a divisor that is not 0 leaves the frame of every ALU instruction, with the function of `DIV_MODE`. -/
theorem divisionResults : Obligations.DivisionResults := by
  unfold Obligations.DivisionResults
  exact ⟨aluForms_of_hasForms hasForms_idiv fun _ _ _ _ _ _ => divides_idiv,
    aluForms_of_hasForms hasForms_mod fun _ _ _ _ _ _ => divides_mod⟩

/-- Settles O51: a divisor of 0 is fatal in every form, whatever the dividend and `DIV_MODE`. -/
theorem divisionByZeroIsFatal : Obligations.DivisionByZeroIsFatal := by
  unfold Obligations.DivisionByZeroIsFatal
  exact ⟨aluForms_of_hasForms hasForms_idiv fun _ _ _ _ _ _ => divisionIsFatal_of_divide,
    aluForms_of_hasForms hasForms_mod fun _ _ _ _ _ _ => divisionIsFatal_of_divide⟩

end Sys2Proof.Machine

/-! The family 43_control.md: every conditional branch is `branch` of its target operand and its flag, and sets PC
alone, as `jmp` and `nop` do (`jump_spec`); `iret` and `sret` are one operation, two reads and the writes of FL, SP and
PC. -/

namespace Sys2Proof.Machine

/-! ### Conditional branches -/

section
variable {i : Instr} {s : State} {len : Nat} {target : Operand} {v : Word} {f : Flag}

/-- The condition `c` of a branch is that its flag has the wanted value (43_control.md R230). -/
theorem branches_of_exec {wanted c : Bool} (h : exec i s = .next (branch f wanted len target s))
    (hv : valueOf target 4 s = (v, s)) (hc : c = true ↔ s.flag f = wanted) : branches i s len v c := by
  refine ⟨_, h, ?_⟩
  rw [branch_spec _ _ _ _ _ _ hv]
  simp only [hc]
  exact jump_spec s _

/-- A branch taken when its flag is set. -/
theorem branches_of_wanted_set (h : exec i s = .next (branch f true len target s))
    (hv : valueOf target 4 s = (v, s)) : branches i s len v (s.flag f) :=
  branches_of_exec h hv Iff.rfl

/-- A branch taken when its flag is clear. -/
theorem branches_of_wanted_clear (h : exec i s = .next (branch f false len target s))
    (hv : valueOf target 4 s = (v, s)) : branches i s len v (!s.flag f) :=
  branches_of_exec h hv (by rw [Bool.not_eq_true'])

end

/-- Settles O52: each form is `branch` of a register or an immediate, which is read without an access, with the flag and
the wanted value of its mnemonic. -/
theorem conditionalBranches : Obligations.ConditionalBranches := by
  unfold Obligations.ConditionalBranches
  intro s d v
  have register := valueOf_reg d 4 s
  have immediate := valueOf_imm32 v 4 s
  exact ⟨branches_of_wanted_set rfl register, branches_of_wanted_set rfl immediate,
    branches_of_wanted_clear rfl register, branches_of_wanted_clear rfl immediate,
    branches_of_wanted_set rfl register, branches_of_wanted_set rfl immediate,
    branches_of_wanted_clear rfl register, branches_of_wanted_clear rfl immediate,
    branches_of_wanted_set rfl register, branches_of_wanted_set rfl immediate,
    branches_of_wanted_clear rfl register, branches_of_wanted_clear rfl immediate,
    branches_of_wanted_set rfl register, branches_of_wanted_set rfl immediate,
    branches_of_wanted_clear rfl register, branches_of_wanted_clear rfl immediate,
    branches_of_wanted_set rfl register, branches_of_wanted_set rfl immediate,
    branches_of_wanted_clear rfl register, branches_of_wanted_clear rfl immediate⟩

/-! ### Jumps -/

/-- A jump to an operand that is read without an access (43_control.md R241). -/
theorem jumpTo_eq (target : Operand) (s : State) (v : Word) (hv : valueOf target 4 s = (v, s)) :
    jumpTo target s = s.jump v := by
  rw [jumpTo, hv]

/-- The PC advance is a jump to the next instruction (40_cycle.md R126). -/
theorem advance_eq_jump (s : State) (len : Nat) : s.advance len = s.jump (s.reg .PC + BitVec.ofNat 32 len) := rfl

/-- Settles O53: the three instructions are jumps, `nop` the one to the next instruction. -/
theorem jumpsAndNop : Obligations.JumpsAndNop := by
  unfold Obligations.JumpsAndNop
  intro s d v
  refine ⟨⟨jumpTo (.reg d) s, rfl, ?_⟩, ⟨jumpTo (.imm32 v) s, rfl, ?_⟩, ⟨s.advance 1, rfl, ?_⟩⟩
  · rw [jumpTo_eq _ _ _ (valueOf_reg ..)]
    exact jump_spec s _
  · rw [jumpTo_eq _ _ _ (valueOf_imm32 ..)]
    exact jump_spec s _
  · rw [advance_eq_jump]
    exact jump_spec s _

/-! ### Returns from an interrupt -/

/-- The return from an interrupt by its two reads: the second starts from the SP and the FL that the first pop and the
write of FL left (43_control.md R244). -/
theorem returnFromInterrupt_eq {s s1 s2 : State} {fl pc : Word} (hfl : memRead (s.reg .SP) 4 s = (fl, s1))
    (hpc : memRead (s.reg .SP + 4) 4 ((s1.setReg .SP (s.reg .SP + 4)).setReg .FL fl) = (pc, s2)) :
    s.returnFromInterrupt = (s2.setReg .SP (s.reg .SP + 4 + 4)).jump pc := by
  have hpop : s.pop32 = (fl, s1.setReg .SP (s.reg .SP + 4)) := by rw [pop32_def, hfl]
  have hsp : ((s1.setReg .SP (s.reg .SP + 4)).setReg .FL fl).reg .SP = s.reg .SP + 4 := by simp
  rw [returnFromInterrupt_def, hpop, pop32_def, hsp, hpc]

theorem pop32_mem (s : State) : s.pop32.2.mem = s.mem := by
  obtain ⟨-, -, hmem, -⟩ := pop32_spec s
  exact hmem

/-- The return from an interrupt writes no memory. -/
theorem returnFromInterrupt_memorySame (s : State) : memorySame s s.returnFromInterrupt := by
  obtain ⟨hcfg, -⟩ := controlSame_returnFromInterrupt s
  have hmem : s.returnFromInterrupt.mem = s.mem := by
    rw [returnFromInterrupt_def, jump_mem, pop32_mem, setReg_mem, pop32_mem]
  exact memorySame_of_mem _ _ hcfg hmem

/-- An instruction that is the return from an interrupt has the two reads and the frame of R244. -/
theorem returnsFromInterrupt_of_exec {i : Instr} {s : State} (h : exec i s = .next s.returnFromInterrupt) :
    returnsFromInterrupt i s := by
  obtain ⟨fl, s1, hfl⟩ : ∃ fl s1, memRead (s.reg .SP) 4 s = (fl, s1) := ⟨_, _, rfl⟩
  obtain ⟨pc, s2, hpc⟩ : ∃ pc s2,
      memRead (s.reg .SP + 4) 4 ((s1.setReg .SP (s.reg .SP + 4)).setReg .FL fl) = (pc, s2) := ⟨_, _, rfl⟩
  have heq := returnFromInterrupt_eq hfl hpc
  refine ⟨_, s1, s2, fl, pc, hfl, hpc, h, ?_, ?_, ?_, fun r hr => ?_, controlSame_returnFromInterrupt s,
    returnFromInterrupt_memorySame s, ?_⟩
  · rw [returnFromInterrupt_reg, if_neg (by decide), if_neg (by decide), if_pos rfl, hfl]
  · rw [heq, jump_reg, if_pos rfl]
  · rw [returnFromInterrupt_reg, if_neg (by decide), if_pos rfl, BitVec.add_assoc]
    rfl
  · obtain ⟨hsp_ne, hpc_ne, hfl_ne⟩ : r ≠ .SP ∧ r ≠ .PC ∧ r ≠ .FL := by simpa using hr
    rw [returnFromInterrupt_reg, if_neg hpc_ne, if_neg hsp_ne, if_neg hfl_ne]
  · rw [heq]
    exact ⟨rfl, rfl⟩

/-- Settles O57: `iret` and `sret` are the same operation. -/
theorem returnsFromInterrupt : Obligations.ReturnsFromInterrupt := by
  unfold Obligations.ReturnsFromInterrupt
  exact fun s => ⟨returnsFromInterrupt_of_exec rfl, returnsFromInterrupt_of_exec rfl⟩

end Sys2Proof.Machine

/-! The family 44_stack_misc.md: `push` and `call` push a word and then set PC, as `pop` and `ret` pop one into a
register, PC for `ret`. What the push and the pop do is said in the Laws (`push32_spec`, `popInto_reg`,
`popInto_frame`). -/

namespace Sys2Proof.Machine

/-! ### Pushes -/

/-- A push that passed `CheckWrites`, and then a jump: the jump changes PC alone (40_cycle.md R127, R133). -/
theorem push32_jump_spec (s : State) (v target : Word) (hf : stackWriteFatal s.cfg (s.reg .SP - 4) 4 = false) :
    pushed s ((s.push32 v).jump target) v ∧ ((s.push32 v).jump target).reg .PC = target ∧
    registersSameBut s ((s.push32 v).jump target) [.SP, .PC] := by
  obtain ⟨hpushed, hregs⟩ := push32_spec s v hf
  refine ⟨pushed_setPC _ _ _ _ hpushed, by rw [jump_reg, if_pos rfl], fun r hr => ?_⟩
  obtain ⟨hsp, hpc⟩ : r ≠ .SP ∧ r ≠ .PC := by simpa using hr
  rw [jump_reg, if_neg hpc, hregs r (by simpa using hsp)]

/-- The PC advance after a push starts from the PC before it (40_cycle.md R126, R133). -/
theorem push32_advance (s : State) (v : Word) (len : Nat) (hf : stackWriteFatal s.cfg (s.reg .SP - 4) 4 = false) :
    (s.push32 v).advance len = (s.push32 v).jump (s.reg .PC + BitVec.ofNat 32 len) := by
  rw [advance_eq_jump, push32_reg s v hf, if_neg (by decide)]

section
variable {i : Instr} {s : State} {len : Nat} {src : Operand} {v : Word}

/-- A push of an operand that is read without an access (44_stack_misc.md R260). -/
theorem pushesAndGoes_of_pushValue (h : exec i s = .next (pushValue len src s)) (hv : valueOf src 4 s = (v, s)) :
    pushesAndGoes i s v (s.reg .PC + BitVec.ofNat 32 len) := by
  intro hf
  rw [pushValue_ok _ _ _ _ hv hf, push32_advance _ _ _ hf] at h
  exact ⟨_, h, push32_jump_spec _ _ _ hf⟩

/-- A call to an operand that is read without an access (43_control.md R242). -/
theorem pushesAndGoes_of_callTo (h : exec i s = .next (callTo len src s)) (hv : valueOf src 4 s = (v, s)) :
    pushesAndGoes i s (s.reg .PC + BitVec.ofNat 32 len) v := by
  intro hf
  rw [callTo_ok _ _ _ _ hv hf] at h
  exact ⟨_, h, push32_jump_spec _ _ _ hf⟩

end

/-- Settles O54: each form is `pushValue` or `callTo` of a register or an immediate, read before the push changes SP. -/
theorem pushAndCall : Obligations.PushAndCall := by
  unfold Obligations.PushAndCall
  intro s d v
  have register := valueOf_reg d 4 s
  have immediate := valueOf_imm32 v 4 s
  exact ⟨pushesAndGoes_of_pushValue rfl register, pushesAndGoes_of_pushValue rfl immediate,
    pushesAndGoes_of_callTo rfl register, pushesAndGoes_of_callTo rfl immediate⟩

/-! ### Pops -/

/-- `ret` pops PC (43_control.md R243). -/
theorem returnFromCall_eq_popInto (s : State) : returnFromCall s = popInto .PC s := by
  rw [popInto_def, if_pos rfl]
  rfl

/-- The destination is written last, over the increment of SP and the PC advance (44_stack_misc.md R261). -/
theorem popInto_reg_destination (d : Reg) (s : State) : (popInto d s).reg d = (memRead (s.reg .SP) 4 s).1 := by
  rw [popInto_reg, if_pos rfl]

theorem popInto_reg_sp (d : Reg) (s : State) (hd : d ≠ .SP) : (popInto d s).reg .SP = s.reg .SP + 4 := by
  rw [popInto_reg, if_neg hd.symm, if_neg (by decide), if_pos rfl]

theorem popInto_reg_pc (d : Reg) (s : State) (hd : d ≠ .PC) : (popInto d s).reg .PC = s.reg .PC + 2 := by
  rw [popInto_reg, if_neg hd.symm, if_pos rfl]

theorem popInto_reg_other (d r : Reg) (s : State) (hd : r ≠ d) (hsp : r ≠ .SP) (hpc : r ≠ .PC) :
    (popInto d s).reg r = s.reg r := by
  rw [popInto_reg, if_neg hd, if_neg hpc, if_neg hsp]

/-- A pop writes no memory and no control state; the devices see its one read (40_cycle.md R134). -/
theorem popInto_keeps (d : Reg) (s : State) : controlSame s (popInto d s) ∧ memorySame s (popInto d s) ∧
    devicesAsIn (memRead (s.reg .SP) 4 s).2 (popInto d s) := by
  obtain ⟨hmem, hcontrol, hdevices⟩ := popInto_frame d s
  exact ⟨hcontrol, memorySame_of_mem _ _ hcontrol.1 hmem, hdevices⟩

/-- Settles O56: `pop` is `popInto` its destination, and `ret` is the pop into PC. -/
theorem popAndRet : Obligations.PopAndRet := by
  unfold Obligations.PopAndRet
  intro s d
  constructor
  · refine ⟨popInto d s, rfl, popInto_reg_destination d s, popInto_reg_sp d s, popInto_reg_pc d s, fun r hr => ?_,
      popInto_keeps d s⟩
    obtain ⟨hd, hsp, hpc⟩ : r ≠ d ∧ r ≠ .SP ∧ r ≠ .PC := by simpa using hr
    exact popInto_reg_other d r s hd hsp hpc
  · have hret : exec .ret s = .next (popInto .PC s) := by
      rw [← returnFromCall_eq_popInto]
      rfl
    refine ⟨popInto .PC s, hret, popInto_reg_destination .PC s, popInto_reg_sp .PC s (by decide), fun r hr => ?_,
      popInto_keeps .PC s⟩
    obtain ⟨hsp, hpc⟩ : r ≠ .SP ∧ r ≠ .PC := by simpa using hr
    exact popInto_reg_other .PC r s hpc hsp hpc

end Sys2Proof.Machine

/-! The family 60_exceptions.md: the host's operations and the invariant; the fatal conditions of Fetch and Decode;
interrupt entry, the line it takes, and the return from it. -/

namespace Sys2Proof.Machine

/-! ### The host's operations keep the invariant -/

theorem inv_hostReset (s : State) (h : Inv s) : Inv s.hostReset :=
  ⟨h.config, rfl, rfl, rfl, rfl, rfl, fun _ => rfl⟩

theorem inv_hostStop (s : State) (h : Inv s) : Inv s.hostStop :=
  ⟨h.config, h.memory, h.inRam, h.pending, h.signalled, h.merged, fun _ => rfl⟩

/-- The run mode may be set to running while no fault mark is set (60_exceptions.md R323). -/
theorem inv_running (s : State) (h : Inv s) (hf : s.fault = none) : Inv { s with running := .running } :=
  ⟨h.config, h.memory, h.inRam, h.pending, h.signalled, h.merged, fun hne => absurd hf hne⟩

theorem inv_hostStep (s : State) (h : Inv s) : Inv s.hostStep.2 := by
  unfold State.hostStep
  split
  next t ht => exact stepKeepsTheInvariant s t h ht
  next => exact h
  next => exact h

theorem inv_runFor (n : Nat) (s : State) (h : Inv s) : Inv (runFor n s) := by
  induction n generalizing s with
  | zero =>
    unfold runFor
    split
    · exact h
    · exact inv_hostStop s h
  | succ n ih =>
    unfold runFor
    split
    · split
      next t ht => exact ih t (stepKeepsTheInvariant s t h ht)
      next => exact inv_hostStop s h
    · exact inv_hostStop s h

theorem inv_hostRun (s : State) (n : Nat) (h : Inv s) : Inv (s.hostRun n).2 := by
  unfold State.hostRun
  split
  next => exact h
  next hf => exact inv_runFor n _ (inv_running s h hf)

/-- Accesses between steps keep the invariant once the lines they signalled are pending (60_exceptions.md R310; log
entry 19). -/
theorem inv_mergeSignals_of_carries (s t : State) (h : Inv s) (hcarries : Carries s t) (hfault : t.fault = s.fault)
    (hrunning : t.running = s.running) : Inv t.mergeSignals :=
  inv_mergeSignals t (invInStep_of_carries s t (invInStep_of_inv s h) hcarries) (by
    rw [hfault, hrunning]; exact h.stopped)

theorem inv_hostGetArray (s : State) (a : Word) (n : Nat) (h : Inv s) : Inv (s.hostGetArray a n).2 :=
  inv_mergeSignals_of_carries s _ h (carries_busGetArray n a s) (busGetArray_fault ..) (busGetArray_running ..)

theorem inv_hostSetArray (s : State) (a : Word) (bs : List Byte) (h : Inv s) : Inv (s.hostSetArray a bs) :=
  inv_mergeSignals_of_carries s _ h (carries_busSetArray bs a s) (busSetArray_fault ..) (busSetArray_running ..)

/-- The disassembler reads some bytes at its address and does nothing else (30_encoding.md R95). -/
theorem exists_decodeAt_eq_busGetArray (a : Word) (s : State) :
    ∃ n, (decodeAt a s).2 = (busGetArray n a s).2 := by
  simp only [decodeAt, decodeAtWith]
  split
  next => exact ⟨1, rfl⟩
  next row hrow =>
    refine ⟨row.length - 1 + 1, ?_⟩
    split <;> rfl

theorem inv_disassembleAt (s : State) (a : Word) (h : Inv s) : Inv (decodeAt a s).2.mergeSignals := by
  obtain ⟨n, hn⟩ := exists_decodeAt_eq_busGetArray a s
  rw [hn]
  exact inv_hostGetArray s a n h

theorem inv_raiseLine (s : State) (i : Nat) (h : Inv s) (hi : i < s.cfg.nIrq) : Inv (s.raiseLine i) :=
  ⟨h.config, h.memory, h.inRam, linesOk_insertLine _ _ _ hi h.pending, h.signalled, h.merged, h.stopped⟩

theorem inv_hostRaise (s : State) (i : Nat) (h : Inv s) : Inv (s.hostRaise i).2 := by
  unfold State.hostRaise
  split
  next hi => exact inv_raiseLine s i h hi
  next => exact h

/-- Settles O26, operation by operation: a run is a sequence of steps, and every bus access carries the invariant
over. -/
theorem hostOperationsKeepTheInvariant : Obligations.HostOperationsKeepTheInvariant := by
  unfold Obligations.HostOperationsKeepTheInvariant
  intro c s h
  cases c with
  | reset => exact inv_hostReset s h
  | step => exact inv_hostStep s h
  | run n => exact inv_hostRun s n h
  | stop => exact inv_hostStop s h
  | disassembleAt a => exact inv_disassembleAt s a h
  | registersSnapshot | encode | attach => exact h
  | get a => exact inv_hostGetArray s a 1 h
  | set a b => exact inv_hostSetArray s a [b] h
  | getArray a n => exact inv_hostGetArray s a n h
  | setArray a bs => exact inv_hostSetArray s a bs h
  | raiseLine i => exact inv_hostRaise s i h

/-! ### Raising a line -/

/-- A line raised again is pending once (60_exceptions.md R309). -/
theorem insertLine_insertLine (i : Nat) (l : List Nat) : insertLine i (insertLine i l) = insertLine i l := by
  induction l with
  | nil => simp [insertLine]
  | cons j js ih =>
    rcases Nat.lt_trichotomy i j with hlt | rfl | hgt
    · simp [insertLine, hlt]
    · simp [insertLine]
    · simp [insertLine, Nat.lt_asymm hgt, Nat.ne_of_gt hgt, ih]

theorem hostOperation_raiseLine (s : State) (i : Nat) (hi : i < s.cfg.nIrq) :
    hostOperation (.raiseLine i) s = (.done, s.raiseLine i) := if_pos hi

theorem raiseLine_raiseLine (s : State) (i : Nat) : (s.raiseLine i).raiseLine i = s.raiseLine i := by
  simp only [State.raiseLine, insertLine_insertLine]

/-- Settles O22: the line joins the pending set, which holds it once. -/
theorem raisedLinesCoalesce : Obligations.RaisedLinesCoalesce := by
  unfold Obligations.RaisedLinesCoalesce
  intro s i hi
  refine ⟨s.raiseLine i, hostOperation_raiseLine s i hi, fun j => mem_insertLine i j s.pending, rfl, rfl, rfl, rfl,
    rfl, ⟨rfl, rfl⟩, ?_⟩
  rw [hostOperation_raiseLine (s.raiseLine i) i hi, raiseLine_raiseLine]

/-! ### The fatal conditions of Fetch and Decode -/

theorem step_of_fetchDecode_fatal (s s1 : State) (m : FaultMark) (hf : s.fault = none)
    (h : fetchDecode s = .fatal m s1) : step s = .next (s1.fatal m) := by
  simp only [step, hf, h]

/-- A step whose Fetch and Decode had no effect and ended in a fatal condition raises it and does nothing else
(60_exceptions.md R305). -/
theorem raisesOnly_of_fetchDecode_fatal (s : State) (m : FaultMark) (hf : s.fault = none)
    (h : fetchDecode s = .fatal m s) : ∃ t, step s = .next t ∧ raisesOnly s t m :=
  ⟨_, step_of_fetchDecode_fatal s s m hf h, fatal_spec s m⟩

theorem fetchDecode_unassigned (s : State) (hdev : isDeviceByte s.cfg (s.reg .PC) = false)
    (h : s.cfg.opcodes.lookup (readByte s (s.reg .PC)) = none) :
    fetchDecode s = .fatal (.invalidOpcode (s.reg .PC) (readByte s (s.reg .PC))) s := by
  simp only [fetchDecode, busGet_noDevice _ s hdev, h]

/-- Settles O9: Fetch reads the opcode byte with no effect, and finds it unassigned. -/
theorem invalidOpcodeEndsTheStep : Obligations.InvalidOpcodeEndsTheStep := by
  unfold Obligations.InvalidOpcodeEndsTheStep
  intro s hf hdev h
  exact raisesOnly_of_fetchDecode_fatal s _ hf (fetchDecode_unassigned s hdev h)

/-- What the decoder answers: the opcode is unassigned, or bytes are missing, or the row decides (30_encoding.md
R88). -/
theorem decode_cases (m : OpcodeMap) (op : Byte) (bs : List Byte) :
    decode m (op :: bs) = .invalidOpcode op ∨ decode m (op :: bs) = .tooShort ∨
    ∃ row, m.lookup op = some row ∧ row.length - 1 ≤ bs.length ∧ decode m (op :: bs) = decodeRow op row bs := by
  cases hr : m.lookup op with
  | none => exact .inl (decode_unassigned m op bs hr)
  | some row =>
    rcases Nat.lt_or_ge bs.length (row.length - 1) with hlen | hlen
    · exact .inr (.inl (decode_short m op row bs hr hlen))
    · exact .inr (.inr ⟨row, rfl, hlen, decode_cons m op row bs hr hlen⟩)

/-- The bytes beyond those a row needs have no part in a bad register (30_encoding.md R88). -/
theorem decodeRow_take_eq_invalidRegister (op op' b : Byte) (row : Row) (bs : List Byte)
    (h : decodeRow op row bs = .invalidRegister op' b) :
    decodeRow op row (bs.take (row.length - 1)) = .invalidRegister op b := by
  obtain ⟨-, hbad⟩ := (decodeRow_eq_invalidRegister_iff ..).mp h
  exact (decodeRow_eq_invalidRegister_iff ..).mpr ⟨rfl, by rwa [List.take_take, Nat.min_self]⟩

theorem bytesAt_take (s : State) (a : Word) (n k : Nat) (h : k ≤ n) : (bytesAt s a n).take k = bytesAt s a k := by
  rw [bytesAt, ← List.map_take, List.take_range, Nat.min_eq_left h, bytesAt]

theorem noDevice_mono (c : Config) (a : Word) (n k : Nat) (h : noDevice c a n) (hk : k ≤ n) : noDevice c a k :=
  (rangeTouches_false _ _ _).mpr fun j hj => (rangeTouches_false _ _ _).mp h j (Nat.lt_of_lt_of_le hj hk)

/-- A range outside the device windows is its first byte and the rest. -/
theorem noDevice_succ (c : Config) (a : Word) (n : Nat) (h : noDevice c a (n + 1)) :
    isDeviceByte c a = false ∧ noDevice c (a + 1) n := by
  have h := (rangeTouches_false _ _ _).mp h
  refine ⟨by simpa using h 0 (Nat.succ_pos n), (rangeTouches_false _ _ _).mpr fun k hk => ?_⟩
  rw [add_ofNat_succ]
  exact h (k + 1) (Nat.succ_lt_succ hk)

/-- Outside the device windows, Fetch and Decode report the bad register that the bytes at PC decode to, and have no
effect (40_cycle.md R122; 60_exceptions.md R302). -/
theorem fetchDecode_of_decode_invalidRegister (s : State) (n : Nat) (op b : Byte) (hdev : noDevice s.cfg (s.reg .PC) n)
    (h : decode s.cfg.opcodes (bytesAt s (s.reg .PC) n) = .invalidRegister op b) :
    fetchDecode s = .fatal (.invalidRegister (s.reg .PC) op b) s := by
  cases n with
  | zero => rw [bytesAt_zero] at h; contradiction
  | succ n =>
    obtain ⟨hfirst, hrest⟩ := noDevice_succ _ _ _ hdev
    rw [bytesAt_succ] at h
    rcases decode_cases s.cfg.opcodes (readByte s (s.reg .PC)) (bytesAt s (s.reg .PC + 1) n) with
      e | e | ⟨row, hrow, hlen, e⟩ <;> rw [e] at h
    · contradiction
    · contradiction
    · obtain ⟨rfl, -⟩ := (decodeRow_eq_invalidRegister_iff ..).mp h
      rw [bytesAt_length] at hlen
      have hbad := decodeRow_take_eq_invalidRegister _ _ _ _ _ h
      rw [bytesAt_take _ _ _ _ hlen] at hbad
      have htail := busGetArray_noDevice _ _ s (noDevice_mono _ _ _ _ hrest hlen)
      simp only [fetchDecode, busGet_noDevice _ s hfirst, hrow, htail, hbad]

/-- Settles O10: Fetch reads the bytes of the row with no effect, and Decode finds the bad one among them. -/
theorem invalidRegisterEndsTheStep : Obligations.InvalidRegisterEndsTheStep := by
  unfold Obligations.InvalidRegisterEndsTheStep
  intro s n op b hf hdev h
  exact raisesOnly_of_fetchDecode_fatal s _ hf (fetchDecode_of_decode_invalidRegister s n op b hdev h)

/-! ### Whether an interrupt is entered -/

/-- With T clear or no line waiting, the end of a step makes the signalled lines pending and does nothing else
(60_exceptions.md R310, R314). -/
theorem finishStep_merges (s : State) (hf : s.fault = none) (h : s.flag .T = false ∨ ∀ j, ¬ waits s j) :
    s.finishStep = s.mergeSignals := by
  rw [finishStep_none s hf]
  rcases interruptCheck_cases s with ⟨-, e⟩ | ⟨i, hT, hi, -⟩
  · exact e
  · have hwaits : waits s i := ((lowestWaiting_iff s i).mpr hi).1
    rcases h with h | h
    · rw [h] at hT; contradiction
    · exact absurd hwaits (h i)

theorem not_waits_of_nil (s : State) (hp : s.pending = []) (hs : s.signalled = []) (j : Nat) : ¬ waits s j := by
  simp [waits, hp, hs]

/-- Settles O13: InterruptCheck merges the signalled lines, and enters nothing. -/
theorem noInterruptWithoutTOrPending : Obligations.NoInterruptWithoutTOrPending := by
  unfold Obligations.NoInterruptWithoutTOrPending
  intro s hf h
  rw [finishStep_merges s hf (h.imp_right fun ⟨hp, hs⟩ => not_waits_of_nil s hp hs)]
  exact ⟨rfl, rfl, rfl, hf, rfl, rfl, rfl, mem_mergeSignals s⟩

theorem exists_lowestWaiting (s : State) (h : ∃ j, waits s j) : ∃ i, lowestWaiting s i := by
  obtain ⟨j, hj⟩ := h
  have hj := (mem_mergeSignals s j).mpr hj
  cases hmin : s.mergeSignals.pending.min? with
  | some i => exact ⟨i, (lowestWaiting_iff s i).mpr hmin⟩
  | none =>
    rw [List.min?_eq_none_iff.mp hmin] at hj
    contradiction

/-- Settles O16: the entry of the lowest line fails `CheckWrites`, after the signalled lines have become pending. -/
theorem entryOntoCpuWindowIsFatal : Obligations.EntryOntoCpuWindowIsFatal := by
  unfold Obligations.EntryOntoCpuWindowIsFatal
  intro s hf hT hwaits hstack
  obtain ⟨i, hi⟩ := exists_lowestWaiting s hwaits
  refine ⟨_, finishStep_enters s i hf hT hi, ?_⟩
  rw [enterInterrupt_fatal s.mergeSignals i hstack]
  exact ⟨rfl, rfl, rfl, rfl, rfl, rfl, rfl, mem_mergeSignals s⟩

/-! ### Memory as it stands -/

theorem ramHolds_of_mem (s t : State) (a v : Word) (n : Nat) (hc : t.cfg = s.cfg) (hm : t.mem = s.mem)
    (h : ramHolds s a n v) : ramHolds t a n v := fun k hk hr => by
  rw [hc] at hr
  rw [readByte_memory s t _ hc hm (.inl hr), h k hk hr]

theorem bytesAt_of_mem (s t : State) (a : Word) (n : Nat) (hc : t.cfg = s.cfg) (hm : t.mem = s.mem)
    (h : allRam s.cfg a n) : bytesAt t a n = bytesAt s a n :=
  List.map_congr_left fun k hk => readByte_memory s t _ hc hm (.inl (h k (List.mem_range.mp hk)))

/-- A word that stands in the RAM is read whole, with no effect (20_memory.md R55, R58). -/
theorem memRead_of_ramHolds (s : State) (a v : Word) (hram : allRam s.cfg a 4) (h : ramHolds s a 4 v) :
    memRead a 4 s = (v, s) := by
  have hword : littleEndian (bytesAt s a 4) = v := eq_of_byteOf _ _ fun k hk => by
    rw [byteOf_littleEndian _ k (by rwa [bytesAt_length]) hk, ← h k hk (hram k hk)]
    simp [bytesAt]
  rw [memRead_noDevice a 4 s (noDevice_of_allRam _ _ _ hram), hword]

theorem allRam_split (c : Config) (a : Word) (h : allRam c a 8) : allRam c a 4 ∧ allRam c (a + 4) 4 := by
  refine ⟨fun k hk => h k (by omega), fun k hk => ?_⟩
  have haddr : a + 4 + BitVec.ofNat 32 k = a + BitVec.ofNat 32 (4 + k) := by
    rw [BitVec.add_assoc, BitVec.ofNat_add]; rfl
  rw [haddr]
  exact h (4 + k) (by omega)

/-! ### Interrupt entry -/

/-- The end of a step from `s` enters the interrupt of line `i`: T is set, `i` is the lowest line waiting, and the stack
passes `CheckWrites`, in a state whose configuration and lines are as the invariant says (60_exceptions.md R314 to
R316). -/
structure Enters (s : State) (i : Nat) : Prop where
  config    : s.cfg.wf
  pending   : linesOk s.cfg s.pending = true
  signalled : linesOk s.cfg s.signalled = true
  fault     : s.fault = none
  flag      : s.flag .T = true
  lowest    : lowestWaiting s i
  stack     : stackWriteFatal s.cfg (s.reg .SP - 8) 8 = false

/-- The word at the vector of line `i`, as it stands (60_exceptions.md R318). -/
def vectorWord (s : State) (i : Nat) : Word :=
  littleEndian (bytesAt s (s.cfg.ivtBase + BitVec.ofNat 32 (4 * i)) 4)

/-- The state of an entry on line `i` at the end of a step, once the signalled lines are pending, PC and FL are pushed
and T is clear (60_exceptions.md R310, R316). -/
def stepPushed (s : State) (i : Nat) : State := entryPushed s.mergeSignals i

theorem stepPushed_cfg (s : State) (i : Nat) : (stepPushed s i).cfg = s.cfg := entryPushed_cfg s.mergeSignals i

/-- What the devices see of the pushes (60_exceptions.md R316). -/
theorem stepPushed_devicesAsIn (s : State) (i : Nat) (h : stackWriteFatal s.cfg (s.reg .SP - 8) 8 = false) :
    devicesAsIn (entryWrites s) (stepPushed s i) := by
  obtain ⟨hdevices, hsignalled⟩ := entryPushed_devicesAsIn s.mergeSignals i h
  obtain ⟨hdevices', hsignalled'⟩ : devicesAsIn (entryWrites s) (memWrite (s.reg .SP - 8) 4 (s.reg .FL)
      (memWrite (s.reg .SP - 4) 4 (s.reg .PC) s.mergeSignals)) :=
    memWrite_devices_congr _ _ _ _ _ (by simp) (memWrite_devices_congr _ _ _ _ _ rfl ⟨rfl, rfl⟩)
  exact ⟨hdevices.trans hdevices', hsignalled.trans hsignalled'⟩

section
variable {s : State} {i : Nat} (h : Enters s i)
include h

theorem enters_line_lt : i < s.cfg.nIrq := by
  have lines (l : List Nat) (hl : linesOk s.cfg l = true) (hi : i ∈ l) : i < s.cfg.nIrq := by
    simp only [linesOk, Bool.and_eq_true, List.all_eq_true, decide_eq_true_eq] at hl
    exact hl.2 i hi
  obtain ⟨hwaits, -⟩ := h.lowest
  exact hwaits.elim (lines _ h.pending) (lines _ h.signalled)

theorem enters_vector_allRam : allRam s.cfg (s.cfg.ivtBase + BitVec.ofNat 32 (4 * i)) 4 :=
  vector_allRam s.cfg h.config i (enters_line_lt h)

/-- The end of a step that enters an interrupt: the pushes, the jump to the vector, which reading from the RAM leaves no
trace, and the lines the pushes made a device signal (60_exceptions.md R316, R318; log entry 4). -/
theorem finishStep_of_enters :
    s.finishStep = ((stepPushed s i).jump (vectorWord (stepPushed s i) i)).mergeSignals := by
  have hread : memRead (vectorAddress s.cfg i) 4 (stepPushed s i) =
      (vectorWord (stepPushed s i) i, stepPushed s i) := by
    have hdev : noDevice (stepPushed s i).cfg (s.cfg.ivtBase + BitVec.ofNat 32 (4 * i)) 4 := by
      rw [stepPushed_cfg]
      exact noDevice_of_allRam _ _ _ (enters_vector_allRam h)
    rw [vectorAddress_eq, memRead_noDevice _ _ _ hdev, vectorWord, stepPushed_cfg]
  have hentry := enterInterrupt_ok s.mergeSignals i h.stack
  rw [mergeSignals_cfg, ← stepPushed, hread] at hentry
  rw [finishStep_enters s i h.fault h.flag h.lowest, hentry]

theorem finishStep_mem : s.finishStep.mem = (stepPushed s i).mem := by
  rw [finishStep_of_enters h, mergeSignals_mem, jump_mem]

/-- The vector word is the same before and after the jump that it is the target of. -/
theorem vectorWord_finishStep : vectorWord s.finishStep i = vectorWord (stepPushed s i) i := by
  have hcfg : s.finishStep.cfg = (stepPushed s i).cfg := by rw [finishStep_cfg, stepPushed_cfg]
  have hram := enters_vector_allRam h
  rw [← stepPushed_cfg s i] at hram
  rw [vectorWord, hcfg, bytesAt_of_mem _ _ _ _ hcfg (finishStep_mem h) hram, vectorWord]

/-- Everything an entry does to the registers (60_exceptions.md R316). -/
theorem finishStep_reg (r : Reg) :
    s.finishStep.reg r =
      if r = .PC then vectorWord s.finishStep i
      else if r = .FL then putFlag (s.reg .FL) .T false
      else if r = .SP then s.reg .SP - 8
      else s.reg r := by
  rw [vectorWord_finishStep h, finishStep_of_enters h, mergeSignals_reg, jump_reg, stepPushed,
    entryPushed_reg s.mergeSignals i h.stack]
  simp only [mergeSignals_reg]

/-- The words an entry leaves on a stack that is RAM, and the rest of memory (60_exceptions.md R316). -/
theorem finishStep_holds :
    ramHolds s.finishStep (s.reg .SP - 4) 4 (s.reg .PC) ∧ ramHolds s.finishStep (s.reg .SP - 8) 4 (s.reg .FL) ∧
    memorySameOutside s s.finishStep (s.reg .SP - 8) 8 := by
  have hcfg : s.finishStep.cfg = (stepPushed s i).cfg := by rw [finishStep_cfg, stepPushed_cfg]
  have hmem := finishStep_mem h
  obtain ⟨hpc, hfl, hother⟩ := entryPushed_holds s.mergeSignals i h.stack
  have hstart : memorySame s s.mergeSignals := memorySame_of_mem _ _ rfl rfl
  refine ⟨ramHolds_of_mem _ _ _ _ _ hcfg hmem hpc, ramHolds_of_mem _ _ _ _ _ hcfg hmem hfl, fun x hx ho => ?_⟩
  rw [readByte_memory (stepPushed s i) _ x hcfg hmem (by rwa [isMemory, stepPushed_cfg])]
  exact (hother x hx ho).trans (hstart x hx)

/-- The pending set after an entry: every line that waited but the one taken, and those the pushes made a device signal
(60_exceptions.md R310, R316; log entry 4). -/
theorem mem_finishStep_pending (j : Nat) :
    j ∈ s.finishStep.pending ↔ (waits s j ∧ j ≠ i) ∨ j ∈ (entryWrites s).signalled := by
  obtain ⟨-, hsignalled⟩ := stepPushed_devicesAsIn s i h.stack
  rw [finishStep_of_enters h, mergeSignals_pending, mem_insertLines, jump_signalled, jump_pending, hsignalled,
    stepPushed, entryPushed_pending, List.mem_filter, mem_mergeSignals, bne_iff_ne]
  exact or_comm

theorem finishStep_fault : s.finishStep.fault = none := by
  rw [finishStep_of_enters h, mergeSignals_fault, jump_fault, stepPushed, entryPushed_fault, mergeSignals_fault,
    h.fault]

theorem finishStep_running : s.finishStep.running = s.running := by
  rw [finishStep_of_enters h, mergeSignals_running, jump_running, stepPushed, entryPushed_running, mergeSignals_running]

theorem finishStep_devices : s.finishStep.devices = (entryWrites s).devices := by
  obtain ⟨hdevices, -⟩ := stepPushed_devicesAsIn s i h.stack
  rw [finishStep_of_enters h, mergeSignals_devices, jump_devices, hdevices]

theorem finishStep_signalled : s.finishStep.signalled = [] := by
  rw [finishStep_of_enters h, mergeSignals_signalled]

/-- The devices see nothing of pushes to a stack that is no device's. -/
theorem entryWrites_noDevice (hdev : noDevice s.cfg (s.reg .SP - 8) 8) :
    (entryWrites s).devices = s.devices ∧ (entryWrites s).signalled = [] := by
  obtain ⟨hdevices, hsignalled⟩ := stepPushed_devicesAsIn s i h.stack
  obtain ⟨hsame, hnone⟩ := entryPushed_devices s.mergeSignals i h.stack hdev
  exact ⟨hdevices.symm.trans hsame, hsignalled.symm.trans hnone⟩

theorem finishStep_flag_T : s.finishStep.flag .T = false := by
  rw [flag_def, finishStep_reg h, if_neg (by decide), if_pos rfl, flagOf_putFlag, if_pos rfl]

/-- T alone of FL is cleared by an entry (60_exceptions.md R316). -/
theorem getLsbD_finishStep_fl (n : Nat) :
    (s.finishStep.reg .FL).getLsbD n = (decide (n ≠ 7) && (s.reg .FL).getLsbD n) := by
  rw [finishStep_reg h, if_neg (by decide), if_pos rfl, getLsbD_putFlag]
  by_cases hn : n = 7 <;> simp [hn, Flag.bit]

/-- After an entry a further InterruptCheck changes nothing: T is clear (60_exceptions.md R315). -/
theorem finishStep_finishStep : s.finishStep.finishStep = s.finishStep := by
  rw [finishStep_merges _ (finishStep_fault h) (.inl (finishStep_flag_T h)),
    mergeSignals_nil _ (finishStep_signalled h)]

end

/-- Settles O14: the pushes, the jump to the vector and the merge, field by field. -/
theorem interruptEntry : Obligations.InterruptEntry := by
  unfold Obligations.InterruptEntry
  intro s i hconfig hpending hsignalled hfault hT hi hstack
  have h : Enters s i := ⟨hconfig, hpending, hsignalled, hfault, hT, hi, hstack⟩
  obtain ⟨hpc, hfl, hother⟩ := finishStep_holds h
  refine ⟨s.finishStep, rfl, ?_, hpc, hfl, hother, ?_, fun n _ => getLsbD_finishStep_fl h n, fun r hr => ?_,
    mem_finishStep_pending h, finishStep_cfg s, finishStep_fault h, finishStep_running h, finishStep_devices h,
    finishStep_signalled h, fun hdev => ?_⟩
  · rw [finishStep_reg h, if_neg (by decide), if_neg (by decide), if_pos rfl]
  · rw [finishStep_reg h, if_pos rfl, vectorWord, finishStep_cfg]
  · obtain ⟨hsp, hpc, hfl⟩ : r ≠ .SP ∧ r ≠ .PC ∧ r ≠ .FL := by simpa using hr
    rw [finishStep_reg h, if_neg hpc, if_neg hfl, if_neg hsp]
  · obtain ⟨hdevices, hnone⟩ := entryWrites_noDevice h hdev
    exact ⟨(finishStep_devices h).trans hdevices, hnone⟩

/-- Settles O15: the line entered is the lowest that waits, and the entry leaves T clear. -/
theorem lowestPendingLineFirst : Obligations.LowestPendingLineFirst := by
  unfold Obligations.LowestPendingLineFirst
  intro s hconfig hpending hsignalled hfault hT hwaits hstack
  obtain ⟨i, hi⟩ := exists_lowestWaiting s hwaits
  have h : Enters s i := ⟨hconfig, hpending, hsignalled, hfault, hT, hi, hstack⟩
  refine ⟨i, hi, ?_, fun j hj hne => (mem_finishStep_pending h j).mpr (.inl ⟨hj, hne⟩), fun hdev => ?_,
    finishStep_flag_T h, finishStep_finishStep h⟩
  · rw [finishStep_reg h, if_pos rfl, vectorWord, finishStep_cfg]
  · obtain ⟨-, hnone⟩ := entryWrites_noDevice h hdev
    rw [mem_finishStep_pending h, hnone]
    simp

/-! ### The return from an interrupt -/

/-- From a state whose stack holds FL and, above it, PC, in the RAM, the return takes both and frees the 8 bytes
(43_control.md R244). -/
theorem returnFromInterrupt_of_ramHolds (s : State) (fl pc : Word) (hram : allRam s.cfg (s.reg .SP) 8)
    (hfl : ramHolds s (s.reg .SP) 4 fl) (hpc : ramHolds s (s.reg .SP + 4) 4 pc) (r : Reg) :
    s.returnFromInterrupt.reg r =
      if r = .PC then pc else if r = .SP then s.reg .SP + 4 + 4 else if r = .FL then fl else s.reg r := by
  obtain ⟨hlow, hhigh⟩ := allRam_split _ _ hram
  have hread := memRead_of_ramHolds s _ fl hlow hfl
  have hread' := memRead_of_ramHolds ((s.setReg .SP (s.reg .SP + 4)).setReg .FL fl) _ pc hhigh
    (ramHolds_of_mem s _ _ _ _ rfl rfl hpc)
  rw [returnFromInterrupt_eq hread hread']
  rw [jump_reg, reg_setReg, reg_setReg, reg_setReg]
  by_cases hsp : r = .SP
  · rw [if_pos hsp, if_pos hsp]
  · rw [if_neg hsp, if_neg hsp, if_neg hsp]

/-- A return right after an entry whose stack is RAM restores every register (60_exceptions.md R319). -/
theorem returnFromInterrupt_finishStep (s : State) (i : Nat) (h : Enters s i) (hram : allRam s.cfg (s.reg .SP - 8) 8)
    (r : Reg) : s.finishStep.returnFromInterrupt.reg r = s.reg r := by
  obtain ⟨hpc, hfl, -⟩ := finishStep_holds h
  have hsp : s.finishStep.reg .SP = s.reg .SP - 8 := by
    rw [finishStep_reg h, if_neg (by decide), if_neg (by decide), if_pos rfl]
  have hup : s.reg .SP - 8 + 4 = s.reg .SP - 4 := by bv_omega
  rw [returnFromInterrupt_of_ramHolds s.finishStep (s.reg .FL) (s.reg .PC) (by rwa [hsp, finishStep_cfg]) (by rwa [hsp])
    (by rwa [hsp, hup]), hsp, hup, BitVec.sub_add_cancel]
  by_cases hr : r = .PC ∨ r = .SP ∨ r = .FL
  · rcases hr with rfl | rfl | rfl <;> rfl
  · obtain ⟨hpc, hsp, hfl⟩ : r ≠ .PC ∧ r ≠ .SP ∧ r ≠ .FL := by simpa using hr
    rw [if_neg hpc, if_neg hsp, if_neg hfl, finishStep_reg h, if_neg hpc, if_neg hfl, if_neg hsp]

/-- Settles O17: the pops read the words that the entry pushed, FL and then PC. -/
theorem returnUndoesEntry : Obligations.ReturnUndoesEntry := by
  unfold Obligations.ReturnUndoesEntry
  intro s hconfig hpending hsignalled hfault hT hwaits hram
  obtain ⟨i, hi⟩ := exists_lowestWaiting s hwaits
  have h : Enters s i :=
    ⟨hconfig, hpending, hsignalled, hfault, hT, hi, stackWriteFatal_of_allRam _ _ _ hram⟩
  have hrestored := returnFromInterrupt_finishStep s i h hram
  exact ⟨⟨_, rfl, hrestored⟩, ⟨_, rfl, hrestored⟩⟩

end Sys2Proof.Machine

/-! The family 70_reset_and_hazards.md: the host's `reset()`, the first step after it, and a run that begins at
`STOP_ADDR`. -/

namespace Sys2Proof.Machine

/-! ### Reset -/

/-- The RAM is cleared: every byte of it reads 0x00 after `reset()` (20_memory.md R63). -/
theorem readByte_hostReset (s : State) (a : Word) (h : route s.hostReset.cfg a = .ram) :
    readByte s.hostReset a = 0x00 := by
  rw [readByte_ram _ _ h]
  rfl

/-- Settles O19: `reset()` keeps of the state only the configuration and what the devices saw. -/
theorem hostResetFromAnyState : Obligations.HostResetFromAnyState := by
  unfold Obligations.HostResetFromAnyState
  exact fun s => ⟨s.hostReset, rfl, regs_zero_get, rfl, rfl, rfl, rfl, rfl, readByte_hostReset s⟩

/-! ### The first step -/

/-- The RAM window of the example configuration holds address 0, where the first step fetches. -/
theorem route_reset_zero : route State.reset.cfg 0 = .ram := by decide +kernel

/-- Settles O20: Fetch reads the cleared byte at address 0, an opcode that the default map leaves unassigned
(30_encoding.md R87). -/
theorem stepAfterResetIsInvalidOpcode : Obligations.StepAfterResetIsInvalidOpcode := by
  unfold Obligations.StepAfterResetIsInvalidOpcode
  obtain ⟨hregs, -, -, hfault, -, hram⟩ := resetState
  have hpc : State.reset.reg .PC = 0 := hregs .PC
  have hbyte : readByte State.reset 0 = 0x00 := hram 0 route_reset_zero
  have hlookup : State.reset.cfg.opcodes.lookup 0x00 = none :=
    (lookup_defaultOpcodeMap_eq_none_iff 0x00).mpr (.inl rfl)
  have hstep := invalidOpcodeEndsTheStep State.reset hfault
  rw [hpc, hbyte] at hstep
  exact hstep (isDeviceByte_ram _ 0 route_reset_zero) hlookup

/-! ### A run that begins at STOP_ADDR -/

/-- A run does not go on with PC at `STOP_ADDR` (60_exceptions.md R323). -/
theorem runsOn_at_stopAddr (s : State) (h : s.cfg.stopAddr = some (s.reg .PC)) : s.runsOn = false := by
  simp [State.runsOn, h]

/-- A run that does not go on is stopped before it fetches, however long it is observed. -/
theorem runFor_of_not_runsOn (n : Nat) (s : State) (h : s.runsOn = false) : runFor n s = s.hostStop := by
  cases n <;> simp only [runFor, h, Bool.false_eq_true, if_false]

theorem hostRun_of_fault_none (s : State) (n : Nat) (h : s.fault = none) :
    s.hostRun n = (replyAfter (runFor n { s with running := .running }), runFor n { s with running := .running }) := by
  simp only [State.hostRun, h]

/-- Settles O21: `run()` sets the run mode, finds PC at `STOP_ADDR`, and clears the run mode again. -/
theorem runStopsAtStopAddress : Obligations.RunStopsAtStopAddress := by
  unfold Obligations.RunStopsAtStopAddress
  intro s n hfault hstop
  have hrun : runFor n { s with running := .running } = { s with running := .stopped } :=
    runFor_of_not_runsOn n _ (runsOn_at_stopAddr { s with running := .running } hstop)
  have hreply : replyAfter { s with running := .stopped } = .done := by simp only [replyAfter, hfault]
  calc hostOperation (.run n) s
      = s.hostRun n := rfl
    _ = (.done, { s with running := .stopped }) := by rw [hostRun_of_fault_none s n hfault, hrun, hreply]

end Sys2Proof.Machine
